-- ==== Sys2Proof/Word.lean ====
section
/-!
DEFINITION. The words of the block (spec/00_scope.md R10): bits are numbered from 0 at the least significant end, a byte
is 8 bits, a command word and a response word are 32 bits.
-/

namespace Sys2Proof

/-- A byte (R10). -/
abbrev Byte := BitVec 8

/-- A command word or a response data word (R9: CMD_WIDTH, RSP_WIDTH). -/
abbrev Word := BitVec 32

end Sys2Proof
end

