-- ==== Sys2Proof/Syntax.lean ====
section
/-!
DEFINITION. The seven commands of the block (spec/30_encoding.md R81, R87), one constructor per row of
spec/opcode_table.json. Operands have the exact widths of R86.
-/

namespace Sys2Proof

/-- A command. R86: `j` is a key slot, `v` a byte pattern, `a` a register read address. -/
inductive Instr where
  /-- NOP (R190). -/
  | nop
  /-- KEYW j, v (R100). -/
  | keyw (j : BitVec 3) (v : Byte)
  /-- SEED (R101). -/
  | seed
  /-- STEP v (R102). -/
  | step (v : Byte)
  /-- EVAL (R150). -/
  | eval
  /-- RDREG a (R191). -/
  | rdreg (a : BitVec 12)
  /-- CLRERR (R192). -/
  | clrerr
deriving DecidableEq, Repr

end Sys2Proof
end

