-- ==== Sys2Proof/Decode.lean ====
section
/-!
DEFINITION. From command words to commands and back (spec/30_encoding.md R80 to R90), and the errors a word can raise
(spec/60_exceptions.md R197 to R201).
-/

namespace Sys2Proof

/-- The command errors (R197). -/
inductive CmdError where
  /-- ERR_OPCODE: raised by every word whose opcode field is 0x07 to 0xFF (R198). -/
  | opcode
  /-- ERR_RSVD: raised by a word of an assigned opcode with a reserved bit set (R199). -/
  | rsvd
  /-- ERR_ADDR: raised by RDREG at an unmapped address (R200). -/
  | addr
deriving DecidableEq, Repr

/-- The code recorded in STATUS.ERRCODE and presented in the error response (R197). -/
def CmdError.code : CmdError → BitVec 3
  | .opcode => 1
  | .rsvd => 2
  | .addr => 3

/-- OP, bits 31:24 of a command word (R80). -/
def opField (w : Word) : BitVec 8 := w.extractLsb' 24 8

/-- The operand `j`, bits 10:8 (R83, R86). -/
def jField (w : Word) : BitVec 3 := w.extractLsb' 8 3

/-- The operand `v`, bits 7:0 (R83, R84, R86). -/
def vField (w : Word) : Byte := w.extractLsb' 0 8

/-- The operand `a`, bits 11:0 (R85, R86). -/
def aField (w : Word) : BitVec 12 := w.extractLsb' 0 12

/-- The reserved mask of format N (R82). -/
def rsvdN : Word := 0x00FFFFFF

/-- The reserved mask of format K (R83). -/
def rsvdK : Word := 0x00FFF800

/-- The reserved mask of format B (R84). -/
def rsvdB : Word := 0x00FFFF00

/-- The reserved mask of format R (R85). -/
def rsvdR : Word := 0x00FFF000

/-- A word of an assigned opcode is its command when no bit of the reserved mask is set, else ERR_RSVD (R88, R199). -/
def checkReserved (w mask : Word) (i : Instr) : Except CmdError Instr :=
  if w &&& mask = 0 then .ok i else .error .rsvd

/-- `decode` of R88: total on every word; the opcode is checked before the reserved bits. -/
def decode (w : Word) : Except CmdError Instr :=
  match (opField w).toNat with
  | 0 => checkReserved w rsvdN .nop
  | 1 => checkReserved w rsvdK (.keyw (jField w) (vField w))
  | 2 => checkReserved w rsvdN .seed
  | 3 => checkReserved w rsvdB (.step (vField w))
  | 4 => checkReserved w rsvdN .eval
  | 5 => checkReserved w rsvdR (.rdreg (aField w))
  | 6 => checkReserved w rsvdN .clrerr
  | _ => .error .opcode

/-- The word of a command (R91, with the field positions of R81): the opcode byte, the operands in their fields, reserved
bits 0. -/
def encode : Instr → Word
  | .nop => 0x00000000
  | .keyw j v => 0x01000000 ||| (j.zeroExtend 32 <<< 8) ||| v.zeroExtend 32
  | .seed => 0x02000000
  | .step v => 0x03000000 ||| v.zeroExtend 32
  | .eval => 0x04000000
  | .rdreg a => 0x05000000 ||| a.zeroExtend 32
  | .clrerr => 0x06000000

/-- The host's entry: the command this decoder reads from an instruction of `nbits` bits `w`. Every command is one word of
32 bits, so bits of `w` from `nbits` up are dropped and the rest of the word is 0 (R80, R90). -/
def decodeTableWord (nbits w : Nat) : Option Instr :=
  match decode (BitVec.ofNat 32 (w % 2 ^ nbits)) with
  | .ok i => some i
  | .error _ => none

end Sys2Proof
end

