-- ==== Sys2Proof/Config.lean ====
section
/-!
DEFINITION. What is fixed for one block: the constants of the source (spec/00_scope.md R8), the parameters that are open
(R9) and the free values (R159, R162, R130).
-/

namespace Sys2Proof

/-- UNIV_BAND (R9, R159): a real that is at least 0. A fraction is plain data; any other real is its whole part with the
binary digits `Config.bandDigit` after the point, which nothing constrains (log 6). -/
inductive Band where
  | fraction (num : Nat) (den : ℕ+)
  | real (whole : Nat)
deriving DecidableEq, Repr

/-- The open parameters of a block (R9), the model's arguments. State carries them and no step changes them, so that a
statement about every state holds for every value of them (log 1). -/
structure Config where
  /-- KEY_RESET: the key after reset. -/
  keyReset : Vector Byte 8
  /-- UNIV_BAND: the guard band around ±UNIV_CRIT inside which the universal verdict is a draw. -/
  univBand : Band
  /-- EVAL_CYCLES: clock edges from the acceptance of an EVAL to its response, at least 1. -/
  evalCycles : ℕ+
deriving DecidableEq, Repr

namespace Config

/-- The source's reference key, the default of KEY_RESET (R9). -/
def referenceKey : Vector Byte 8 := #v[0xC1, 0xD8, 0x79, 0x33, 0xDA, 0x59, 0x8C, 0x36]

/-- The default KEY_RESET and the reference UNIV_BAND of R9. EVAL_CYCLES is open in R9: 1 is a DESIGN CHOICE (log 2). -/
def reference : Config := { keyReset := referenceKey, univBand := .fraction 0 1, evalCycles := 1 }

/-- OBS_MAX (R9): the most observation bytes the test engine accumulates. -/
def obsMax : Nat := 2 ^ 24 - 1

/-- Q (R8): the symbols of the universal test's initialisation segment. -/
def univInit : Nat := 2000

/-- TAUS (R8): the autocorrelation lags, in bytes. -/
def tau : Fin 4 → Nat
  | 0 => 10
  | 1 => 15
  | 2 => 20
  | 3 => 25

/-- FREQ_CRIT (R8). -/
def freqCrit : ℚ := 27055 / 10000

/-- SERIAL_CRIT (R8). -/
def serialCrit : ℚ := 2843359 / 10000

/-- RUNS_CRIT (R8). -/
def runsCrit : ℚ := 210641 / 10000

/-- AUTO_CRIT (R8). -/
def autoCrit : ℚ := 3

/-- UNIV_E (R8). -/
def univMean : ℚ := 71836656 / 10000000

/-- UNIV_D (R8). -/
def univVariance : ℚ := 3238 / 1000

/-- UNIV_CRIT (R8). -/
def univCrit : ℚ := 12816 / 10000

/-- L (R8): the universal test's block size in bits. -/
def univBlock : Nat := 8

/-- STAT_FRAC (R9): the fractional bits of a statistic readout. -/
def statFrac : Nat := 24

/-- OPEN PARAMETER (R9, UNIV_BAND; log 6): the binary digits after the point of a guard band given as `Band.real`, the
digit of weight 1/2 first. -/
opaque bandDigit : Nat → Fin 2

/-- FREE VALUE (R159): the verdict the n-th evaluation draws when the universal statistic is in the guard band; `true`
is PASS. -/
opaque verdictDraw : Nat → Bool

/-- FREE VALUE (R162, UNIV_READ): whether the n-th evaluation latches the integer above or the one below 2^24 times the
universal statistic, where that is no integer; `true` is the one above. -/
opaque readoutDraw : Nat → Bool

/-- FREE VALUE (R130, R133; log 8): one less than the gap the universal engine sees for a byte at position `k` whose table
entry `u` is not below `k`. No reachable state has such an entry. -/
opaque unseenGap : (k u : Nat) → Nat

end Config

end Sys2Proof
end

