-- ==== Sys2Proof/Machine/State.lean ====
section
/-!
DEFINITION. The state of the block (spec/10_state.md R20 to R44, spec/70_reset_and_hazards.md R225, R227), the reasons a
step could stop, and the state after reset. Registers have the manual's names.
-/

namespace Sys2Proof.Machine

/-- The accumulator register files of the statistical test engine (R30 to R39). -/
structure Accumulators where
  /-- Observation bytes accumulated (R30). -/
  N : BitVec 24
  /-- 1 bits in all accumulated bytes (R31). -/
  ONES : BitVec 27
  /-- `OCC[v]`: accumulated bytes equal to v (R32). -/
  OCC : Vector (BitVec 24) 256
  /-- Σ OCC[v]² (R33). -/
  SQSUM : BitVec 48
  /-- Length of the current run of 1 bits, 9 for 9 or more (R34). -/
  RUN1 : BitVec 4
  /-- Length of the current run of 0 bits, 9 for 9 or more (R34). -/
  RUN0 : BitVec 4
  /-- `BRUN[i - 1]` is the manual's BRUN[i], i = 1..8 (R35). -/
  BRUN : Vector (BitVec 26) 8
  /-- `GRUN[i - 1]` is the manual's GRUN[i], i = 1..8 (R35). -/
  GRUN : Vector (BitVec 26) 8
  /-- The delay line (R36). -/
  HIST : Vector Byte 26
  /-- The prefix counters of the lags 10, 15, 20, 25 (R37). -/
  ACP : Vector (BitVec 27) 4
  /-- The universal test's table (R38). -/
  UTAB : Vector (BitVec 24) 256
  /-- 2 to the power of the manual's USUM (R39): a sum of base-2 logarithms is the logarithm of a product, so the exact
  real USUM is log2 of this positive integer (DEDUCED, log 4). -/
  USUMEXP : ℕ+
deriving DecidableEq, Repr

/-- The accumulators after reset and after SEED (R44). -/
def Accumulators.clear : Accumulators where
  N := 0
  ONES := 0
  OCC := Vector.replicate 256 0
  SQSUM := 0
  RUN1 := 0
  RUN0 := 0
  BRUN := Vector.replicate 8 0
  GRUN := Vector.replicate 8 0
  HIST := Vector.replicate 26 0
  ACP := Vector.replicate 4 0
  UTAB := Vector.replicate 256 0
  USUMEXP := 1

/-- The input pins at one rising edge of clk (R225). -/
structure Pins where
  rst : Bool
  cmdValid : Bool
  cmd : Word
deriving DecidableEq, Repr

/-- The pins when the host drives nothing: rst and cmd_valid 0. -/
def Pins.idle : Pins := { rst := false, cmdValid := false, cmd := 0 }

/-- What the response port carries in a cycle with rsp_valid = 1 (R225). -/
structure Response where
  /-- rsp. -/
  data : Word
  /-- rsp_err. -/
  err : Bool
deriving DecidableEq, Repr

/-- The state of the block. -/
structure State where
  /-- The parameters the block was built with (R9); no step changes them. -/
  config : Config
  /-- The key register (R21). -/
  KEY : Vector Byte 8
  /-- The state register of the keystream engine (R20). -/
  S : Vector Byte 8
  /-- The step counter (R22). -/
  IDX : BitVec 3
  /-- The output byte of the last STEP (R24). -/
  LASTOUT : Byte
  /-- The observation byte of the last STEP (R25). -/
  LASTOBS : Byte
  /-- STATUS.ERR (R26, R27). -/
  ERR : Bool
  /-- STATUS.ERRCODE (R26, R27). -/
  ERRCODE : BitVec 3
  /-- STATUS.SAT (R26). -/
  SAT : Bool
  /-- STATUS.RESVALID (R26). -/
  RESVALID : Bool
  /-- The eight verdict codes (R28). -/
  VERDICT : Word
  /-- The eight statistics (R29). -/
  STAT : Vector (BitVec 64) 8
  /-- The accumulators (R30 to R39). -/
  acc : Accumulators
  /-- Clock edges a valid EVAL in progress still has to wait for; EVAL-busy is this being non-zero (R41, R227). -/
  evalLeft : Nat
  /-- The last rising edge was a reset edge: cmd_ready is 0 from the cycle after it on while rst stays 1 (R220). -/
  afterReset : Bool
  /-- The response port in the current cycle: `none` is rsp_valid = 0 (R228). -/
  rsp : Option Response
  /-- What the host drives at the coming rising edges, the next one first (R231). -/
  pins : List Pins
  /-- The model's own: how many evaluations have taken their free values (log 7). -/
  draws : Nat
deriving DecidableEq, Repr

/-- EVAL-busy (R41). -/
def State.evalBusy (s : State) : Bool := s.evalLeft != 0

/-- The cmd_ready output in a cycle in which the host drives `rst`: 0 while an EVAL is in progress (R227) and in a cycle
with rst = 1 that follows a reset edge (R220, R223), else 1. -/
def State.cmdReady (s : State) (rst : Bool) : Bool := !s.evalBusy && !(rst && s.afterReset)

/-- Why a step would stop with a fault. Nothing of the block stops it: a command error is a next state (R196, R204), so
no reason exists and none is ever raised (log 15). -/
inductive Fault : Type
deriving DecidableEq, Repr

/-- Why a step would be refused. -/
inductive Refusal where
  /-- An instruction without a meaning yet; raised only by a refused arm of `exec`, of which there is none. Safe. -/
  | notModelled (mnemonic : String)
deriving DecidableEq, Repr

/-- The outcome of a step of this machine. -/
abbrev Outcome := Host.Outcome State Fault Refusal

/-- The state after reset of a block built with the parameters `c` (R44, R221). -/
def State.resetWith (c : Config) : State where
  config := c
  KEY := c.keyReset
  S := c.keyReset
  IDX := 0
  LASTOUT := 0
  LASTOBS := 0
  ERR := false
  ERRCODE := 0
  SAT := false
  RESVALID := false
  VERDICT := 0
  STAT := Vector.replicate 8 0
  acc := Accumulators.clear
  evalLeft := 0
  afterReset := true
  rsp := none
  pins := []
  draws := 0

/-- The machine right after reset, with the default parameters of R9. -/
def State.reset : State := State.resetWith Config.reference

end Sys2Proof.Machine
end

