-- ==== Sys2Proof/Machine/Flags.lean ====
section
/-!
DEFINITION. STATUS (spec/10_state.md R26) and the verdict codes (spec/42_evaluate.md R160, R161).
-/

namespace Sys2Proof.Machine

/-- The STATUS word: ERR in bit 0, ERRCODE in bits 3:1, SAT in bit 4, RESVALID in bit 5, the rest hard-wired 0 (R26). -/
def statusWord (s : State) : Word :=
  (BitVec.ofBool s.RESVALID ++ BitVec.ofBool s.SAT ++ s.ERRCODE ++ BitVec.ofBool s.ERR).zeroExtend 32

/-- The verdict codes of R160. -/
inductive Verdict where
  /-- No EVAL since the last SEED or reset. -/
  | noResult
  | pass
  | fail
  | insufficient
  | overflow
deriving DecidableEq, Repr

/-- The 4-bit code of a verdict (R160). -/
def Verdict.code : Verdict → BitVec 4
  | .noResult => 0
  | .pass => 1
  | .fail => 2
  | .insufficient => 3
  | .overflow => 4

/-- PASS or FAIL by whether the statistic is in the test's critical interval. -/
def Verdict.judge (inside : Bool) : Verdict := if inside then .pass else .fail

/-- VERDICT from the codes of the eight slots: slot t in bits 4t+3:4t (R161). -/
def packVerdict (v : Fin 8 → Verdict) : Word :=
  ((v 7).code ++ (v 6).code ++ (v 5).code ++ (v 4).code ++ (v 3).code ++ (v 2).code ++ (v 1).code
    ++ (v 0).code).zeroExtend 32

/-- The code that VERDICT holds for slot t (R161). -/
def verdictSlot (w : Word) (t : Fin 8) : BitVec 4 := w.extractLsb' (4 * t) 4

end Sys2Proof.Machine
end

