-- ==== Sys2Proof/Machine/Ops.lean ====
section
/-!
DEFINITION. The operations every command shares: responding (spec/00_scope.md R12), raising a command error and clearing
it (spec/60_exceptions.md R196), clearing the observation (spec/40_keystream.md R101), reset (spec/70_reset_and_hazards.md
R221), and the step-counter arithmetic.
-/

namespace Sys2Proof.Machine

/-- `respond(w)`: the data word on the response port with the error bit 0 (R12). -/
def State.respond (s : State) (w : Word) : State := { s with rsp := some { data := w, err := false } }

/-- `raise CmdError(code)`: the one exception of the block (R196). The first error since CLRERR or reset is recorded; the
response carries the code with the error bit 1; nothing else changes. -/
def State.raise (s : State) (e : CmdError) : State :=
  { s with
    ERR := true
    ERRCODE := if s.ERR then s.ERRCODE else e.code
    rsp := some { data := e.code.zeroExtend 32, err := true } }

/-- Clears the error record (R192, R205): what re-arms it. There is no trap return. -/
def State.clearError (s : State) : State := { s with ERR := false, ERRCODE := 0 }

/-- A fresh engine from the key register: S from KEY, and everything of R44's SEED column cleared (R101). -/
def State.reseed (s : State) : State :=
  { s with
    S := s.KEY
    IDX := 0
    LASTOUT := 0
    LASTOBS := 0
    SAT := false
    RESVALID := false
    VERDICT := 0
    STAT := Vector.replicate 8 0
    acc := Accumulators.clear }

/-- A rising edge with rst = 1 (R221, R222): KEY from KEY_RESET, the effect of SEED, the error record cleared, an EVAL in
progress and any response abandoned. What the host drives next, the parameters and the model's draw counter stay. -/
def State.resetEdge (s : State) : State :=
  { ({ s with KEY := s.config.keyReset } : State).reseed.clearError with
    evalLeft := 0
    rsp := none }

/-- Index of S[(i + k) mod 8] (R20, R103, R107). -/
def slot (i : BitVec 3) (k : Nat) : Fin 8 := ⟨(i.toNat + k) % 8, Nat.mod_lt _ (by decide)⟩

/-- Reads S[(i + k) mod 8]. -/
def State.readS (s : State) (i : BitVec 3) (k : Nat) : Byte := s.S[slot i k]

/-- Writes S[i] (R106). -/
def State.writeS (s : State) (i : BitVec 3) (v : Byte) : State := { s with S := s.S.set (slot i 0) v }

/-- Writes KEY[j] (R100). -/
def State.writeKey (s : State) (j : BitVec 3) (v : Byte) : State := { s with KEY := s.KEY.set (slot j 0) v }

/-- `popcount(x)` (spec/00_scope.md R11): the number of 1 bits of a byte. -/
def popcount (x : Byte) : Nat := (List.finRange 8).countP (fun i => x.getLsbD i)

/-- The bits of a byte, most significant first (R11, R67). -/
def bitsMsb (x : Byte) : List Bool := (List.finRange 8).map (fun j => x.getLsbD (7 - j))

end Sys2Proof.Machine
end

