-- ==== Sys2Proof/Machine/Accumulate.lean ====
section
/-!
DEFINITION. The accumulator pipelines (spec/41_accumulators.md R120 to R130): what one observation byte does to the
statistical test engine.
-/

namespace Sys2Proof.Machine

/-- freq_acc (R123). -/
def Accumulators.freqAcc (a : Accumulators) (x : Byte) : Accumulators :=
  { a with ONES := a.ONES + BitVec.ofNat 27 (popcount x) }

/-- serial_acc (R124): the square sum first, from the count before the update. -/
def Accumulators.serialAcc (a : Accumulators) (x : Byte) : Accumulators :=
  { a with
    SQSUM := a.SQSUM + 2 * (a.OCC[x.toFin]).zeroExtend 48 + 1
    OCC := a.OCC.set x.toFin (a.OCC[x.toFin] + 1) }

/-- Counts a finished run of length `r` in its bin, if 1 ≤ r ≤ 8 (R125). -/
def countRun (bins : Vector (BitVec 26) 8) (r : BitVec 4) : Vector (BitVec 26) 8 :=
  if h : 1 ≤ r.toNat ∧ r.toNat ≤ 8 then bins.set (r.toNat - 1) (bins[r.toNat - 1] + 1) else bins

/-- min(r + 1, 9) (R125). -/
def growRun (r : BitVec 4) : BitVec 4 := BitVec.ofNat 4 (min (r.toNat + 1) 9)

/-- One bit through the run-length FSM (R125). -/
def Accumulators.runBit (a : Accumulators) (bit : Bool) : Accumulators :=
  if bit then
    { a with GRUN := countRun a.GRUN a.RUN0, RUN0 := 0, RUN1 := growRun a.RUN1 }
  else
    { a with BRUN := countRun a.BRUN a.RUN1, RUN1 := 0, RUN0 := growRun a.RUN0 }

/-- runs_acc (R125): the eight bits, most significant first. -/
def Accumulators.runsAcc (a : Accumulators) (x : Byte) : Accumulators := (bitsMsb x).foldl Accumulators.runBit a

/-- auto_acc, part 1 (R127): the delay line. -/
def Accumulators.shiftHist (a : Accumulators) (x : Byte) : Accumulators :=
  { a with HIST := Vector.ofFn fun j : Fin 26 => if j.val = 0 then x else a.HIST[j.val - 1] }

/-- auto_acc, part 2 (R128): the prefix counters, after the shift; `k` is the position of the byte. -/
def Accumulators.prefixAcc (a : Accumulators) (k : Nat) : Accumulators :=
  { a with
    ACP := Vector.ofFn fun t : Fin 4 =>
      if Config.tau t ≤ k then
        a.ACP[t] + BitVec.ofNat 27 (popcount (a.HIST[Config.tau t]'(by revert t; decide)))
      else a.ACP[t] }

/-- The gap k - UTAB[x] of R130, as a positive integer. R133: it is at least 1 in every reachable state; elsewhere the
rule gives it no value, so it is a free value (log 8). -/
def univGap (k u : Nat) : ℕ+ := if u < k then Nat.toPNat' (k - u) else Nat.succPNat (Config.unseenGap k u)

/-- univ_acc (R129, R130): the sum of logarithms is held as a product (log 4). -/
def Accumulators.univAcc (a : Accumulators) (x : Byte) (k : Nat) : Accumulators :=
  { a with
    USUMEXP := if k < Config.univInit then a.USUMEXP else a.USUMEXP * univGap k (a.UTAB[x.toFin]).toNat
    UTAB := a.UTAB.set x.toFin (BitVec.ofNat 24 k) }

/-- The five engines and the count, for a byte at position k = N (R120, R122). -/
def Accumulators.accumulate (a : Accumulators) (x : Byte) : Accumulators :=
  let k := a.N.toNat
  let b := ((((a.freqAcc x).serialAcc x).runsAcc x).shiftHist x).prefixAcc k |>.univAcc x k
  { b with N := BitVec.ofNat 24 (k + 1) }

/-- ste_accumulate (R120, R121): at saturation only STATUS.SAT changes. -/
def State.steAccumulate (s : State) (x : Byte) : State :=
  if s.acc.N.toNat = Config.obsMax then { s with SAT := true } else { s with acc := s.acc.accumulate x }

end Sys2Proof.Machine
end

