-- ==== Sys2Proof/Machine/Statistics.lean ====
section
/-!
DEFINITION. The statistics of slots 0 to 6 and their verdicts (spec/42_evaluate.md R154 to R157), in exact rational
arithmetic (spec/00_scope.md R13), and their fixed-point readout (R162).
-/

namespace Sys2Proof.Machine

/-- What a test of slots 0 to 6 gives: its code and its statistic, if it computed one (R150). -/
structure TestResult where
  verdict : Verdict
  stat : Option ℚ
deriving DecidableEq, Repr

/-- A statistic judged against the test's critical interval. -/
def TestResult.judged (inside : Bool) (stat : ℚ) : TestResult := ⟨Verdict.judge inside, some stat⟩

/-- The code of a test whose sequence is too short (R160). -/
def TestResult.insufficient : TestResult := ⟨.insufficient, none⟩

/-- (zeros - ones)² / bits, with zeros = bits - ones: the statistic of the frequency and autocorrelation tests (R154,
R157). -/
def balanceStat (bits ones : Nat) : ℚ := (((bits : ℚ) - ones) - ones) ^ 2 / bits

/-- Test 1, frequency (R154). -/
def frequencyTest (a : Accumulators) : TestResult :=
  if a.N = 0 then .insufficient
  else
    let stat := balanceStat (8 * a.N.toNat) a.ONES.toNat
    .judged (decide (-Config.freqCrit ≤ stat) && decide (stat ≤ Config.freqCrit)) stat

/-- (256 / k) * Σ OCC[v]² - k (R155). -/
def serialStat (k sqsum : Nat) : ℚ := 256 / (k : ℚ) * sqsum - k

/-- Test 2, sequence (R155). -/
def serialTest (a : Accumulators) : TestResult :=
  if a.N = 0 then .insufficient
  else
    let stat := serialStat a.N.toNat a.SQSUM.toNat
    .judged (decide (stat ≤ Config.serialCrit)) stat

/-- The expected value e_i = (n - i + 3) / 2^(i+2) of the runs test, for i = 1..8 (R156). -/
def runsExpected (n i : Nat) : ℚ := ((n : ℚ) - i + 3) / 2 ^ (i + 2)

/-- Σ (bins[i] - e_i)² / e_i over i = 1..8 (R156). -/
def runsSum (n : Nat) (bins : Vector (BitVec 26) 8) : ℚ :=
  ((List.finRange 8).map fun j : Fin 8 =>
    (((bins[j]).toNat : ℚ) - runsExpected n (j + 1)) ^ 2 / runsExpected n (j + 1)).sum

/-- Test 3, series (R156). -/
def runsTest (a : Accumulators) : TestResult :=
  if a.N = 0 then .insufficient
  else
    let n := 8 * a.N.toNat
    let stat := runsSum n a.BRUN + runsSum n a.GRUN
    .judged (decide (stat ≤ Config.runsCrit)) stat

/-- Test 4, autocorrelation, for the lag of index t (R157). -/
def autoTest (a : Accumulators) (t : Fin 4) : TestResult :=
  if a.N.toNat ≤ Config.tau t then .insufficient
  else
    let stat := balanceStat (8 * (a.N.toNat - Config.tau t)) (a.ACP[t]).toNat
    .judged (decide (-Config.autoCrit ≤ stat) && decide (stat ≤ Config.autoCrit)) stat

/-- A rational statistic in fixed point: floor(2^24 * stat) in 64 bits (R162). -/
def fixedPoint (stat : ℚ) : BitVec 64 := BitVec.ofInt 64 (2 ^ Config.statFrac * stat).floor

/-- The readout of slots 0 to 6: 0 unless the code is PASS or FAIL (R162). -/
def TestResult.readout (r : TestResult) : BitVec 64 :=
  match r.verdict, r.stat with
  | .pass, some q => fixedPoint q
  | .fail, some q => fixedPoint q
  | _, _ => 0

end Sys2Proof.Machine
end

