-- ==== Sys2Proof/Machine/Universal.lean ====
section
/-!
DEFINITION. Test 5, universal (spec/42_evaluate.md R158, R159, R162). The statistic is an exact real (spec/00_scope.md R12,
R13), (USUM / K - e) / (C * sqrt d) with C = 0.7 - 0.8/L + (4 + 32/L) K^(-3/L) / 15, where USUM is log2 of the integer
USUMEXP. Integer arithmetic encloses it between two rationals at any precision, and each comparison takes the first
precision whose enclosure settles it, so verdict and readout are those of the exact real: nothing is rounded (log 5). What
no precision settles is an equality, and takes the equality's answer. Laws/Universal.lean proves both (univVerdict_exact,
univReadout_exact).
-/

namespace Sys2Proof.Machine

/-! ### Enclosures -/

/-- The greatest `r` reached from `r0` by setting bits from `bits - 1` down while `ok` still holds: for an `ok` that holds
below a bound and nowhere above it, the last value at which it holds. -/
def searchBits (ok : Nat → Bool) : (bits r0 : Nat) → Nat
  | 0, r => r
  | b + 1, r => if ok (r + 2 ^ b) then searchBits ok b (r + 2 ^ b) else searchBits ok b r

/-- The first `n` fractional bits of log2 (a / 2^w) for a mantissa 2^w ≤ a < 2^(w+1), by repeated squaring, each square
rounded down to `w` fractional bits. -/
def logBits (w : Nat) : (n a : Nat) → Nat
  | 0, _ => 0
  | n + 1, a =>
    let sq := a * a / 2 ^ w
    if sq < 2 ^ (w + 1) then logBits w n sq else 2 ^ n + logBits w n (sq / 2)

/-- 2^n * log2 p, rounded down with an error below 2. -/
def logFixed (n p : Nat) : Nat :=
  let w := n + 4
  let e := Nat.log2 p
  let mantissa := if e ≤ w then p * 2 ^ (w - e) else p / 2 ^ (e - w)
  e * 2 ^ n + logBits w n mantissa

/-- 2^n * K^(-3/8), rounded down (R158: L = 8). -/
def rootFixed (n K : Nat) : Nat := searchBits (fun r => decide (r ^ 8 * K ^ 3 ≤ 2 ^ (8 * n))) (n + 1) 0

/-- 2^n * sqrt 3.238, rounded down (R158: d = 3238/1000). -/
def sigmaFixed (n : Nat) : Nat := searchBits (fun r => decide (1000 * r ^ 2 ≤ 3238 * 2 ^ (2 * n))) (n + 1) 0

/-- Two rationals with a real between them. -/
structure Enclosure where
  lo : ℚ
  hi : ℚ
deriving DecidableEq, Repr

/-- C of R158 from a value of K^(-3/8). -/
def univFactor (root : ℚ) : ℚ :=
  7 / 10 - (8 / 10) / Config.univBlock + ((4 + 32 / Config.univBlock) * root) / 15

/-- USUM / K - e (R158) for USUM = log2 p, enclosed with `n` fractional bits. -/
def univNumerator (n : Nat) (p : ℕ+) (K : Nat) : Enclosure :=
  let l := logFixed n p
  { lo := (l : ℚ) / 2 ^ n / K - Config.univMean
    hi := ((l : ℚ) + 2) / 2 ^ n / K - Config.univMean }

/-- C * sqrt d (R158), enclosed with `n` fractional bits. -/
def univDenominator (n K : Nat) : Enclosure :=
  let r := rootFixed n K
  let g := sigmaFixed n
  { lo := univFactor ((r : ℚ) / 2 ^ n) * ((g : ℚ) / 2 ^ n)
    hi := univFactor (((r : ℚ) + 1) / 2 ^ n) * (((g : ℚ) + 1) / 2 ^ n) }

/-- The quotient of the numerator and the denominator of R158, enclosed with `n` fractional bits. -/
def univQuotient (p : ℕ+) (K n : Nat) : Enclosure :=
  let x := univNumerator n p K
  let d := univDenominator n K
  { lo := if 0 ≤ x.lo then x.lo / d.hi else x.lo / d.lo
    hi := if 0 ≤ x.hi then x.hi / d.lo else x.hi / d.hi }

/-- USUM is the integer K * e, so that the universal statistic is exactly 0. -/
def univIsZero (p : ℕ+) (K : Nat) : Bool :=
  decide (2 ^ Nat.log2 p = (p : ℕ)) && decide ((Nat.log2 p : ℚ) = K * Config.univMean)

/-- The universal statistic for USUM = log2 p and K test symbols (R158), enclosed with `n` fractional bits. The statistic 0
is told apart exactly, so that no search waits for it. -/
def univStat (p : ℕ+) (K n : Nat) : Enclosure := if univIsZero p K then { lo := 0, hi := 0 } else univQuotient p K n

/-- The absolute value of an enclosed real, enclosed. -/
def Enclosure.abs (x : Enclosure) : Enclosure := { lo := max 0 (max x.lo (-x.hi)), hi := max x.hi (-x.lo) }

/-- The whole part of a real guard band with its first `n` digits after the point, as an integer. -/
def bandDigits (whole : Nat) : (n : Nat) → Nat
  | 0 => whole
  | n + 1 => 2 * bandDigits whole n + (Config.bandDigit n).val

/-- UNIV_BAND, enclosed with `n` fractional bits. -/
def bandEnclosure (b : Band) (n : Nat) : Enclosure :=
  match b with
  | .fraction num den => { lo := (num : ℚ) / (den : ℕ), hi := (num : ℚ) / (den : ℕ) }
  | .real whole => { lo := (bandDigits whole n : ℚ) / 2 ^ n, hi := ((bandDigits whole n : ℚ) + 1) / 2 ^ n }

/-! ### Exact comparisons -/

/-- What `f` answers at the first precision from `n` on at which it answers; `none` if it never does. -/
def firstAnswer {α : Type} (f : Nat → Option α) (n : Nat) : Option α :=
  match f n with
  | some a => some a
  | none => firstAnswer f (n + 1)
partial_fixpoint

/-- `firstAnswer`, its first try apart, so that an answer there needs no search. -/
def settle {α : Type} (f : Nat → Option α) (n : Nat) : Option α :=
  match f n with
  | some a => some a
  | none => firstAnswer f (n + 1)

/-- The precision the comparisons start with: 128 fractional bits, more for larger USUM, so that the first enclosure is far
narrower than the last bit of a readout. -/
def univBits (p : ℕ+) : Nat := 128 + Nat.log2 (Nat.log2 p + 1)

/-- Where |stat| lies: at most UNIV_CRIT - UNIV_BAND, above UNIV_CRIT and at least UNIV_CRIT + UNIV_BAND, or strictly
inside the guard band (R159). -/
inductive Zone where
  | inside
  | outside
  | band
deriving DecidableEq, Repr

/-- The zone, if `n` fractional bits settle it. -/
def zoneAt (b : Band) (p : ℕ+) (K n : Nat) : Option Zone :=
  let c := Config.univCrit
  let x := (univStat p K n).abs
  let w := bandEnclosure b n
  if x.hi ≤ c - w.hi then some .inside
  else if c + w.hi ≤ x.lo ∧ c < x.lo then some .outside
  else if c - w.lo < x.lo ∧ x.hi < c + w.lo then some .band
  else none

/-- Whether |stat| is at most UNIV_CRIT, if `n` fractional bits settle it. -/
def withinAt (p : ℕ+) (K n : Nat) : Option Bool :=
  let x := (univStat p K n).abs
  if x.hi ≤ Config.univCrit then some true else if Config.univCrit < x.lo then some false else none

/-- The universal verdict (R159): the draw strictly inside the guard band, elsewhere PASS exactly when the statistic is in
the closed critical interval. No precision settles the zone exactly when |stat| is an end of the band; then |stat| against
UNIV_CRIT decides, and where no precision settles that either, |stat| is UNIV_CRIT, which passes. -/
def univVerdict (b : Band) (p : ℕ+) (K : Nat) (draw : Bool) : Verdict :=
  match settle (zoneAt b p K) (univBits p) with
  | some .inside => .pass
  | some .outside => .fail
  | some .band => Verdict.judge draw
  | none => Verdict.judge ((settle (withinAt p K) (univBits p)).getD true)

/-- The floor and the ceiling of 2^24 * stat, if `n` fractional bits settle them: no integer lies in the enclosure, or it
is one integer. -/
def roundAt (p : ℕ+) (K n : Nat) : Option (Int × Int) :=
  let x := univStat p K n
  let up := (2 ^ Config.statFrac * x.lo).ceil
  if 2 ^ Config.statFrac * x.hi < (up : ℚ) then some (up - 1, up)
  else if 2 ^ Config.statFrac * x.lo = (up : ℚ) ∧ x.hi = x.lo then some (up, up)
  else none

/-- The universal readout (R162): the integer below or above 2^24 * stat by the draw, which are one where 2^24 * stat is an
integer. No precision settles them only for such an integer; then it is the one integer in the first enclosure. -/
def univReadout (p : ℕ+) (K : Nat) (draw : Bool) : Int :=
  match settle (roundAt p K) (univBits p) with
  | some (below, above) => if draw then above else below
  | none => (2 ^ Config.statFrac * (univStat p K (univBits p)).lo).ceil

/-- What the universal test gives: its code and its readout (R158, R159, R162), with the free values of evaluation
number `draw`. -/
def universalTest (band : Band) (a : Accumulators) (draw : Nat) : Verdict × BitVec 64 :=
  if a.N.toNat ≤ Config.univInit then (.insufficient, 0)
  else
    let K := a.N.toNat - Config.univInit
    (univVerdict band a.USUMEXP K (Config.verdictDraw draw),
      BitVec.ofInt 64 (univReadout a.USUMEXP K (Config.readoutDraw draw)))

end Sys2Proof.Machine
end

