-- ==== Sys2Proof/Machine/Evaluate.lean ====
section
/-!
DEFINITION. EVAL (spec/42_evaluate.md R150 to R153, R161, R162).
-/

namespace Sys2Proof.Machine

/-- The eight slots' codes and readouts when nothing is saturated (R152). -/
def evaluateSlots (s : State) : Vector (Verdict × BitVec 64) 8 :=
  let slot (r : TestResult) := (r.verdict, r.readout)
  #v[slot (frequencyTest s.acc), slot (serialTest s.acc), slot (runsTest s.acc),
    slot (autoTest s.acc 0), slot (autoTest s.acc 1), slot (autoTest s.acc 2), slot (autoTest s.acc 3),
    universalTest s.config.univBand s.acc s.draws]

/-- The eight slots' codes and readouts: OVERFLOW and no statistic in every slot after saturation (R150, R153). -/
def State.slots (s : State) : Vector (Verdict × BitVec 64) 8 :=
  if s.SAT then Vector.replicate 8 (.overflow, 0) else evaluateSlots s

/-- EVAL (R150, R151): VERDICT, STAT and RESVALID; the response is VERDICT. The evaluation takes its free values at the
draw counter and moves it on (log 7). -/
def execEval (s : State) : Outcome :=
  let r := s.slots
  let v := packVerdict fun t => (r[t]).1
  .next ({ s with
    VERDICT := v
    STAT := Vector.ofFn fun t : Fin 8 => (r[t]).2
    RESVALID := true
    draws := s.draws + 1 }.respond v)

end Sys2Proof.Machine
end

