-- ==== Sys2Proof/Machine/Operands.lean ====
section
/-!
DEFINITION. The one operand that names state: the register read address of RDREG, and the register read map of
spec/20_memory.md R60 to R65.
-/

namespace Sys2Proof.Machine

/-- The words of the register read map (R62). Array indexes count from 0, so `brun 0` is the manual's BRUN[1]. -/
inductive RegName where
  | s (i : Fin 8)
  | idx
  | lastOut
  | lastObs
  | status
  | n
  | ones
  | sqsumLo
  | sqsumHi
  | key (j : Fin 8)
  | run1
  | run0
  | brun (i : Fin 8)
  | grun (i : Fin 8)
  | acp (t : Fin 4)
  | hist (j : Fin 26)
  | verdict
  | statLo (t : Fin 8)
  | statHi (t : Fin 8)
  | occ (v : Fin 256)
  | utab (v : Fin 256)
deriving DecidableEq, Repr

/-- The address of a word (R62). -/
def RegName.addr : RegName → Nat
  | .s i => 0x000 + i
  | .idx => 0x008
  | .lastOut => 0x009
  | .lastObs => 0x00A
  | .status => 0x00B
  | .n => 0x00C
  | .ones => 0x00D
  | .sqsumLo => 0x00E
  | .sqsumHi => 0x00F
  | .key j => 0x010 + j
  | .run1 => 0x018
  | .run0 => 0x019
  | .brun i => 0x020 + i
  | .grun i => 0x028 + i
  | .acp t => 0x030 + t
  | .hist j => 0x040 + j
  | .verdict => 0x080
  | .statLo t => 0x090 + 2 * t
  | .statHi t => 0x091 + 2 * t
  | .occ v => 0x100 + v
  | .utab v => 0x200 + v

/-- The entry `f` of the array of `n` words that starts at address `base`, if `a` lies in it. -/
def arrayAt (a base n : Nat) (f : Fin n → RegName) : Option RegName :=
  if h : base ≤ a ∧ a - base < n then some (f ⟨a - base, h.2⟩) else none

/-- The word that address `a` names, `none` where R62 leaves `a` unmapped (R63). -/
def regAt (a : Nat) : Option RegName :=
  arrayAt a 0x000 8 .s
  <|> arrayAt a 0x008 1 (fun _ => .idx)
  <|> arrayAt a 0x009 1 (fun _ => .lastOut)
  <|> arrayAt a 0x00A 1 (fun _ => .lastObs)
  <|> arrayAt a 0x00B 1 (fun _ => .status)
  <|> arrayAt a 0x00C 1 (fun _ => .n)
  <|> arrayAt a 0x00D 1 (fun _ => .ones)
  <|> arrayAt a 0x00E 1 (fun _ => .sqsumLo)
  <|> arrayAt a 0x00F 1 (fun _ => .sqsumHi)
  <|> arrayAt a 0x010 8 .key
  <|> arrayAt a 0x018 1 (fun _ => .run1)
  <|> arrayAt a 0x019 1 (fun _ => .run0)
  <|> arrayAt a 0x020 8 .brun
  <|> arrayAt a 0x028 8 .grun
  <|> arrayAt a 0x030 4 .acp
  <|> arrayAt a 0x040 26 .hist
  <|> arrayAt a 0x080 1 (fun _ => .verdict)
  <|> arrayAt a 0x090 16 (fun k => if k.val % 2 = 0 then .statLo ⟨k / 2, by omega⟩ else .statHi ⟨k / 2, by omega⟩)
  <|> arrayAt a 0x100 256 .occ
  <|> arrayAt a 0x200 256 .utab

/-- REG: the 32-bit word of a register. A narrow register is zero-extended, a wide one split with the low word at the
lower address (R62, R64, R65). -/
def readReg (r : RegName) (s : State) : Word :=
  match r with
  | .s i => s.S[i].zeroExtend 32
  | .idx => s.IDX.zeroExtend 32
  | .lastOut => s.LASTOUT.zeroExtend 32
  | .lastObs => s.LASTOBS.zeroExtend 32
  | .status => statusWord s
  | .n => s.acc.N.zeroExtend 32
  | .ones => s.acc.ONES.zeroExtend 32
  | .sqsumLo => s.acc.SQSUM.extractLsb' 0 32
  | .sqsumHi => (s.acc.SQSUM.extractLsb' 32 16).zeroExtend 32
  | .key j => s.KEY[j].zeroExtend 32
  | .run1 => s.acc.RUN1.zeroExtend 32
  | .run0 => s.acc.RUN0.zeroExtend 32
  | .brun i => s.acc.BRUN[i].zeroExtend 32
  | .grun i => s.acc.GRUN[i].zeroExtend 32
  | .acp t => s.acc.ACP[t].zeroExtend 32
  | .hist j => s.acc.HIST[j].zeroExtend 32
  | .verdict => s.VERDICT
  | .statLo t => s.STAT[t].extractLsb' 0 32
  | .statHi t => s.STAT[t].extractLsb' 32 32
  | .occ v => s.acc.OCC[v].zeroExtend 32
  | .utab v => s.acc.UTAB[v].zeroExtend 32

end Sys2Proof.Machine
end

