-- ==== Sys2Proof/Machine/HostCommands.lean ====
section
/-!
DEFINITION. The host's commands (spec/43_host_commands.md R190 to R192): NOP, RDREG and CLRERR.
-/

namespace Sys2Proof.Machine

/-- NOP (R190). -/
def execNop (s : State) : Outcome := .next (s.respond 0)

/-- RDREG (R191): the word at the address, or ERR_ADDR where it is unmapped (R63, R200). -/
def execRdreg (a : BitVec 12) (s : State) : Outcome :=
  match regAt a.toNat with
  | some r => .next (s.respond (readReg r s))
  | none => .next (s.raise .addr)

/-- CLRERR (R192). -/
def execClrerr (s : State) : Outcome := .next (s.clearError.respond 0)

end Sys2Proof.Machine
end

