-- ==== Sys2Proof/Machine/Keystream.lean ====
section
/-!
DEFINITION. The keystream engine's commands (spec/40_keystream.md R100 to R109): KEYW, SEED and STEP. Bytes the source
reads as signed are sign-extended to 32 bits, its "wider signed integer" (R103, R108; log 18).
-/

namespace Sys2Proof.Machine

/-- sext8 into the wide integer (spec/00_scope.md R10). -/
def sext8 (v : Byte) : BitVec 32 := v.signExtend 32

/-- sext16 into the wide integer (R10). -/
def sext16 (v : BitVec 16) : BitVec 32 := v.signExtend 32

/-- The first feedback function (R104). -/
def feedback1 (a b c : Byte) : Byte :=
  (sext8 a ^^^ (sext8 b).sshiftRight 1 ^^^ ((sext8 c <<< 1) &&& 0xFF#32)).setWidth 8

/-- The packing of two sign-extended bytes into a 16-bit pattern (R107). -/
def pack (hi lo : Byte) : BitVec 16 := ((sext8 hi <<< 8) ||| sext8 lo).setWidth 16

/-- The second feedback function (R108). -/
def feedback2 (A B : BitVec 16) : Byte := ((sext16 A * sext16 B).sshiftRight 8).setWidth 8

/-- The observation byte of a STEP from this state (R103, R104). -/
def State.fb1 (s : State) : Byte := feedback1 (s.readS s.IDX 0) (s.readS s.IDX 1) (s.readS s.IDX 7)

/-- The step counter moves and the observation byte overwrites the slot it now names (R105, R106). -/
def State.advance (s : State) : State :=
  let i := s.IDX + 7
  { s.writeS i s.fb1 with IDX := i }

/-- The keystream byte, from the state after `advance` (R107, R108). -/
def State.fb2 (s : State) : Byte :=
  feedback2 (pack (s.readS s.IDX 0) (s.readS s.IDX 2)) (pack (s.readS s.IDX 4) (s.readS s.IDX 7))

/-- The response word of STEP: output byte, observation byte, new step counter (R109). -/
def stepResponse (idx : BitVec 3) (fb1 out : Byte) : Word := (idx ++ fb1 ++ out).zeroExtend 32

/-- KEYW (R100). -/
def execKeyw (j : BitVec 3) (v : Byte) (s : State) : Outcome := .next ((s.writeKey j v).respond 0)

/-- SEED (R101). -/
def execSeed (s : State) : Outcome := .next (s.reseed.respond 0)

/-- STEP (R102): the keystream part, then the statistical test engine, then the response. -/
def execStep (v : Byte) (s : State) : Outcome :=
  let x := s.fb1
  let s1 := s.advance
  let out := v ^^^ s1.fb2
  let s2 := { s1 with LASTOUT := out, LASTOBS := x }
  .next ((s2.steAccumulate x).respond (stepResponse s1.IDX x out))

end Sys2Proof.Machine
end

