-- ==== Sys2Proof/Machine/Dispatch.lean ====
section
/-!
DEFINITION. What each command does when it takes effect: one arm per constructor of Instr.
-/

namespace Sys2Proof.Machine

def exec (i : Instr) (s : State) : Host.Outcome State Fault Refusal :=
  match i with
  | .nop => Sys2Proof.Machine.execNop s
  | .keyw j v => Sys2Proof.Machine.execKeyw j v s
  | .seed => Sys2Proof.Machine.execSeed s
  | .step v => Sys2Proof.Machine.execStep v s
  | .eval => Sys2Proof.Machine.execEval s
  | .rdreg a => Sys2Proof.Machine.execRdreg a s
  | .clrerr => Sys2Proof.Machine.execClrerr s

end Sys2Proof.Machine
end

