-- ==== Sys2Proof/Machine/Port.lean ====
section
/-!
DEFINITION. The command and response ports (spec/70_reset_and_hazards.md R220 to R228): what one rising edge of clk does,
given the pins at that edge.
-/

namespace Sys2Proof.Machine

/-- A command whose effect comes later than its acceptance: a valid EVAL with EVAL_CYCLES > 1 (R227). -/
def waits (i : Instr) (s : State) : Bool := decide (i = .eval) && decide (1 < (s.config.evalCycles : Nat))

/-- The block accepts the word `w` (R88, R227): an error is raised, a valid EVAL that takes several cycles makes the port
busy, every other command takes effect at once. -/
def accept (w : Word) (s : State) : Outcome :=
  match decode w with
  | .error e => .next (s.raise e)
  | .ok i =>
    if waits i s then .next { s with evalLeft := (s.config.evalCycles : Nat) - 1, rsp := none }
    else exec i s

/-- One rising edge of clk with the pins `p` (R220, R227, R228, R231): reset; or an EVAL in progress waits or takes
effect; or a presented word is accepted; or nothing happens. A response lasts the one cycle after its edge. -/
def edge (p : Pins) (s : State) : Outcome :=
  if p.rst then .next s.resetEdge
  else if s.evalLeft = 1 then exec .eval { s with evalLeft := 0 }
  else if s.evalLeft ≠ 0 then .next { s with evalLeft := s.evalLeft - 1, rsp := none }
  else if p.cmdValid then accept p.cmd s
  else .next { s with rsp := none }

/-- The pins at the next rising edge: what the host has lined up, idle when it has nothing (R231, log 10). -/
def State.nextPins (s : State) : Pins := s.pins.head?.getD Pins.idle

/-- The state with the next edge's pins taken from the front; whether it is a reset edge is kept for cmd_ready (R220). -/
def State.popPins (s : State) : State := { s with pins := s.pins.tail, afterReset := s.nextPins.rst }

end Sys2Proof.Machine
end

