-- ==== Sys2Proof/Machine/Step.lean ====
section
/-!
DEFINITION. One step of the machine: one rising edge of clk (spec/70_reset_and_hazards.md R225, R227), and how a word is
put on the command port for the next step.
-/

namespace Sys2Proof.Machine

/-- One rising edge of clk, with the pins the host drives at it. -/
def step (s : State) : Host.Outcome State Fault Refusal := edge s.nextPins s.popPins

/-- `s` with the command word `w` presented at the very next edge. The block fetches nothing (R75): a word comes from the
command port, so it goes to the front of what the host drives, with cmd_valid = 1 and rst = 0, and an EVAL in progress is
dropped because cmd_ready is 0 while it lasts (log 10). -/
def State.withFetchWord (s : State) (nbits w : Nat) : State :=
  { s with
    pins := { rst := false, cmdValid := true, cmd := BitVec.ofNat 32 (w % 2 ^ nbits) } :: s.pins
    evalLeft := 0 }

end Sys2Proof.Machine
end

