-- ==== Sys2Proof/WellFormed.lean ====
section
/-!
DEFINITION. Well-formed terms. A command (Instr) has operands of the exact widths of spec/30_encoding.md R86, so every
command is well formed. The terms a host writes are the assembler's (R91, R92), whose numbers are unbounded: a term is
well formed when each number fits its field.
-/

namespace Sys2Proof

/-- Every command is well formed: its operand types admit exactly the values of the encoding (R86), so no check is left. -/
def Instr.wf : Instr → Bool
  | .nop => true
  | .keyw _ _ => true
  | .seed => true
  | .step _ => true
  | .eval => true
  | .rdreg _ => true
  | .clrerr => true

/-- A line of the assembler: the seven commands of R91 and the three pseudo-commands of R92, with the numbers as
written. -/
inductive AsmLine where
  | nop
  | keyw (j v : Nat)
  | seed
  | step (v : Nat)
  | eval
  | rdreg (a : Nat)
  | clrerr
  /-- LDKEY k0, …, k7: loads an 8-byte key and seeds. -/
  | ldkey (key : List Nat)
  /-- XFER b0, …, bn−1: one STEP per byte. -/
  | xfer (bytes : List Nat)
  /-- RD64 SQSUM. -/
  | rd64Sqsum
  /-- RD64 STAT t. -/
  | rd64Stat (t : Nat)
deriving DecidableEq, Repr

/-- The numbers of a line fit their fields (R86, R91, R92). -/
def AsmLine.wf : AsmLine → Bool
  | .nop => true
  | .keyw j v => decide (j < 8) && decide (v < 256)
  | .seed => true
  | .step v => decide (v < 256)
  | .eval => true
  | .rdreg a => decide (a < 4096)
  | .clrerr => true
  | .ldkey key => decide (key.length = 8) && key.all (fun k => decide (k < 256))
  | .xfer bytes => bytes.all (fun b => decide (b < 256))
  | .rd64Sqsum => true
  | .rd64Stat t => decide (t < 8)

end Sys2Proof
end

