-- ==== Sys2Proof/Machine/Assembler.lean ====
section
/-!
DEFINITION. The spec's assembler (spec/30_encoding.md R91, R92): what a line stands for, and the reading of its text. It
is notation for the host's use; no step of the machine depends on it. The lexical points the rules leave open are in
log 17.
-/

namespace Sys2Proof.Machine

/-- The commands of a line (R91, R92); `none` for a line that is not well formed. -/
def AsmLine.expand (l : AsmLine) : Option (List Instr) :=
  if l.wf then
    some <| match l with
      | .nop => [.nop]
      | .keyw j v => [.keyw (BitVec.ofNat 3 j) (BitVec.ofNat 8 v)]
      | .seed => [.seed]
      | .step v => [.step (BitVec.ofNat 8 v)]
      | .eval => [.eval]
      | .rdreg a => [.rdreg (BitVec.ofNat 12 a)]
      | .clrerr => [.clrerr]
      | .ldkey key => (key.zipIdx.map fun p => .keyw (BitVec.ofNat 3 p.2) (BitVec.ofNat 8 p.1)) ++ [.seed]
      | .xfer bytes => bytes.map fun b => .step (BitVec.ofNat 8 b)
      | .rd64Sqsum => [.rdreg (BitVec.ofNat 12 RegName.sqsumLo.addr), .rdreg (BitVec.ofNat 12 RegName.sqsumHi.addr)]
      | .rd64Stat t => [.rdreg (BitVec.ofNat 12 (0x090 + 2 * t)), .rdreg (BitVec.ofNat 12 (0x091 + 2 * t))]
  else none

/-- The words of a line (R91). -/
def AsmLine.words (l : AsmLine) : Option (List Word) := (AsmLine.expand l).map (·.map encode)

/-- The value of a digit in base 16. -/
def digitOf (c : Char) : Option Nat :=
  let n := c.toNat
  if 48 ≤ n ∧ n ≤ 57 then some (n - 48)
  else if 65 ≤ n ∧ n ≤ 70 then some (n - 55)
  else if 97 ≤ n ∧ n ≤ 102 then some (n - 87)
  else none

/-- A non-empty row of digits in the given base, after the value `acc`. -/
def readDigits (base : Nat) : Option Nat → List Char → Option Nat
  | acc, [] => acc
  | acc, c :: cs =>
    match digitOf c with
    | some d => if d < base then readDigits base (some (acc.getD 0 * base + d)) cs else none
    | none => none

/-- A number: hexadecimal with 0x, else decimal (R91). -/
def readNumber : List Char → Option Nat
  | '0' :: 'x' :: cs => readDigits 16 none cs
  | cs => readDigits 10 none cs

/-- A blank of the assembler's text. -/
def isBlank (c : Char) : Bool := c == ' ' || c == '\t'

/-- The text without the blanks around it. -/
def trimBlanks (cs : List Char) : List Char := ((cs.dropWhile isBlank).reverse.dropWhile isBlank).reverse

/-- The parts of a text between commas; a text of blanks only has none. -/
def splitOperands (cs : List Char) : List (List Char) :=
  if (trimBlanks cs).isEmpty then []
  else cs.foldr (fun c parts => if c == ',' then [] :: parts else (c :: parts.headD []) :: parts.tail) [[]] |>.map trimBlanks

/-- The entry `i - first` of an array of `n` register words. -/
def indexed (i : Option Nat) (first n : Nat) (f : Fin n → RegName) : Option RegName :=
  match i with
  | some k => if h : first ≤ k ∧ k - first < n then some (f ⟨k - first, h.2⟩) else none
  | none => none

/-- A register name of R91: letters and underscores, then the index where the register has one. -/
def readRegName (cs : List Char) : Option RegName :=
  let word := cs.takeWhile (fun c => (digitOf c).isNone || c.isAlpha)
  let digits := cs.drop word.length
  let i := readDigits 10 none digits
  let plain (r : RegName) : Option RegName := if digits.isEmpty then some r else none
  match String.ofList word with
  | "S" => indexed i 0 8 .s
  | "IDX" => plain .idx
  | "LASTOUT" => plain .lastOut
  | "LASTOBS" => plain .lastObs
  | "STATUS" => plain .status
  | "N" => plain .n
  | "ONES" => plain .ones
  | "SQSUM_LO" => plain .sqsumLo
  | "SQSUM_HI" => plain .sqsumHi
  | "KEY" => indexed i 0 8 .key
  | "RUN" => indexed i 0 2 (fun k => if k = 1 then .run1 else .run0)
  | "BRUN" => indexed i 1 8 .brun
  | "GRUN" => indexed i 1 8 .grun
  | "ACP" => indexed i 0 4 .acp
  | "HIST" => indexed i 0 26 .hist
  | "VERDICT" => plain .verdict
  | "STAT_LO" => indexed i 0 8 .statLo
  | "STAT_HI" => indexed i 0 8 .statHi
  | "OCC" => indexed i 0 256 .occ
  | "UTAB" => indexed i 0 256 .utab
  | _ => none

/-- The operand of RDREG: a number or a register name (R91). -/
def readAddress (cs : List Char) : Option Nat :=
  match readNumber cs with
  | some a => some a
  | none => (readRegName cs).map RegName.addr

/-- A line of text without its comment: `some none` for an empty line, `none` for text that is no line (R91, R92).
DESIGN CHOICE (log 17): R92 does not say how the operand `STAT t` of RD64 is spelled; here it is STAT, blanks or none,
and t in decimal, without 0x. -/
def readLine (text : List Char) : Option (Option AsmLine) :=
  let code := trimBlanks (text.takeWhile (· != ';'))
  let mnemonic := code.takeWhile (fun c => !isBlank c)
  let operands := splitOperands (code.drop mnemonic.length)
  match String.ofList mnemonic, operands with
  | "", [] => some none
  | "NOP", [] => some (some .nop)
  | "SEED", [] => some (some .seed)
  | "EVAL", [] => some (some .eval)
  | "CLRERR", [] => some (some .clrerr)
  | "KEYW", [j, v] => (readNumber j).bind fun j => (readNumber v).map fun v => some (.keyw j v)
  | "STEP", [v] => (readNumber v).map fun v => some (.step v)
  | "RDREG", [a] => (readAddress a).map fun a => some (.rdreg a)
  | "LDKEY", ks => (ks.mapM readNumber).map fun ks => some (.ldkey ks)
  | "XFER", bs => (bs.mapM readNumber).map fun bs => some (.xfer bs)
  | "RD64", ['S' :: 'Q' :: 'S' :: 'U' :: 'M' :: []] => some (some .rd64Sqsum)
  | "RD64", ['S' :: 'T' :: 'A' :: 'T' :: t] => (readDigits 10 none (trimBlanks t)).map fun t => some (.rd64Stat t)
  | _, _ => none

/-- The words of one line of text: none for an empty line, no answer for text that is no well-formed line. -/
def assembleLine (text : String) : Option (List Word) :=
  match readLine text.toList with
  | some (some l) => AsmLine.words l
  | some none => some []
  | none => none

/-- The words of a program, one line of text each, in order. -/
def assemble (lines : List String) : Option (List Word) := (lines.mapM assembleLine).map List.flatten

end Sys2Proof.Machine
end

