-- ==== Sys2Proof/Safety.lean ====
section
/-!
DEFINITION. The terms claims about the machine are stated in: runs of commands, the observation sequence and what the
accumulators are of it (spec/41_accumulators.md R131, R132), the real-valued universal statistic (spec/42_evaluate.md R158),
who writes what, and the invariant of the reachable states. Nothing here is used by the machine.
-/

namespace Sys2Proof.Machine

/-! ### Runs -/

/-- The commands `is` taking effect one after another (R72). -/
def execAll : List Instr → State → Outcome
  | [], s => .next s
  | i :: is, s =>
    match exec i s with
    | .next t => execAll is t
    | .fault r => .fault r
    | .refused r => .refused r

/-- One STEP of every byte, in order: transform of a buffer (R92, XFER). -/
def xfer (bytes : List Byte) : State → Outcome := execAll (bytes.map .step)

/-- The output bytes that one STEP of every byte gives, from the response words (R109). -/
def outputs : List Byte → State → List Byte
  | [], _ => []
  | v :: vs, s =>
    match exec (.step v) s with
    | .next t => (t.rsp.elim 0 fun r => r.data.extractLsb' 0 8) :: outputs vs t
    | .fault _ => []
    | .refused _ => []

/-- The observation bytes that one STEP of every byte gives, from the response words (R109). -/
def observed : List Byte → State → List Byte
  | [], _ => []
  | v :: vs, s =>
    match exec (.step v) s with
    | .next t => (t.rsp.elim 0 fun r => r.data.extractLsb' 8 8) :: observed vs t
    | .fault _ => []
    | .refused _ => []

/-- `n` rising edges. -/
def edges : Nat → State → Outcome
  | 0, s => .next s
  | n + 1, s =>
    match step s with
    | .next t => edges n t
    | .fault r => .fault r
    | .refused r => .refused r

/-- A step that does not stop the machine. -/
def Safe (s : State) : Prop := ∃ t, step s = .next t

/-! ### What happens at the next edge -/

/-- The next edge is a reset edge. -/
def Resets (s : State) : Prop := s.nextPins.rst = true

/-- The next edge accepts the word `w` (R227: rst = 0, cmd_valid = 1, cmd_ready = 1). -/
def Accepts (s : State) (w : Word) : Prop :=
  s.nextPins.rst = false ∧ s.nextPins.cmdValid = true ∧ s.cmdReady s.nextPins.rst = true ∧ s.nextPins.cmd = w

/-- The command `i` takes effect at the next edge: accepted at it, or an EVAL accepted EVAL_CYCLES - 1 edges before
(R227). -/
def TakesEffect (s : State) (i : Instr) : Prop :=
  (∃ w, Accepts s w ∧ decode w = .ok i ∧ waits i s = false) ∨
    (i = .eval ∧ s.nextPins.rst = false ∧ s.evalLeft = 1)

/-- The next edge raises the command error `e` (R196): a word that does not decode, or an RDREG of an unmapped
address. -/
def Raises (s : State) (e : CmdError) : Prop :=
  ∃ w, Accepts s w ∧ (decode w = .error e ∨ e = .addr ∧ ∃ a, decode w = .ok (.rdreg a) ∧ regAt a.toNat = none)

/-! ### The observation sequence (R131, R132) -/

/-- The accumulators after the observation bytes `obs` since a SEED. -/
def accumulated (obs : List Byte) : Accumulators := obs.foldl Accumulators.accumulate Accumulators.clear

/-- The 1 bits of a sequence of bytes. -/
def onesOf (obs : List Byte) : Nat := (obs.map popcount).sum

/-- The greatest k < n with obs[k] = v, or 0 if there is none (R131). -/
def lastSeen (obs : List Byte) (v : Byte) : Nat → Nat
  | 0 => 0
  | n + 1 => if obs[n]? = some v then n else lastSeen obs v n

/-- The gap of position k: k minus the last position before it that holds the same byte, or k itself (R131). -/
def gapAt (obs : List Byte) (k : Nat) : Nat := k - lastSeen obs (obs.getD k 0) k

/-- USUM of a sequence (R131): the sum of log2 of the gaps of the positions Q ≤ k < N. -/
noncomputable def usumOf (obs : List Byte) : ℝ :=
  ((List.range' Config.univInit (obs.length - Config.univInit)).map fun k => Real.logb 2 (gapAt obs k)).sum

/-- The bit stream of a sequence (R11). -/
def bitStream (obs : List Byte) : List Bool := obs.flatMap bitsMsb

/-- A maximal run of `b` bits of length exactly `i` starts at position `p` and is not the last run of the stream (R132). -/
def closedRunAt (bits : List Bool) (b : Bool) (i p : Nat) : Bool :=
  decide (0 < i) && (List.range i).all (fun q => bits[p + q]? == some b) && bits[p + i]? == some (!b)
    && (p == 0 || bits[p - 1]? == some (!b))

/-- How many maximal runs of `b` bits have length exactly `i`, the last run of the stream left out (R132). -/
def closedRuns (bits : List Bool) (b : Bool) (i : Nat) : Nat :=
  (List.range bits.length).countP (closedRunAt bits b i)

/-- The length of the last run of the stream if it is of `b` bits, else 0 (R132). -/
def openRun (bits : List Bool) (b : Bool) : Nat := (bits.reverse.takeWhile (· == b)).length

/-! ### The universal statistic as a real number (R39, R158) -/

/-- USUM (R39). -/
noncomputable def Accumulators.USUM (a : Accumulators) : ℝ := Real.logb 2 ((a.USUMEXP : ℕ) : ℝ)

/-- C of R158: 0.7 - 0.8/L + ((4 + 32/L) * K^(-3/L)) / 15 with L = 8. -/
noncomputable def univC (K : Nat) : ℝ := 0.7 - 0.8 / 8 + ((4 + 32 / 8) * (K : ℝ) ^ (-(3 / 8) : ℝ)) / 15

/-- stat of R158. -/
noncomputable def univReal (usum : ℝ) (K : Nat) : ℝ := (usum / K - 7.1836656) / (univC K * Real.sqrt 3.238)

/-- UNIV_BAND (R9): the fraction, or the whole part and the binary digits after the point. -/
noncomputable def bandWidth : Band → ℝ
  | .fraction num den => (num : ℝ) / (den : ℕ)
  | .real whole => whole + Real.ofDigits Config.bandDigit

/-- The condition of R159 under which the universal verdict is a draw. -/
def InBand (b : Band) (stat : ℝ) : Prop := 0 < bandWidth b ∧ |(|stat| - 1.2816)| < bandWidth b

/-! ### The run-length FSM in numbers (R125) -/

/-- RUN1, RUN0 and the bins as numbers; entry i - 1 is the manual's BRUN[i] or GRUN[i]. -/
structure Runs where
  run1 : Nat
  run0 : Nat
  brun : Vector Nat 8
  grun : Vector Nat 8
deriving DecidableEq, Repr

/-- The bins after a run of length `r` ended: one more in the bin of length r, if there is one. -/
def addRun (bins : Vector Nat 8) (r : Nat) : Vector Nat 8 :=
  Vector.ofFn fun i : Fin 8 => bins[i] + if r = i.val + 1 then 1 else 0

/-- One bit through the FSM. -/
def Runs.bit (r : Runs) (b : Bool) : Runs :=
  if b then { r with grun := addRun r.grun r.run0, run0 := 0, run1 := min (r.run1 + 1) 9 }
  else { r with brun := addRun r.brun r.run1, run1 := 0, run0 := min (r.run0 + 1) 9 }

/-- The run registers of the block, as numbers. -/
def Accumulators.runs (a : Accumulators) : Runs :=
  { run1 := a.RUN1.toNat, run0 := a.RUN0.toNat, brun := a.BRUN.map BitVec.toNat, grun := a.GRUN.map BitVec.toNat }

/-! ### Reading and judging -/

/-- The 16-bit pattern of R107, second line, as a number: {0xFF, lo} if lo is negative, else {hi, lo}. -/
def packedNat (hi lo : Byte) : Nat := if 128 ≤ lo.toNat then 0xFF00 + lo.toNat else 256 * hi.toNat + lo.toNat

/-- RDREG of address `a` answers the word `w` (R191). -/
def Reads (s : State) (a w : Nat) : Prop :=
  ∃ t r, exec (.rdreg (BitVec.ofNat 12 a)) s = .next t ∧ t.rsp = some r ∧ r.err = false ∧ r.data.toNat = w

/-- The addresses no row of R62 maps. The rule's list in parentheses leaves out 0x034 to 0x03F, which no row maps
(log 19). -/
def unmapped (a : Nat) : Prop :=
  (0x01A ≤ a ∧ a ≤ 0x01F) ∨ (0x034 ≤ a ∧ a ≤ 0x03F) ∨ (0x05A ≤ a ∧ a ≤ 0x07F) ∨ (0x081 ≤ a ∧ a ≤ 0x08F)
    ∨ (0x0A0 ≤ a ∧ a ≤ 0x0FF) ∨ (0x300 ≤ a ∧ a ≤ 0xFFF)

/-- `N` bytes are too few for slot `k` to judge (R154 to R158, R160). -/
def tooShort (k : Fin 8) (N : Nat) : Prop :=
  (k.val ≤ 2 ∧ N = 0) ∨ (k = 3 ∧ N ≤ 10) ∨ (k = 4 ∧ N ≤ 15) ∨ (k = 5 ∧ N ≤ 20) ∨ (k = 6 ∧ N ≤ 25)
    ∨ (k = 7 ∧ N ≤ 2000)

/-! ### Frames -/

/-- The keystream engine's registers are unchanged (R20, R22, R24, R25). -/
def SameKeystream (s t : State) : Prop :=
  t.S = s.S ∧ t.IDX = s.IDX ∧ t.LASTOUT = s.LASTOUT ∧ t.LASTOBS = s.LASTOBS

/-- The accumulators and SAT are unchanged (R26, R30 to R39). -/
def SameTest (s t : State) : Prop := t.acc = s.acc ∧ t.SAT = s.SAT

/-- The results are unchanged (R26, R28, R29). -/
def SameResults (s t : State) : Prop := t.VERDICT = s.VERDICT ∧ t.STAT = s.STAT ∧ t.RESVALID = s.RESVALID

/-- The error record is unchanged (R27). -/
def SameErrors (s t : State) : Prop := t.ERR = s.ERR ∧ t.ERRCODE = s.ERRCODE

/-- The parameters, EVAL-busy, what the host drives and drove are unchanged. -/
def SamePort (s t : State) : Prop :=
  t.config = s.config ∧ t.evalLeft = s.evalLeft ∧ t.afterReset = s.afterReset ∧ t.pins = s.pins

/-- Every register and the port are unchanged; the response may differ. -/
def SameRegisters (s t : State) : Prop :=
  t.KEY = s.KEY ∧ SameKeystream s t ∧ SameTest s t ∧ SameResults s t ∧ SameErrors s t

/-! ### The invariant of the reachable states -/

/-- Σ over the bins of the lengths of the counted runs. -/
def runBits (bins : Vector (BitVec 26) 8) : Nat := ∑ i : Fin 8, (i.val + 1) * (bins[i]).toNat

/-- The number of counted runs. -/
def runCount (bins : Vector (BitVec 26) 8) : Nat := ∑ i : Fin 8, (bins[i]).toNat

/-- What holds of the accumulators after any sequence of at most OBS_MAX observation bytes (R34, R35, R131, R133, R134). -/
structure Accumulators.Inv (a : Accumulators) : Prop where
  ones_le : a.ONES.toNat ≤ 8 * a.N.toNat
  occ_sum : ∑ v : Fin 256, (a.OCC[v]).toNat = a.N.toNat
  sqsum_eq : a.SQSUM.toNat = ∑ v : Fin 256, (a.OCC[v]).toNat ^ 2
  run1_le : a.RUN1.toNat ≤ 9
  run0_le : a.RUN0.toNat ≤ 9
  one_run : a.RUN1 = 0 ∨ a.RUN0 = 0
  brun_count : 2 * runCount a.BRUN + (if a.RUN1 = 0 then 0 else 1) ≤ 8 * a.N.toNat
  grun_count : 2 * runCount a.GRUN + (if a.RUN0 = 0 then 0 else 1) ≤ 8 * a.N.toNat
  run_bits : runBits a.BRUN + runBits a.GRUN + a.RUN1.toNat + a.RUN0.toNat ≤ 8 * a.N.toNat
  acp_le : ∀ t : Fin 4, (a.ACP[t]).toNat ≤ 8 * (a.N.toNat - Config.tau t)
  utab_lt : ∀ v : Fin 256, a.UTAB[v] = 0 ∨ (a.UTAB[v]).toNat < a.N.toNat
  usum_le : (a.USUMEXP : ℕ) ≤ (2 ^ 24) ^ (a.N.toNat - Config.univInit)

/-- What holds of every state a run from reset reaches: the accumulators' invariant, the step counter is the count of
steps while nothing is saturated (R114), SAT is set only at OBS_MAX (R121), ERRCODE is 0 exactly while ERR is 0 and never
above 3 (R26), every slot of VERDICT holds 0 while RESVALID is 0 and one of 1 to 4 otherwise (R28, R160), a slot that is
neither PASS nor FAIL has STAT 0 (R162), and an EVAL in progress waits less than EVAL_CYCLES edges and has no response
(R227), and a reset edge leaves neither an EVAL in progress nor a response (R220, R222). -/
structure State.Inv (s : State) : Prop where
  acc : s.acc.Inv
  idx : s.SAT = false → s.IDX = -(s.acc.N.setWidth 3)
  sat : s.SAT = true → s.acc.N.toNat = Config.obsMax
  errcode_zero : s.ERR = false → s.ERRCODE = 0
  errcode_legal : s.ERR = true → 1 ≤ s.ERRCODE.toNat ∧ s.ERRCODE.toNat ≤ 3
  no_result : s.RESVALID = false → s.VERDICT = 0
  result : s.RESVALID = true → ∀ t : Fin 8, 1 ≤ (verdictSlot s.VERDICT t).toNat ∧ (verdictSlot s.VERDICT t).toNat ≤ 4
  stat_zero : ∀ t : Fin 8, verdictSlot s.VERDICT t ≠ 1 → verdictSlot s.VERDICT t ≠ 2 → s.STAT[t] = 0
  eval_left : s.evalLeft < (s.config.evalCycles : ℕ)
  eval_silent : s.evalLeft ≠ 0 → s.rsp = none
  after_reset : s.afterReset = true → s.evalLeft = 0 ∧ s.rsp = none

end Sys2Proof.Machine
end

