-- ==== Sys2Proof/Certificates/Slice0/Obligations.lean ====
section
/-!
DEFINITION. The statements about the model, from the numbered rules of spec/. OBLIGATIONS.json lists them in the order in
which they stand here. Clauses on `config`, `pins`, `draws` and SamePort say that the model's own fields (logs 1, 7 and 10)
stay; they are no rule of the spec.
-/

open Sys2Proof Sys2Proof.Machine

/-! ### Encoding -/

/-- Decoding the encoding of a command gives the command back, with every operand at every value (R81, R86). -/
def Obligations.DecodeOfEncode : Prop := ∀ i : Instr, i.wf = true → decode (encode i) = .ok i

/-- A word that decodes is the encoding of what it decodes to: each command has one word. -/
def Obligations.EncodeOfDecode : Prop := ∀ (w : Word) (i : Instr), decode w = .ok i → encode i = w

/-- R87, the match and mask columns of the opcode map: a word is the command of a row exactly when (w AND mask) = match,
with the operands at their bit positions, and an unassigned opcode is ERR_OPCODE. -/
def Obligations.CommandOfRowExactlyWhenMatch : Prop :=
  ∀ w : Word,
    (decode w = .ok .nop ↔ w &&& 0xFFFFFFFF#32 = 0x00000000#32)
    ∧ (∀ j v, decode w = .ok (.keyw j v) ↔
        w &&& 0xFFFFF800#32 = 0x01000000#32 ∧ j = w.extractLsb' 8 3 ∧ v = w.extractLsb' 0 8)
    ∧ (decode w = .ok .seed ↔ w &&& 0xFFFFFFFF#32 = 0x02000000#32)
    ∧ (∀ v, decode w = .ok (.step v) ↔ w &&& 0xFFFFFF00#32 = 0x03000000#32 ∧ v = w.extractLsb' 0 8)
    ∧ (decode w = .ok .eval ↔ w &&& 0xFFFFFFFF#32 = 0x04000000#32)
    ∧ (∀ a, decode w = .ok (.rdreg a) ↔ w &&& 0xFFFFF000#32 = 0x05000000#32 ∧ a = w.extractLsb' 0 12)
    ∧ (decode w = .ok .clrerr ↔ w &&& 0xFFFFFFFF#32 = 0x06000000#32)
    ∧ (decode w = .error .opcode ↔ 0x06 < (w >>> 24).toNat)

/-- R198 and R199: which words raise ERR_OPCODE and ERR_RSVD when they are accepted, whatever the state. -/
def Obligations.MalformedWordRaises : Prop :=
  ∀ (w : Word) (s : State),
    (0x07 ≤ (w >>> 24).toNat → accept w s = .next (s.raise .opcode))
    ∧ ((w >>> 24).toNat ∈ [0x00, 0x02, 0x04, 0x06] → w &&& 0x00FFFFFF#32 ≠ 0 → accept w s = .next (s.raise .rsvd))
    ∧ ((w >>> 24).toNat = 0x01 → w &&& 0x00FFF800#32 ≠ 0 → accept w s = .next (s.raise .rsvd))
    ∧ ((w >>> 24).toNat = 0x03 → w &&& 0x00FFFF00#32 ≠ 0 → accept w s = .next (s.raise .rsvd))
    ∧ ((w >>> 24).toNat = 0x05 → w &&& 0x00FFF000#32 ≠ 0 → accept w s = .next (s.raise .rsvd))

/-- Words written out from the encoding tables decode to what they stand for (spec/95_test_vectors.md L2.1). -/
def Obligations.SampleWordsDecode : Prop :=
  decode 0x00000000 = .ok .nop
  ∧ decode 0x01000736 = .ok (.keyw 7 0x36)
  ∧ decode 0x02000000 = .ok .seed
  ∧ decode 0x030000FF = .ok (.step 0xFF)
  ∧ decode 0x04000000 = .ok .eval
  ∧ decode 0x050002FF = .ok (.rdreg 0x2FF)
  ∧ decode 0x06000000 = .ok .clrerr
  ∧ decode 0x05FFFFFF = .error .rsvd
  ∧ decode 0x07000000 = .error .opcode

/-! ### Reset -/

/-- R221: at an edge with rst = 1 every register takes its reset value, KEY and S from KEY_RESET, whatever the state and
the other pins; the default of KEY_RESET is the reference key. An EVAL in progress and any response are gone. -/
def Obligations.ResetEdgeSetsEveryRegister : Prop :=
  Config.reference.keyReset = #v[0xC1, 0xD8, 0x79, 0x33, 0xDA, 0x59, 0x8C, 0x36]
  ∧ ∀ s : State, Resets s → ∃ t, step s = .next t
    ∧ t.KEY = s.config.keyReset ∧ t.S = s.config.keyReset ∧ t.IDX = 0 ∧ t.LASTOUT = 0 ∧ t.LASTOBS = 0
    ∧ t.ERR = false ∧ t.ERRCODE = 0 ∧ t.SAT = false ∧ t.RESVALID = false ∧ t.VERDICT = 0
    ∧ (∀ k : Fin 8, t.STAT[k] = 0)
    ∧ t.acc.N = 0 ∧ t.acc.ONES = 0 ∧ (∀ v : Fin 256, t.acc.OCC[v] = 0) ∧ t.acc.SQSUM = 0
    ∧ t.acc.RUN1 = 0 ∧ t.acc.RUN0 = 0 ∧ (∀ i : Fin 8, t.acc.BRUN[i] = 0 ∧ t.acc.GRUN[i] = 0)
    ∧ (∀ j : Fin 26, t.acc.HIST[j] = 0) ∧ (∀ k : Fin 4, t.acc.ACP[k] = 0)
    ∧ (∀ v : Fin 256, t.acc.UTAB[v] = 0) ∧ t.acc.USUM = 0
    ∧ t.evalBusy = false ∧ t.rsp = none ∧ t.config = s.config ∧ t.pins = s.pins.tail

/-- From every state, a reset edge of a block with the default parameters gives the state after reset, but for what the
host drives next and the model's own draw counter. The default EVAL_CYCLES is the model's choice (log 2). -/
def Obligations.ResetEdgeGivesResetState : Prop :=
  ∀ s : State, Resets s → s.config = Config.reference →
    ∃ t, step s = .next t ∧ { t with pins := [], draws := 0 } = State.reset

/-! ### The keystream engine -/

/-- R100: KEYW writes one key byte and nothing else, for every slot, byte and state; its word, and its one error. -/
def Obligations.KeywWritesOneKeyByte : Prop :=
  ∀ (j : BitVec 3) (v : Byte) (s : State),
    (encode (.keyw j v)).toNat = 0x01000000 + j.toNat * 2 ^ 8 + v.toNat
    ∧ (∀ w : Word, (w >>> 24).toNat = 1 → w.extractLsb' 11 13 ≠ 0 → accept w s = .next (s.raise .rsvd))
    ∧ ∃ t, exec (.keyw j v) s = .next t
      ∧ (∀ k : Fin 8, t.KEY[k] = if k.val = j.toNat then v else s.KEY[k])
      ∧ t.rsp = some ⟨0, false⟩
      ∧ SameKeystream s t ∧ SameTest s t ∧ SameResults s t ∧ SameErrors s t ∧ SamePort s t ∧ t.draws = s.draws

/-- R101: SEED copies KEY into S, sets IDX to 0 and clears the observation, the last bytes, SAT, RESVALID and the
results; KEY and the error record stay; SEED twice is SEED once. -/
def Obligations.SeedStartsFreshEngine : Prop :=
  ∀ s : State,
    encode .seed = 0x02000000#32
    ∧ (∀ w : Word, (w >>> 24).toNat = 2 → w.extractLsb' 0 24 ≠ 0 → accept w s = .next (s.raise .rsvd))
    ∧ ∃ t, exec .seed s = .next t
      ∧ (∀ k : Fin 8, t.S[k] = s.KEY[k]) ∧ t.IDX = 0
      ∧ t.acc.N = 0 ∧ t.acc.ONES = 0 ∧ (∀ v : Fin 256, t.acc.OCC[v] = 0) ∧ t.acc.SQSUM = 0
      ∧ t.acc.RUN1 = 0 ∧ t.acc.RUN0 = 0 ∧ (∀ i : Fin 8, t.acc.BRUN[i] = 0 ∧ t.acc.GRUN[i] = 0)
      ∧ (∀ j : Fin 26, t.acc.HIST[j] = 0) ∧ (∀ k : Fin 4, t.acc.ACP[k] = 0)
      ∧ (∀ v : Fin 256, t.acc.UTAB[v] = 0) ∧ t.acc.USUM = 0
      ∧ t.LASTOUT = 0 ∧ t.LASTOBS = 0 ∧ t.SAT = false ∧ t.RESVALID = false ∧ t.VERDICT = 0
      ∧ (∀ k : Fin 8, t.STAT[k] = 0)
      ∧ t.rsp = some ⟨0, false⟩
      ∧ t.KEY = s.KEY ∧ SameErrors s t ∧ SamePort s t ∧ t.draws = s.draws
      ∧ exec .seed t = .next t

/-- R105 and R106: a STEP moves the step counter from i to (i + 7) mod 8 and writes the observation byte to the slot the
new counter names, and to no other slot of S. -/
def Obligations.StepMovesCounterAndWritesOneSlot : Prop :=
  ∀ (v : Byte) (s : State), ∃ t, exec (.step v) s = .next t
    ∧ t.IDX.toNat = (s.IDX.toNat + 7) % 8
    ∧ ∀ k : Fin 8, t.S[k] = if k.val = t.IDX.toNat then t.LASTOBS else s.S[k]

/-- R104 and R110: the observation byte of a STEP in bit form. Only the sign of b matters, and the mask on the c term
changes no bit. -/
def Obligations.ObservationByteBitForm : Prop :=
  (∀ a b c : Byte, (sext8 a ^^^ (sext8 b).sshiftRight 1 ^^^ (sext8 c <<< 1)).setWidth 8 = feedback1 a b c)
  ∧ ∀ (v : Byte) (s : State), ∃ t, exec (.step v) s = .next t
    ∧ ∀ k < 8, t.LASTOBS.getLsbD k =
        ((s.S[slot s.IDX 0]).getLsbD k
          ^^ (s.S[slot s.IDX 1]).getLsbD (min (k + 1) 7)
          ^^ (decide (0 < k) && (s.S[slot s.IDX 7]).getLsbD (k - 1)))

/-- R108: the exact product of the two signed 16-bit words lies in [−2^30 + 2^15, 2^30], and the keystream byte is its
bits 15:8. -/
def Obligations.KeystreamByteOfExactProduct : Prop :=
  ∀ A B : BitVec 16,
    -2 ^ 30 + 2 ^ 15 ≤ A.toInt * B.toInt ∧ A.toInt * B.toInt ≤ 2 ^ 30
    ∧ feedback2 A B = BitVec.ofInt 8 (A.toInt * B.toInt / 256)
    ∧ feedback2 A B = (BitVec.ofInt 32 (A.toInt * B.toInt)).extractLsb' 8 8

/-- R107 and R111: the output byte of a STEP. Each 16-bit word is {0xFF, lo} when lo is negative and {hi, lo} otherwise,
the high byte at the lower offset, all read after the slot is written; the keystream byte is bits 15:8 of the unsigned
16-bit product. -/
def Obligations.OutputByteUnsignedForm : Prop :=
  ∀ (v : Byte) (s : State), ∃ t, exec (.step v) s = .next t
    ∧ ∀ A B : BitVec 16,
      A.toNat = packedNat (t.S[slot t.IDX 0]) (t.S[slot t.IDX 2]) →
      B.toNat = packedNat (t.S[slot t.IDX 4]) (t.S[slot t.IDX 7]) →
      t.LASTOUT = v ^^^ BitVec.ofNat 8 ((A.toNat * B.toNat) % 2 ^ 16 / 2 ^ 8)

/-- R109: a STEP latches the observation byte (R104, of the slots of R103) and its input XOR the keystream byte (R108, of
the words of R107), and responds with both and the new step counter, with the error bit 0. -/
def Obligations.StepResponseFields : Prop :=
  ∀ (v : Byte) (s : State), ∃ t r, exec (.step v) s = .next t ∧ t.rsp = some r ∧ r.err = false
    ∧ t.LASTOBS = feedback1 (s.S[slot s.IDX 0]) (s.S[slot s.IDX 1]) (s.S[slot s.IDX 7])
    ∧ t.LASTOUT = v ^^^ feedback2 (pack (t.S[slot t.IDX 0]) (t.S[slot t.IDX 2]))
        (pack (t.S[slot t.IDX 4]) (t.S[slot t.IDX 7]))
    ∧ r.data.extractLsb' 0 8 = t.LASTOUT ∧ r.data.extractLsb' 8 8 = t.LASTOBS
    ∧ r.data.extractLsb' 16 3 = t.IDX ∧ r.data.extractLsb' 19 13 = 0

/-- The frame of STEP: KEY, the error record, the results and the port stay; the accumulators and SAT are touched only
as R120 and R121 say. -/
def Obligations.StepFrame : Prop :=
  ∀ (v : Byte) (s t : State), exec (.step v) s = .next t →
    t.KEY = s.KEY ∧ SameErrors s t ∧ SameResults s t ∧ SamePort s t ∧ t.draws = s.draws
    ∧ (s.acc.N.toNat = Config.obsMax → t.acc = s.acc ∧ t.SAT = true)
    ∧ (s.acc.N.toNat ≠ Config.obsMax → t.acc = s.acc.accumulate t.LASTOBS ∧ t.SAT = s.SAT)

/-- R112: the state evolution never depends on the input bytes, and the cipher is its own inverse: from two fresh engines
with one key, the outputs of a buffer's outputs are the buffer. -/
def Obligations.KeystreamIndependentOfDataAndVernam : Prop :=
  (∀ (vs vs' : List Byte) (s s' : State), vs.length = vs'.length → s.S = s'.S → s.IDX = s'.IDX →
    ∃ t t', xfer vs s = .next t ∧ xfer vs' s' = .next t' ∧ t.S = t'.S ∧ t.IDX = t'.IDX
      ∧ observed vs s = observed vs' s'
      ∧ List.zipWith (· ^^^ ·) vs (outputs vs s) = List.zipWith (· ^^^ ·) vs' (outputs vs' s'))
  ∧ ∀ (bytes : List Byte) (s s' : State), s.KEY = s'.KEY →
    ∃ t t', exec .seed s = .next t ∧ exec .seed s' = .next t' ∧ outputs (outputs bytes t) t' = bytes

/-- R114: the step counter after n STEPs since a SEED is (8 − n mod 8) mod 8 and names the slot the n-th STEP wrote, and
any eight STEPs rewrite every slot of S exactly once. -/
def Obligations.StepCounterCountsSteps : Prop :=
  (∀ (vs : List Byte) (s t : State), exec .seed s = .next t →
    ∃ u, xfer vs t = .next u ∧ u.IDX.toNat = (8 - vs.length % 8) % 8
      ∧ ∀ x, (observed vs t).getLast? = some x → u.S[slot u.IDX 0] = x)
  ∧ ∀ (vs : List Byte) (s : State), vs.length = 8 →
    Function.Bijective (fun k : Fin 8 => slot s.IDX (7 * (k.val + 1)))
    ∧ ∃ u, xfer vs s = .next u ∧ ∀ k : Fin 8, (observed vs s)[k.val]? = some u.S[slot s.IDX (7 * (k.val + 1))]

/-- R115: the all-zero state is a fixed point, whatever IDX and the input are. -/
def Obligations.ZeroStateFixedPoint : Prop :=
  ∀ (v : Byte) (s : State), (∀ k : Fin 8, s.S[k] = 0) →
    ∃ t, exec (.step v) s = .next t ∧ (∀ k : Fin 8, t.S[k] = 0) ∧ t.LASTOBS = 0 ∧ t.LASTOUT = v
      ∧ pack (t.S[slot t.IDX 0]) (t.S[slot t.IDX 2]) = 0 ∧ pack (t.S[slot t.IDX 4]) (t.S[slot t.IDX 7]) = 0

/-! ### The accumulators -/

/-- R131: after a SEED and at most OBS_MAX STEPs the accumulators are the source's functions of the observation sequence,
which is what the responses carried. -/
def Obligations.AccumulatorsEqualSequence : Prop :=
  ∀ (vs : List Byte) (s t u : State), exec .seed s = .next t → xfer vs t = .next u → vs.length ≤ Config.obsMax →
    ∀ obs : List Byte, obs = observed vs t →
      u.SAT = false ∧ u.acc.N.toNat = obs.length ∧ obs.length = vs.length
      ∧ u.acc.ONES.toNat = onesOf obs
      ∧ (∀ v : Fin 256, (u.acc.OCC[v]).toNat = obs.count (BitVec.ofFin v))
      ∧ u.acc.SQSUM.toNat = ∑ v : Fin 256, obs.count (BitVec.ofFin v) ^ 2
      ∧ (∀ j : Fin 26, u.acc.HIST[j] = if j.val < obs.length then obs.getD (obs.length - 1 - j.val) 0 else 0)
      ∧ (∀ k : Fin 4, (u.acc.ACP[k]).toNat = onesOf (obs.take (obs.length - Config.tau k)))
      ∧ (∀ v : Fin 256, (u.acc.UTAB[v]).toNat = lastSeen obs (BitVec.ofFin v) obs.length)
      ∧ u.acc.USUM = usumOf obs

/-- R132: after a SEED and at most OBS_MAX STEPs, BRUN and GRUN count the maximal runs of the bit stream by exact length,
the last run left out, and RUN1 and RUN0 hold the last run, clamped at 9. -/
def Obligations.RunCountersEqualMaximalRuns : Prop :=
  ∀ (vs : List Byte) (s t u : State), exec .seed s = .next t → xfer vs t = .next u → vs.length ≤ Config.obsMax →
    ∀ bits : List Bool, bits = bitStream (observed vs t) →
      (∀ i : Fin 8, (u.acc.BRUN[i]).toNat = closedRuns bits true (i.val + 1)
        ∧ (u.acc.GRUN[i]).toNat = closedRuns bits false (i.val + 1))
      ∧ u.acc.RUN1.toNat = min (openRun bits true) 9
      ∧ u.acc.RUN0.toNat = min (openRun bits false) 9

/-- R121: a STEP at N = OBS_MAX changes no register of the test engine but SAT, works the keystream as usual and answers
its bytes; from then on every EVAL gives OVERFLOW in every slot until a SEED or a reset. -/
def Obligations.SaturationChangesOnlySat : Prop :=
  (∀ (v : Byte) (s s' : State), s.acc.N.toNat = Config.obsMax → s'.S = s.S → s'.IDX = s.IDX →
    ∃ t t', exec (.step v) s = .next t ∧ exec (.step v) s' = .next t'
      ∧ t.acc = s.acc ∧ SameResults s t ∧ t.SAT = true
      ∧ t.S = t'.S ∧ t.IDX = t'.IDX ∧ t.LASTOUT = t'.LASTOUT ∧ t.LASTOBS = t'.LASTOBS ∧ t.rsp = t'.rsp)
  ∧ (∀ s t : State, s.SAT = true → step s = .next t → Resets s ∨ TakesEffect s .seed ∨ t.SAT = true)
  ∧ ∀ s t : State, s.SAT = true → exec .eval s = .next t → ∀ k : Fin 8, verdictSlot t.VERDICT k = 4

/-- R122 to R130: what a STEP with room left adds to each accumulator, in exact integers and reals, in every state that
keeps the invariant; the run registers go through the FSM of R125 with the eight bits, most significant first. -/
def Obligations.StepAccumulatesExactly : Prop :=
  ∀ (v : Byte) (s : State), s.acc.Inv → s.acc.N.toNat < Config.obsMax →
    ∃ t, exec (.step v) s = .next t ∧ ∀ x : Byte, x = t.LASTOBS → ∀ k : Nat, k = s.acc.N.toNat →
      t.acc.N.toNat = k + 1
      ∧ t.acc.ONES.toNat = s.acc.ONES.toNat + popcount x
      ∧ t.acc.SQSUM.toNat = s.acc.SQSUM.toNat + 2 * (s.acc.OCC[x.toFin]).toNat + 1
      ∧ t.acc.SQSUM.toNat = ∑ w : Fin 256, (t.acc.OCC[w]).toNat ^ 2
      ∧ (∀ w : Fin 256, (t.acc.OCC[w]).toNat = (s.acc.OCC[w]).toNat + if w = x.toFin then 1 else 0)
      ∧ t.acc.runs = [7, 6, 5, 4, 3, 2, 1, 0].foldl (fun r j => r.bit (x.getLsbD j)) s.acc.runs
      ∧ (∀ j : Fin 26, t.acc.HIST[j] = if j.val = 0 then x else s.acc.HIST[j.val - 1])
      ∧ (∀ l : Fin 4, (t.acc.ACP[l]).toNat =
          (s.acc.ACP[l]).toNat + if Config.tau l ≤ k then popcount (t.acc.HIST.toList.getD (Config.tau l) 0) else 0)
      ∧ (∀ w : Fin 256, (t.acc.UTAB[w]).toNat = if w = x.toFin then k else (s.acc.UTAB[w]).toNat)
      ∧ (k < 2000 → t.acc.USUM = s.acc.USUM)
      ∧ (2000 ≤ k → (s.acc.UTAB[x.toFin]).toNat < k
          ∧ t.acc.USUM = s.acc.USUM + Real.logb 2 ((k : ℝ) - (s.acc.UTAB[x.toFin]).toNat))

/-- R134: no accumulator exceeds the bound the rule gives it, in a state that keeps the invariant. -/
def Obligations.AccumulatorsFitTheirWidths : Prop :=
  ∀ a : Accumulators, a.Inv →
    a.ONES.toNat ≤ 8 * a.N.toNat
    ∧ (∀ l : Fin 4, (a.ACP[l]).toNat ≤ 8 * a.N.toNat)
    ∧ (∀ v : Fin 256, (a.OCC[v]).toNat ≤ a.N.toNat)
    ∧ a.SQSUM.toNat ≤ a.N.toNat ^ 2
    ∧ (∀ i : Fin 8, (a.BRUN[i]).toNat ≤ 4 * a.N.toNat ∧ (a.GRUN[i]).toNat ≤ 4 * a.N.toNat)
    ∧ (0 < a.N.toNat → ∀ v : Fin 256, (a.UTAB[v]).toNat < a.N.toNat)

/-! ### EVAL -/

/-- R151: EVAL answers in every state, writes VERDICT, STAT and RESVALID and the response, and changes nothing else. The
draw counter is the model's own (log 7). -/
def Obligations.EvalWritesOnlyResults : Prop :=
  ∀ s : State, ∃ t, exec .eval s = .next t
    ∧ t.RESVALID = true ∧ t.rsp = some ⟨t.VERDICT, false⟩
    ∧ (∀ k : Fin 8, 1 ≤ (verdictSlot t.VERDICT k).toNat ∧ (verdictSlot t.VERDICT k).toNat ≤ 4)
    ∧ t.KEY = s.KEY ∧ SameKeystream s t ∧ SameTest s t ∧ SameErrors s t ∧ SamePort s t

/-- R153: with SAT = 1 every slot is OVERFLOW and has no statistic. -/
def Obligations.EvalAfterSaturationOverflows : Prop :=
  ∀ s : State, s.SAT = true → ∃ t, exec .eval s = .next t ∧ t.VERDICT = 0x44444444#32 ∧ ∀ k : Fin 8, t.STAT[k] = 0

/-- R160: a slot is INSUFFICIENT exactly when the sequence is too short for its test, OVERFLOW exactly after saturation,
and PASS or FAIL otherwise. -/
def Obligations.InsufficientExactlyWhenTooShort : Prop :=
  ∀ s t : State, exec .eval s = .next t → ∀ k : Fin 8,
    (verdictSlot t.VERDICT k = 4 ↔ s.SAT = true)
    ∧ (verdictSlot t.VERDICT k = 3 ↔ s.SAT = false ∧ tooShort k s.acc.N.toNat)
    ∧ (verdictSlot t.VERDICT k = 1 ∨ verdictSlot t.VERDICT k = 2 ↔ s.SAT = false ∧ ¬ tooShort k s.acc.N.toNat)

/-- R163: slots 0 to 6 pass exactly when an integer comparison holds. -/
def Obligations.SlotsZeroToSixByIntegerComparison : Prop :=
  ∀ s t : State, exec .eval s = .next t → s.SAT = false → ∀ N : ℤ, N = s.acc.N.toNat →
    ∀ (m p : Fin 8 → ℤ) (D : ℤ), (∀ i, m i = 8 * N - (i.val + 1) + 3) → (∀ i, p i = 2 ^ (i.val + 3)) →
      D = ∏ i, p i * m i →
      (N ≠ 0 → (verdictSlot t.VERDICT 0 = 1 ↔
        10000 * (8 * N - 2 * s.acc.ONES.toNat) ^ 2 ≤ 27055 * (8 * N)))
      ∧ (N ≠ 0 → (verdictSlot t.VERDICT 1 = 1 ↔
        10000 * (256 * s.acc.SQSUM.toNat - N ^ 2) ≤ 2843359 * N))
      ∧ (N ≠ 0 → (verdictSlot t.VERDICT 2 = 1 ↔
        10000 * (∑ i : Fin 8, ((p i * (s.acc.BRUN[i]).toNat - m i) ^ 2 + (p i * (s.acc.GRUN[i]).toNat - m i) ^ 2)
          * (D / (p i * m i))) ≤ 210641 * D))
      ∧ ∀ l : Fin 4, N > Config.tau l → (verdictSlot t.VERDICT ⟨l.val + 3, by omega⟩ = 1 ↔
        (8 * (N - Config.tau l) - 2 * (s.acc.ACP[l]).toNat) ^ 2 ≤ 3 * (8 * (N - Config.tau l)))

/-- R162: a slot that is neither PASS nor FAIL reads 0; slots 0 to 6 read the floor of 2^24 times their exact statistic
(R154 to R157); slot 7 reads an integer at distance below 1 from 2^24 times its exact real statistic, and that number
itself where it is an integer. For states that keep the invariant, in which every readout fits 64 bits. -/
def Obligations.ReadoutsAreFixedPoint : Prop :=
  ∀ s t : State, s.acc.Inv → exec .eval s = .next t →
    (∀ k : Fin 8, verdictSlot t.VERDICT k ≠ 1 → verdictSlot t.VERDICT k ≠ 2 → t.STAT[k] = 0)
    ∧ ∀ N : ℚ, N = s.acc.N.toNat → s.SAT = false → N ≠ 0 →
      (t.STAT[(0 : Fin 8)]).toInt = ⌊2 ^ 24 * ((8 * N - s.acc.ONES.toNat - s.acc.ONES.toNat) ^ 2 / (8 * N))⌋
      ∧ (t.STAT[(1 : Fin 8)]).toInt = ⌊2 ^ 24 * ((256 / N) * s.acc.SQSUM.toNat - N)⌋
      ∧ (∀ e : Fin 8 → ℚ, (∀ i, e i = (8 * N - (i.val + 1) + 3) / 2 ^ (i.val + 3)) →
          (t.STAT[(2 : Fin 8)]).toInt =
            ⌊2 ^ 24 * (∑ i : Fin 8, ((s.acc.BRUN[i]).toNat - e i) ^ 2 / e i
              + ∑ i : Fin 8, ((s.acc.GRUN[i]).toNat - e i) ^ 2 / e i)⌋)
      ∧ (∀ l : Fin 4, ∀ bits ones : ℚ, bits = 8 * (N - Config.tau l) → ones = (s.acc.ACP[l]).toNat →
          N > Config.tau l →
          (t.STAT[(⟨l.val + 3, by omega⟩ : Fin 8)]).toInt = ⌊2 ^ 24 * ((bits - ones - ones) ^ 2 / bits)⌋)
      ∧ (N > 2000 → ∀ x : ℝ, x = 2 ^ 24 * univReal s.acc.USUM (s.acc.N.toNat - 2000) →
          |((t.STAT[(7 : Fin 8)]).toInt : ℝ) - x| < 1
          ∧ ∀ m : ℤ, x = m → (t.STAT[(7 : Fin 8)]).toInt = m)

/-- R164: the ranges of the statistics, in every state that keeps the invariant. -/
def Obligations.StatisticRanges : Prop :=
  ∀ a : Accumulators, a.Inv → 0 < a.N.toNat →
    (0 ≤ balanceStat (8 * a.N.toNat) a.ONES.toNat ∧ balanceStat (8 * a.N.toNat) a.ONES.toNat ≤ 8 * a.N.toNat)
    ∧ (0 ≤ serialStat a.N.toNat a.SQSUM.toNat ∧ serialStat a.N.toNat a.SQSUM.toNat ≤ 255 * a.N.toNat)
    ∧ (0 ≤ runsSum (8 * a.N.toNat) a.BRUN + runsSum (8 * a.N.toNat) a.GRUN
        ∧ runsSum (8 * a.N.toNat) a.BRUN + runsSum (8 * a.N.toNat) a.GRUN < 2 ^ 35)
    ∧ (∀ l : Fin 4, Config.tau l < a.N.toNat →
        0 ≤ balanceStat (8 * (a.N.toNat - Config.tau l)) (a.ACP[l]).toNat
        ∧ balanceStat (8 * (a.N.toNat - Config.tau l)) (a.ACP[l]).toNat ≤ 8 * (a.N.toNat - Config.tau l : ℕ))
    ∧ (2000 < a.N.toNat → |univReal a.USUM (a.N.toNat - 2000)| < 16)

/-- R158, R159: in the guard band the universal verdict is PASS or FAIL; everywhere else, and so everywhere with the
reference UNIV_BAND = 0, it is PASS exactly when the exact real statistic lies in the closed interval [-1.2816, 1.2816],
and FAIL exactly when it does not. -/
def Obligations.UniversalVerdictIsExact : Prop :=
  ∀ s t : State, exec .eval s = .next t → s.SAT = false → 2000 < s.acc.N.toNat →
    ∀ x : ℝ, x = univReal s.acc.USUM (s.acc.N.toNat - 2000) →
      (InBand s.config.univBand x → verdictSlot t.VERDICT 7 = 1 ∨ verdictSlot t.VERDICT 7 = 2)
      ∧ (¬ InBand s.config.univBand x →
          (verdictSlot t.VERDICT 7 = 1 ↔ -1.2816 ≤ x ∧ x ≤ 1.2816)
          ∧ (verdictSlot t.VERDICT 7 = 2 ↔ ¬ (-1.2816 ≤ x ∧ x ≤ 1.2816)))

/-- R165: an all-zero or all-one observation sequence of N ≥ 1 bytes has frequency statistic 8N and fails the test. -/
def Obligations.ConstantSequenceFailsFrequency : Prop :=
  ∀ (obs : List Byte) (b : Byte), b = 0x00 ∨ b = 0xFF → obs ≠ [] → obs.length ≤ Config.obsMax → (∀ x ∈ obs, x = b) →
    balanceStat (8 * obs.length) (accumulated obs).ONES.toNat = 8 * obs.length
    ∧ (frequencyTest (accumulated obs)).verdict = .fail

/-- R150: two EVALs with no STEP between give the same VERDICT except where a universal draw may differ, which is with
more than 2000 bytes, no saturation and a statistic in the guard band; and then slots 0 to 6 still agree. The statistics
of slots 0 to 6 agree always. -/
def Obligations.RepeatedEvalAgrees : Prop :=
  ∀ s t u : State, exec .eval s = .next t → exec .eval t = .next u →
    (∀ k : Fin 8, k ≠ 7 → verdictSlot u.VERDICT k = verdictSlot t.VERDICT k ∧ u.STAT[k] = t.STAT[k])
    ∧ (u.VERDICT = t.VERDICT ∨ s.SAT = false ∧ 2000 < s.acc.N.toNat
        ∧ InBand s.config.univBand (univReal s.acc.USUM (s.acc.N.toNat - 2000)))

/-! ### The host's commands -/

/-- R190: NOP is the all-zero word, answers 0 and changes no register; with a reserved bit set it is ERR_RSVD. -/
def Obligations.NopChangesNothing : Prop :=
  ∀ s : State,
    encode .nop = 0x00000000#32
    ∧ (∀ w : Word, (w >>> 24).toNat = 0 → w.extractLsb' 0 24 ≠ 0 → accept w s = .next (s.raise .rsvd))
    ∧ ∃ t, exec .nop s = .next t ∧ t.rsp = some ⟨0, false⟩
      ∧ SameRegisters s t ∧ SamePort s t ∧ t.draws = s.draws

/-- R62, R64, R65: what RDREG answers at every mapped address, row by row of the register read map: a narrow register
zero-extended, a wide one split with its low word at the lower address. -/
def Obligations.RegisterReadMap : Prop :=
  ∀ s : State,
    (∀ i : Fin 8, Reads s (0x000 + i.val) (s.S[i]).toNat)
    ∧ Reads s 0x008 s.IDX.toNat ∧ Reads s 0x009 s.LASTOUT.toNat ∧ Reads s 0x00A s.LASTOBS.toNat
    ∧ Reads s 0x00B ((if s.ERR then 1 else 0) + 2 * s.ERRCODE.toNat + (if s.SAT then 16 else 0)
        + if s.RESVALID then 32 else 0)
    ∧ Reads s 0x00C s.acc.N.toNat ∧ Reads s 0x00D s.acc.ONES.toNat
    ∧ Reads s 0x00E (s.acc.SQSUM.toNat % 2 ^ 32) ∧ Reads s 0x00F (s.acc.SQSUM.toNat / 2 ^ 32)
    ∧ (∀ j : Fin 8, Reads s (0x010 + j.val) (s.KEY[j]).toNat)
    ∧ Reads s 0x018 s.acc.RUN1.toNat ∧ Reads s 0x019 s.acc.RUN0.toNat
    ∧ (∀ i : Fin 8, Reads s (0x020 + i.val) (s.acc.BRUN[i]).toNat ∧ Reads s (0x028 + i.val) (s.acc.GRUN[i]).toNat)
    ∧ (∀ l : Fin 4, Reads s (0x030 + l.val) (s.acc.ACP[l]).toNat)
    ∧ (∀ j : Fin 26, Reads s (0x040 + j.val) (s.acc.HIST[j]).toNat)
    ∧ Reads s 0x080 s.VERDICT.toNat
    ∧ (∀ k : Fin 8, Reads s (0x090 + 2 * k.val) ((s.STAT[k]).toNat % 2 ^ 32)
        ∧ Reads s (0x091 + 2 * k.val) ((s.STAT[k]).toNat / 2 ^ 32))
    ∧ ∀ v : Fin 256, Reads s (0x100 + v.val) (s.acc.OCC[v]).toNat ∧ Reads s (0x200 + v.val) (s.acc.UTAB[v]).toNat

/-- R63, R70, R191, R200: RDREG answers a word at every mapped address and raises ERR_ADDR at every other; at a mapped
one it changes no register. -/
def Obligations.RdregAnswersOrRaises : Prop :=
  ∀ (a : BitVec 12) (s : State),
    (unmapped a.toNat → exec (.rdreg a) s = .next (s.raise .addr))
    ∧ (¬ unmapped a.toNat → ∃ t r, exec (.rdreg a) s = .next t ∧ t.rsp = some r ∧ r.err = false
        ∧ SameRegisters s t ∧ SamePort s t ∧ t.draws = s.draws)
    ∧ (encode (.rdreg a)).toNat = 0x05000000 + a.toNat
    ∧ ∀ w : Word, (w >>> 24).toNat = 5 → w.extractLsb' 12 12 ≠ 0 → accept w s = .next (s.raise .rsvd)

/-- R192: CLRERR clears ERR and ERRCODE and changes no other register; malformed, it records an error and clears
nothing. -/
def Obligations.ClrerrClearsErrorRecord : Prop :=
  ∀ s : State,
    encode .clrerr = 0x06000000#32
    ∧ (∀ w : Word, (w >>> 24).toNat = 6 → w.extractLsb' 0 24 ≠ 0 → ∃ t, accept w s = .next t ∧ t.ERR = true)
    ∧ ∃ t, exec .clrerr s = .next t ∧ t.ERR = false ∧ t.ERRCODE = 0 ∧ t.rsp = some ⟨0, false⟩
      ∧ t.KEY = s.KEY ∧ SameKeystream s t ∧ SameTest s t ∧ SameResults s t ∧ SamePort s t ∧ t.draws = s.draws

/-- R92: LDKEY is eight KEYWs and a SEED and loads the key register and the engine; XFER is one STEP per byte; RD64 reads
the low word and the high word. -/
def Obligations.PseudoCommandsExpand : Prop :=
  (∀ key : Vector Byte 8, ∀ is : List Instr,
    is = ((List.finRange 8).map fun j => .keyw (BitVec.ofNat 3 j) (key[j])) ++ [.seed] →
    AsmLine.expand (.ldkey (key.toList.map BitVec.toNat)) = some is
    ∧ ∀ s : State, ∃ t, execAll is s = .next t ∧ t.KEY = key ∧ t.S = key ∧ t.IDX = 0 ∧ t.acc.N = 0)
  ∧ (∀ bytes : List Byte, AsmLine.expand (.xfer (bytes.map BitVec.toNat)) = some (bytes.map .step))
  ∧ AsmLine.expand .rd64Sqsum = some [.rdreg 0x00E, .rdreg 0x00F]
  ∧ ∀ t < 8, AsmLine.expand (.rd64Stat t) =
      some [.rdreg (BitVec.ofNat 12 (0x090 + 2 * t)), .rdreg (BitVec.ofNat 12 (0x091 + 2 * t))]

/-! ### Command errors -/

/-- R196: a command error changes nothing but ERR and ERRCODE, keeps the first code, and answers the code with the error
bit 1; and whatever the error record holds, the next command has the same effect on everything else. -/
def Obligations.CommandErrorIsPrecise : Prop :=
  (∀ (s : State) (e : CmdError), Raises s e → ∃ t, step s = .next t
    ∧ t.ERR = true ∧ (s.ERR = false → t.ERRCODE = e.code) ∧ (s.ERR = true → t.ERRCODE = s.ERRCODE)
    ∧ t.rsp = some ⟨e.code.zeroExtend 32, true⟩
    ∧ t.KEY = s.KEY ∧ SameKeystream s t ∧ SameTest s t ∧ SameResults s t
    ∧ t.config = s.config ∧ t.evalLeft = s.evalLeft ∧ t.pins = s.pins.tail ∧ t.draws = s.draws)
  ∧ ∀ (i : Instr) (s s' t : State), s' = { s with ERR := s'.ERR, ERRCODE := s'.ERRCODE } → exec i s = .next t →
    ∃ t', exec i s' = .next t' ∧ t'.KEY = t.KEY ∧ SameKeystream t t' ∧ SameTest t t' ∧ SameResults t t'
      ∧ SamePort t t' ∧ t'.draws = t.draws ∧ (i ≠ .rdreg 0x00B → t'.rsp = t.rsp)

/-- R27: the error record changes only by a command error, CLRERR and reset, and each changes it as the rule says. -/
def Obligations.ErrorRecordChangesOnlyAsStated : Prop :=
  ∀ s t : State, step s = .next t →
    (Resets s → t.ERR = false ∧ t.ERRCODE = 0)
    ∧ (TakesEffect s .clrerr → t.ERR = false ∧ t.ERRCODE = 0)
    ∧ (∀ e, Raises s e → s.ERR = false → t.ERR = true ∧ t.ERRCODE = e.code)
    ∧ (∀ e, Raises s e → s.ERR = true → t.ERR = true ∧ t.ERRCODE = s.ERRCODE)
    ∧ (¬ Resets s → ¬ TakesEffect s .clrerr → (∀ e, ¬ Raises s e) → t.ERR = s.ERR ∧ t.ERRCODE = s.ERRCODE)

/-! ### The ports -/

/-- R220, R222: at a reset edge nothing is accepted and no command takes effect, and after it there is no response and
cmd_ready is 0 while rst stays 1. cmd_ready is 1 once rst is 0 (R223), and after every other edge it is 1 exactly outside
a valid EVAL (R227), whatever rst is. That it is still 1 with rst = 1 in the cycle before the first reset edge is the
model's reading of R220 (log 11, DEDUCED). -/
def Obligations.ResetAcceptsNothingAndHoldsReady : Prop :=
  ∀ s t : State, step s = .next t →
    (Resets s → (∀ w, ¬ Accepts s w) ∧ (∀ i, ¬ TakesEffect s i)
      ∧ t.rsp = none ∧ t.cmdReady true = false ∧ t.cmdReady false = true)
    ∧ (¬ Resets s → ∀ rst, (t.cmdReady rst = true ↔ t.evalBusy = false))

/-- A step with a word presented and cmd_ready = 1 is the decoded command's effect, with the word taken off the port;
a word that does not decode raises its error; a valid EVAL that takes several cycles makes the port busy (R227). A word
placed by withFetchWord is accepted at the very next step. -/
def Obligations.StepRunsDecodedInstruction : Prop :=
  ∀ (s : State) (w : Word) (ps : List Pins), s.pins = ⟨false, true, w⟩ :: ps → s.evalLeft = 0 →
    (∀ i, decode w = .ok i → (i = .eval → s.config.evalCycles = 1) →
        step s = exec i { s with pins := ps, afterReset := false })
    ∧ (decode w = .ok .eval → 1 < (s.config.evalCycles : ℕ) →
        step s = .next
          { s with pins := ps, afterReset := false, evalLeft := (s.config.evalCycles : ℕ) - 1, rsp := none })
    ∧ (∀ e, decode w = .error e → step s = .next (({ s with pins := ps, afterReset := false } : State).raise e))
    ∧ step (State.withFetchWord { s with pins := ps } 32 w.toNat) = step s

/-- R227: a valid EVAL accepted at one edge holds cmd_ready = 0 and answers nothing for EVAL_CYCLES - 1 edges, whatever
the host presents meanwhile, and takes effect at the edge EVAL_CYCLES - 1 after, as long as no reset comes. -/
def Obligations.EvalTakesEvalCycles : Prop :=
  ∀ (s : State) (w : Word) (n : Nat), Accepts s w → decode w = .ok .eval → (s.config.evalCycles : ℕ) = n + 1 →
    (∀ p ∈ s.pins.take (n + 1), p.rst = false) →
    (∀ k, 0 < k → k ≤ n → ∃ t, edges k s = .next t ∧ t.cmdReady false = false ∧ t.rsp = none
      ∧ SameRegisters s t ∧ t.pins = s.pins.drop k)
    ∧ ∃ t u, exec .eval s = .next t ∧ edges (n + 1) s = .next u ∧ u = { t with pins := s.pins.drop (n + 1), afterReset := false }
      ∧ u.cmdReady false = true

/-- R231: with no command presented the block holds its state; a response lasts one cycle. -/
def Obligations.IdleHoldsState : Prop :=
  ∀ (s : State) (n : Nat), s.evalLeft = 0 → (∀ p ∈ s.pins, p.rst = false ∧ p.cmdValid = false) →
    edges (n + 1) s = .next { s with rsp := none, afterReset := false, pins := s.pins.drop (n + 1) }

/-- R228: at every edge, a response is presented in the cycle after exactly when a command took effect or raised an error
at it, and its error bit says which. -/
def Obligations.OneResponsePerCommand : Prop :=
  ∀ s t : State, step s = .next t →
    (t.rsp.isSome = true ↔ (∃ i, TakesEffect s i) ∨ ∃ e, Raises s e)
    ∧ ∀ r, t.rsp = some r → (r.err = true ↔ ∃ e, Raises s e)

/-- R204: nothing stops the block. -/
def Obligations.EveryStepAnswersNext : Prop := ∀ s : State, Safe s

/-! ### Who writes what -/

/-- R20, R21, R22, R24, R25: KEY is written only by KEYW and reset; S, IDX, LASTOUT and LASTOBS only by STEP, SEED and
reset; the parameters by nothing. -/
def Obligations.KeystreamRegistersWrittenOnlyBy : Prop :=
  ∀ s t : State, step s = .next t →
    t.config = s.config
    ∧ (t.KEY ≠ s.KEY → Resets s ∨ ∃ j v, TakesEffect s (.keyw j v))
    ∧ (¬ SameKeystream s t → Resets s ∨ TakesEffect s .seed ∨ ∃ v, TakesEffect s (.step v))

/-- R26, R28 to R39: the accumulators and SAT are written only by STEP, SEED and reset; VERDICT, STAT and RESVALID only by
EVAL, SEED and reset. -/
def Obligations.TestRegistersWrittenOnlyBy : Prop :=
  ∀ s t : State, step s = .next t →
    (¬ SameTest s t → Resets s ∨ TakesEffect s .seed ∨ ∃ v, TakesEffect s (.step v))
    ∧ (¬ SameResults s t → Resets s ∨ TakesEffect s .seed ∨ TakesEffect s .eval)

/-! ### The invariant -/

/-- The invariant of the reachable states holds after reset, whatever the parameters. -/
def Obligations.InvariantAtReset : Prop := ∀ c : Config, (State.resetWith c).Inv

/-- Every step keeps the invariant of the reachable states: the counters are consistent and never exceed R134's
bounds, the step counter counts the steps (R114), SAT is set only at OBS_MAX (R121), the error code is legal (R26), the
verdict codes are legal (R160), an EVAL in progress ends in time (R227), and a reset edge leaves none (R222). -/
def Obligations.StepKeepsInvariant : Prop := ∀ s t : State, s.Inv → step s = .next t → t.Inv
end

