-- ==== Sys2Proof/Laws/Accumulate.lean ====
section
/-!
SUPPORT. What one observation byte does to the accumulators, said once: each field of `accumulate`, in numbers where the
widths allow it, and that the accumulators' invariant is kept.
-/

namespace Sys2Proof.Machine

theorem popcount_le (x : Byte) : popcount x ≤ 8 := by
  unfold popcount
  exact List.countP_le_length.trans (by simp)

/-! ### The run-length FSM -/

/-- The run registers after some bits, the rest of the accumulators as before (R125). -/
theorem runBits_foldl_frame (bits : List Bool) (a : Accumulators) :
    ∀ b, b = bits.foldl Accumulators.runBit a →
      b.N = a.N ∧ b.ONES = a.ONES ∧ b.OCC = a.OCC ∧ b.SQSUM = a.SQSUM ∧ b.HIST = a.HIST ∧ b.ACP = a.ACP
        ∧ b.UTAB = a.UTAB ∧ b.USUMEXP = a.USUMEXP := by
  induction bits generalizing a with
  | nil => intro b hb; subst hb; simp
  | cons x xs ih =>
    intro b hb
    have := ih (a.runBit x) b hb
    simp only [this, Accumulators.runBit]
    split <;> exact ⟨rfl, rfl, rfl, rfl, rfl, rfl, rfl, rfl⟩

/-- Two states of the run registers agree after equal bits (R125). -/
theorem runBits_foldl_congr (bits : List Bool) (a b : Accumulators) (h1 : a.RUN1 = b.RUN1) (h0 : a.RUN0 = b.RUN0)
    (hb : a.BRUN = b.BRUN) (hg : a.GRUN = b.GRUN) :
    ∀ c d, c = bits.foldl Accumulators.runBit a → d = bits.foldl Accumulators.runBit b →
      c.RUN1 = d.RUN1 ∧ c.RUN0 = d.RUN0 ∧ c.BRUN = d.BRUN ∧ c.GRUN = d.GRUN := by
  induction bits generalizing a b with
  | nil => intro c d hc hd; subst hc hd; exact ⟨h1, h0, hb, hg⟩
  | cons x xs ih =>
    intro c d hc hd
    refine ih (a.runBit x) (b.runBit x) ?_ ?_ ?_ ?_ c d hc hd <;> simp only [Accumulators.runBit, h1, h0, hb, hg] <;>
      split <;> rfl

theorem growRun_toNat (r : BitVec 4) : (growRun r).toNat = min (r.toNat + 1) 9 := by
  simp [growRun]

/-- A finished run adds one to the bin of its length and to no other, while no bin is full (R125). -/
theorem countRun_toNat (bins : Vector (BitVec 26) 8) (r : BitVec 4) (h : ∀ i : Fin 8, (bins[i]).toNat < 2 ^ 26 - 1)
    (i : Fin 8) : ((countRun bins r)[i]).toNat = (bins[i]).toNat + if r.toNat = i.val + 1 then 1 else 0 := by
  unfold countRun
  split
  · rename_i hr
    have hi := h i
    simp only [Fin.getElem_fin, Vector.getElem_set] at hi ⊢
    by_cases he : r.toNat - 1 = i.val
    · rw [if_pos he, if_pos (by omega)]
      simp only [he, BitVec.toNat_add, show BitVec.toNat (1 : BitVec 26) = 1 from rfl]; omega
    · rw [if_neg he, if_neg (by omega)]; simp
  · rw [if_neg (by have := i.isLt; omega)]; simp

/-! ### The fields -/

section
variable (a : Accumulators) (x : Byte)

@[simp] theorem runsAcc_N : (a.runsAcc x).N = a.N := (runBits_foldl_frame _ _ _ rfl).1
@[simp] theorem runsAcc_ONES : (a.runsAcc x).ONES = a.ONES := (runBits_foldl_frame _ _ _ rfl).2.1
@[simp] theorem runsAcc_OCC : (a.runsAcc x).OCC = a.OCC := (runBits_foldl_frame _ _ _ rfl).2.2.1
@[simp] theorem runsAcc_SQSUM : (a.runsAcc x).SQSUM = a.SQSUM := (runBits_foldl_frame _ _ _ rfl).2.2.2.1
@[simp] theorem runsAcc_HIST : (a.runsAcc x).HIST = a.HIST := (runBits_foldl_frame _ _ _ rfl).2.2.2.2.1
@[simp] theorem runsAcc_ACP : (a.runsAcc x).ACP = a.ACP := (runBits_foldl_frame _ _ _ rfl).2.2.2.2.2.1
@[simp] theorem runsAcc_UTAB : (a.runsAcc x).UTAB = a.UTAB := (runBits_foldl_frame _ _ _ rfl).2.2.2.2.2.2.1
@[simp] theorem runsAcc_USUMEXP : (a.runsAcc x).USUMEXP = a.USUMEXP := (runBits_foldl_frame _ _ _ rfl).2.2.2.2.2.2.2

@[simp] theorem accumulate_N : (a.accumulate x).N = BitVec.ofNat 24 (a.N.toNat + 1) := by
  simp [Accumulators.accumulate]

@[simp] theorem accumulate_ONES : (a.accumulate x).ONES = a.ONES + BitVec.ofNat 27 (popcount x) := by
  simp [Accumulators.accumulate, Accumulators.univAcc, Accumulators.prefixAcc, Accumulators.shiftHist,
    Accumulators.serialAcc, Accumulators.freqAcc]

@[simp] theorem accumulate_OCC : (a.accumulate x).OCC = a.OCC.set x.toFin (a.OCC[x.toFin] + 1) := by
  simp [Accumulators.accumulate, Accumulators.univAcc, Accumulators.prefixAcc, Accumulators.shiftHist,
    Accumulators.serialAcc, Accumulators.freqAcc]

@[simp] theorem accumulate_SQSUM : (a.accumulate x).SQSUM = a.SQSUM + 2 * (a.OCC[x.toFin]).zeroExtend 48 + 1 := by
  simp [Accumulators.accumulate, Accumulators.univAcc, Accumulators.prefixAcc, Accumulators.shiftHist,
    Accumulators.serialAcc, Accumulators.freqAcc]

@[simp] theorem accumulate_HIST :
    (a.accumulate x).HIST = Vector.ofFn fun j : Fin 26 => if j.val = 0 then x else a.HIST[j.val - 1] := by
  simp [Accumulators.accumulate, Accumulators.univAcc, Accumulators.prefixAcc, Accumulators.shiftHist,
    Accumulators.serialAcc, Accumulators.freqAcc]

@[simp] theorem accumulate_UTAB : (a.accumulate x).UTAB = a.UTAB.set x.toFin (BitVec.ofNat 24 a.N.toNat) := by
  simp [Accumulators.accumulate, Accumulators.univAcc, Accumulators.prefixAcc, Accumulators.shiftHist,
    Accumulators.serialAcc, Accumulators.freqAcc]

@[simp] theorem accumulate_USUMEXP :
    (a.accumulate x).USUMEXP =
      if a.N.toNat < Config.univInit then a.USUMEXP else a.USUMEXP * univGap a.N.toNat (a.UTAB[x.toFin]).toNat := by
  simp [Accumulators.accumulate, Accumulators.univAcc, Accumulators.prefixAcc, Accumulators.shiftHist,
    Accumulators.serialAcc, Accumulators.freqAcc]

/-- The prefix counters (R128): the byte a lag back is read from the delay line after the shift. -/
theorem accumulate_ACP (t : Fin 4) :
    (a.accumulate x).ACP[t] = if Config.tau t ≤ a.N.toNat then
      a.ACP[t] + BitVec.ofNat 27 (popcount ((a.accumulate x).HIST[Config.tau t]'(by revert t; decide))) else a.ACP[t] := by
  simp [Accumulators.accumulate, Accumulators.univAcc, Accumulators.prefixAcc, Accumulators.shiftHist,
    Accumulators.serialAcc, Accumulators.freqAcc]

/-- The run registers of `accumulate` are those of its eight bits (R125, R126). -/
theorem accumulate_runs :
    ∀ c, c = (bitsMsb x).foldl Accumulators.runBit a →
      (a.accumulate x).RUN1 = c.RUN1 ∧ (a.accumulate x).RUN0 = c.RUN0 ∧ (a.accumulate x).BRUN = c.BRUN
        ∧ (a.accumulate x).GRUN = c.GRUN := by
  intro c hc
  have h := runBits_foldl_congr (bitsMsb x) ((a.freqAcc x).serialAcc x) a
    (by simp [Accumulators.serialAcc, Accumulators.freqAcc]) (by simp [Accumulators.serialAcc, Accumulators.freqAcc])
    (by simp [Accumulators.serialAcc, Accumulators.freqAcc]) (by simp [Accumulators.serialAcc, Accumulators.freqAcc])
    _ c rfl hc
  simpa [Accumulators.accumulate, Accumulators.univAcc, Accumulators.prefixAcc, Accumulators.shiftHist,
    Accumulators.runsAcc] using h

end

/-! ### The invariant -/

/-- What holds of the run registers after `n` bits (R134, R135). -/
structure RunsInv (n : Nat) (a : Accumulators) : Prop where
  run1_le : a.RUN1.toNat ≤ 9
  run0_le : a.RUN0.toNat ≤ 9
  one_run : a.RUN1 = 0 ∨ a.RUN0 = 0
  brun_count : 2 * runCount a.BRUN + (if a.RUN1 = 0 then 0 else 1) ≤ n
  grun_count : 2 * runCount a.GRUN + (if a.RUN0 = 0 then 0 else 1) ≤ n
  run_bits : runBits a.BRUN + runBits a.GRUN + a.RUN1.toNat + a.RUN0.toNat ≤ n

theorem bin_le_runCount (bins : Vector (BitVec 26) 8) (i : Fin 8) : (bins[i]).toNat ≤ runCount bins :=
  Finset.single_le_sum (f := fun i : Fin 8 => (bins[i]).toNat) (fun _ _ => Nat.zero_le _) (Finset.mem_univ i)

theorem runCount_countRun (bins : Vector (BitVec 26) 8) (r : BitVec 4) (h : runCount bins < 2 ^ 26 - 1) :
    runCount (countRun bins r) = runCount bins + if 1 ≤ r.toNat ∧ r.toNat ≤ 8 then 1 else 0 := by
  have hb : ∀ i : Fin 8, (bins[i]).toNat < 2 ^ 26 - 1 := fun i => (bin_le_runCount bins i).trans_lt h
  have h1 := countRun_toNat bins r hb
  simp only [runCount, h1, Finset.sum_add_distrib, Nat.add_left_cancel_iff]
  simp only [Fin.sum_univ_eight]
  have := r.isLt
  generalize r.toNat = n at *
  interval_cases n <;> rfl

theorem runBits_countRun (bins : Vector (BitVec 26) 8) (r : BitVec 4) (h : runCount bins < 2 ^ 26 - 1) :
    runBits (countRun bins r) = runBits bins + if r.toNat ≤ 8 then r.toNat else 0 := by
  have hb : ∀ i : Fin 8, (bins[i]).toNat < 2 ^ 26 - 1 := fun i => (bin_le_runCount bins i).trans_lt h
  have h1 := countRun_toNat bins r hb
  simp only [runBits, h1, mul_add, Finset.sum_add_distrib, Nat.add_left_cancel_iff]
  simp only [Fin.sum_univ_eight]
  have := r.isLt
  generalize r.toNat = n at *
  interval_cases n <;> rfl

/-- One bit keeps the run registers' invariant. -/
theorem RunsInv.bit {n : Nat} {a : Accumulators} (h : RunsInv n a) (hn : n < 2 ^ 27 - 8) (b : Bool) :
    RunsInv (n + 1) (a.runBit b) := by
  obtain ⟨h1, h2, h3, h4, h5, h6⟩ := h
  have hz : ∀ r : BitVec 4, r = 0 ↔ r.toNat = 0 := fun r =>
    ⟨fun h => by rw [h]; rfl, fun h => BitVec.eq_of_toNat_eq h⟩
  have hg : ∀ r : BitVec 4, growRun r ≠ 0 := fun r => by rw [Ne, hz, growRun_toNat]; omega
  simp only [hz] at h3 h4 h5
  cases b with
  | true =>
    have hc : runCount a.GRUN < 2 ^ 26 - 1 := by omega
    have e1 := runCount_countRun a.GRUN a.RUN0 hc
    have e2 := runBits_countRun a.GRUN a.RUN0 hc
    have e3 := growRun_toNat a.RUN1
    constructor <;> simp only [Accumulators.runBit, if_true, e1, e2, e3, hg] <;> simp <;> (repeat' split) <;>
      (try split at h4) <;> (try split at h5) <;> omega
  | false =>
    have hc : runCount a.BRUN < 2 ^ 26 - 1 := by omega
    have e1 := runCount_countRun a.BRUN a.RUN1 hc
    have e2 := runBits_countRun a.BRUN a.RUN1 hc
    have e3 := growRun_toNat a.RUN0
    constructor <;> simp [Accumulators.runBit, e1, e2, e3] <;> (repeat' split) <;>
      (try split at h4) <;> (try split at h5) <;> omega

/-- Several bits keep the run registers' invariant. -/
theorem RunsInv.bits (bits : List Bool) : ∀ {n : Nat} {a : Accumulators}, RunsInv n a → n + bits.length ≤ 2 ^ 27 - 8 →
    RunsInv (n + bits.length) (bits.foldl Accumulators.runBit a) := by
  induction bits with
  | nil => intro n a h _; exact h
  | cons b bs ih =>
    intro n a h hn
    simp at hn
    have := ih (h.bit (by omega) b) (by omega)
    simp only [List.length_cons, List.foldl_cons]
    rwa [show n + (bs.length + 1) = n + 1 + bs.length by omega]

/-- With room in the bins, a finished run is counted as in numbers (R125). -/
theorem countRun_eq_addRun (bins : Vector (BitVec 26) 8) (r : BitVec 4) (h : runCount bins < 2 ^ 26 - 1) :
    (countRun bins r).map BitVec.toNat = addRun (bins.map BitVec.toNat) r.toNat := by
  apply Vector.ext
  intro i hi
  have := countRun_toNat bins r (fun i => (bin_le_runCount bins i).trans_lt h) ⟨i, hi⟩
  simpa [addRun] using this

/-- One bit through the block's FSM is one bit through the FSM in numbers (R125). -/
theorem RunsInv.runs_bit {n : Nat} {a : Accumulators} (h : RunsInv n a) (hn : n < 2 ^ 27 - 8) (b : Bool) :
    (a.runBit b).runs = a.runs.bit b := by
  have h1 := h.brun_count
  have h2 := h.grun_count
  cases b
  · simp only [Accumulators.runBit, Accumulators.runs, Runs.bit, Bool.false_eq_true, if_false, growRun_toNat,
      countRun_eq_addRun a.BRUN a.RUN1 (by omega)]
    rfl
  · simp only [Accumulators.runBit, Accumulators.runs, Runs.bit, if_true, growRun_toNat,
      countRun_eq_addRun a.GRUN a.RUN0 (by omega)]
    rfl

/-- Several bits through the block's FSM are those bits through the FSM in numbers (R125). -/
theorem RunsInv.runs_bits (bits : List Bool) : ∀ {n : Nat} {a : Accumulators}, RunsInv n a →
    n + bits.length ≤ 2 ^ 27 - 8 → (bits.foldl Accumulators.runBit a).runs = bits.foldl Runs.bit a.runs := by
  induction bits with
  | nil => intro n a _ _; rfl
  | cons b bs ih =>
    intro n a h hn
    simp at hn
    rw [List.foldl_cons, List.foldl_cons, ih (h.bit (by omega) b) (by omega), h.runs_bit (by omega)]

/-- The gap to a position seen before (R133). -/
theorem univGap_toNat {k u : Nat} (h : u < k) : ((univGap k u : ℕ+) : ℕ) = k - u := by
  simp [univGap, h, Nat.toPNat', Nat.succPNat]; omega

/-- A sum over the symbols after one of them changes. -/
theorem sum_set (f : Fin 256 → Nat) (g : Fin 256 → Nat) (x : Fin 256) (h : ∀ v, g v = if v = x then g x else f v) :
    ∑ v, g v + f x = ∑ v, f v + g x := by
  rw [← Finset.add_sum_erase _ g (Finset.mem_univ x), ← Finset.add_sum_erase _ f (Finset.mem_univ x)]
  have : ∑ v ∈ Finset.univ.erase x, g v = ∑ v ∈ Finset.univ.erase x, f v := by
    apply Finset.sum_congr rfl; intro v hv; rw [h v, if_neg (Finset.ne_of_mem_erase hv)]
  omega

/-- What one observation byte adds to each accumulator, in numbers (R122 to R124, R127 to R130). -/
structure AccumulateSpec (a : Accumulators) (x : Byte) (b : Accumulators) : Prop where
  N : b.N.toNat = a.N.toNat + 1
  ONES : b.ONES.toNat = a.ONES.toNat + popcount x
  OCC : ∀ w : Fin 256, (b.OCC[w]).toNat = (a.OCC[w]).toNat + if w = x.toFin then 1 else 0
  SQSUM : b.SQSUM.toNat = a.SQSUM.toNat + 2 * (a.OCC[x.toFin]).toNat + 1
  UTAB : ∀ w : Fin 256, (b.UTAB[w]).toNat = if w = x.toFin then a.N.toNat else (a.UTAB[w]).toNat
  ACP : ∀ l : Fin 4, (b.ACP[l]).toNat =
          (a.ACP[l]).toNat + if Config.tau l ≤ a.N.toNat then popcount (b.HIST.toList.getD (Config.tau l) 0) else 0
  HIST : ∀ j : Fin 26, b.HIST[j] = if j.val = 0 then x else a.HIST[j.val - 1]

/-- No symbol was seen more often than there were bytes (R134). -/
theorem occ_le {a : Accumulators} (h : a.Inv) (v : Fin 256) : (a.OCC[v]).toNat ≤ a.N.toNat := by
  rw [← h.occ_sum]
  exact Finset.single_le_sum (f := fun i : Fin 256 => (a.OCC[i]).toNat) (fun _ _ => Nat.zero_le _) (Finset.mem_univ v)
/-- The square sum is at most the square of the sum (R134). -/
theorem sqsum_le {a : Accumulators} (h : a.Inv) : a.SQSUM.toNat ≤ a.N.toNat ^ 2 := by
  rw [h.sqsum_eq, sq]
  nth_rw 1 [← h.occ_sum]
  rw [Finset.sum_mul]
  apply Finset.sum_le_sum
  intro i _; rw [sq]; exact Nat.mul_le_mul_left _ (occ_le h i)

/-- With room left no counter wraps (R134). -/
theorem accumulate_spec {a : Accumulators} (h : a.Inv) (hn : a.N.toNat < Config.obsMax) (x : Byte) :
    AccumulateSpec a x (a.accumulate x) := by
  have hp := popcount_le x
  simp only [Config.obsMax] at hn
  constructor
  · simp; omega
  · have := h.ones_le; simp [BitVec.toNat_add]; omega
  · intro w
    have := occ_le h w
    simp only [accumulate_OCC, Fin.getElem_fin, Vector.getElem_set]
    simp only [Fin.getElem_fin] at this
    by_cases hc : w = x.toFin
    · rw [if_pos (by rw [hc]), if_pos hc]
      subst hc
      simp only [BitVec.toNat_add, show BitVec.toNat (1 : BitVec 24) = 1 from rfl]; omega
    · rw [if_neg (fun e => hc (Fin.ext e.symm)), if_neg hc]; rfl
  · have h1 := sqsum_le h
    have h2 := occ_le h x.toFin
    have h3 : a.N.toNat ^ 2 ≤ (2^24-2)^2 := Nat.pow_le_pow_left (by omega) 2
    replace h1 := h1.trans h3
    norm_num at h1
    simp only [accumulate_SQSUM, BitVec.toNat_add, BitVec.toNat_mul, BitVec.truncate_eq_setWidth, BitVec.toNat_setWidth]
    simp
    simp at h2

    omega
  · intro w
    simp only [accumulate_UTAB, Fin.getElem_fin, Vector.getElem_set]
    by_cases hc : w = x.toFin
    · rw [if_pos (by rw [hc]), if_pos hc]
      simp
    · rw [if_neg (fun e => hc (Fin.ext e.symm)), if_neg hc]
  · intro l
    have h1 := h.acp_le l
    have ht : Config.tau l < 26 := by clear h1; revert l; decide
    have : (a.accumulate x).HIST.toList.getD (Config.tau l) 0 = (a.accumulate x).HIST[Config.tau l] := by
      simp [List.getD, ht]
    rw [accumulate_ACP, this]
    generalize (a.accumulate x).HIST[Config.tau l] = y
    have hy := popcount_le y
    split
    · simp only [BitVec.toNat_add, BitVec.toNat_ofNat]; omega
    · simp
  · intro j; simp

/-- The run registers of accumulators that keep the invariant. -/
theorem Accumulators.Inv.runs {a : Accumulators} (h : a.Inv) : RunsInv (8 * a.N.toNat) a :=
  ⟨h.run1_le, h.run0_le, h.one_run, h.brun_count, h.grun_count, h.run_bits⟩

/-- The run registers after an observation byte: its eight bits, most significant first, through the FSM in numbers
(R125). -/
theorem accumulate_runs_exact {a : Accumulators} (h : a.Inv) (hn : a.N.toNat < Config.obsMax) (x : Byte) :
    (a.accumulate x).runs = [7, 6, 5, 4, 3, 2, 1, 0].foldl (fun r j => r.bit (x.getLsbD j)) a.runs := by
  have hr := RunsInv.runs_bits (bitsMsb x) h.runs (by simp [bitsMsb, Config.obsMax] at *; omega)
  obtain ⟨e1, e2, e3, e4⟩ := accumulate_runs a x _ rfl
  have : (a.accumulate x).runs = ((bitsMsb x).foldl Accumulators.runBit a).runs := by
    simp only [Accumulators.runs, e1, e2, e3, e4]
  rw [this, hr]
  rfl

/-- An observation byte keeps the accumulators' invariant. -/
theorem accumulate_inv {a : Accumulators} (h : a.Inv) (hn : a.N.toNat < Config.obsMax) (x : Byte) :
    (a.accumulate x).Inv := by
  have s := accumulate_spec h hn x
  have hp := popcount_le x
  have hr := RunsInv.bits (bitsMsb x) h.runs (by simp [bitsMsb, Config.obsMax] at *; omega)
  have hl : (bitsMsb x).length = 8 := by simp [bitsMsb]
  rw [hl, ← Nat.mul_succ, Nat.succ_eq_add_one, ← s.N] at hr
  obtain ⟨e1, e2, e3, e4⟩ := accumulate_runs a x _ rfl
  constructor
  · rw [s.ONES, s.N]; have := h.ones_le; omega
  · simp only [s.OCC, Finset.sum_add_distrib, h.occ_sum, s.N]; simp
  · have := sum_set (fun v => (a.OCC[v]).toNat ^ 2) (fun v => ((a.accumulate x).OCC[v]).toNat ^ 2) x.toFin (by
      intro v; split
      · rename_i hv; rw [hv]
      · rename_i hv; rw [s.OCC, if_neg hv]; rfl)
    rw [s.SQSUM]
    have h2 := h.sqsum_eq
    have h3 := s.OCC x.toFin
    rw [if_pos rfl] at h3
    rw [h3, add_sq] at this
    omega
  · rw [e1]; exact hr.run1_le
  · rw [e2]; exact hr.run0_le
  · rw [e1, e2]; exact hr.one_run
  · rw [e1, e3]; exact hr.brun_count
  · rw [e2, e4]; exact hr.grun_count
  · rw [e1, e2, e3, e4]; exact hr.run_bits
  · intro l
    rw [s.ACP, s.N]
    have := h.acp_le l
    have := popcount_le ((a.accumulate x).HIST.toList.getD (Config.tau l) 0)
    split <;> omega
  · intro v
    have := s.UTAB v
    right
    rw [this, s.N]
    split
    · omega
    · rcases h.utab_lt v with h | h
      · rw [h]; simp
      · omega
  · rw [accumulate_USUMEXP, s.N]
    have hu := h.usum_le
    split
    · rename_i hlt
      refine hu.trans (Nat.pow_le_pow_right (by norm_num) (by omega))
    · rename_i hlt
      simp only [Config.univInit] at hlt
      have hx : (a.UTAB[x.toFin]).toNat < a.N.toNat := by
        rcases h.utab_lt x.toFin with h | h
        · rw [h]; simp; omega
        · exact h
      rw [PNat.mul_coe, univGap_toNat hx]
      have e : a.N.toNat + 1 - Config.univInit = (a.N.toNat - Config.univInit) + 1 := by simp [Config.univInit]; omega
      simp only [e, pow_succ (2^24)]
      apply Nat.mul_le_mul hu
      simp only [Config.obsMax] at hn
      omega

/-- Cleared accumulators meet the invariant. -/
theorem clear_inv : Accumulators.clear.Inv := by
  constructor <;> simp [Accumulators.clear, runCount, runBits]

end Sys2Proof.Machine
end

