-- ==== Sys2Proof/Laws/Decode.lean ====
section
/-!
SUPPORT. What the decoder can answer, said once: the case split on the opcode, and when each command and each error comes
out.
-/

namespace Sys2Proof

theorem checkReserved_ok (w m : Word) (i k : Instr) : checkReserved w m i = .ok k ↔ w &&& m = 0 ∧ i = k := by
  unfold checkReserved; split <;> simp_all

theorem checkReserved_error (w m : Word) (i : Instr) (e : CmdError) :
    checkReserved w m i = .error e ↔ w &&& m ≠ 0 ∧ e = .rsvd := by
  unfold checkReserved; split
  · simp_all
  · simp_all [eq_comm (a := e)]

/-- The shift of the rules and the opcode field are one number. -/
theorem shift_eq_opField (w : Word) : (w >>> 24).toNat = (opField w).toNat := by
  simp [opField, BitVec.extractLsb'_toNat, Nat.shiftRight_eq_div_pow]; omega

/-- The decoder's answer by opcode (R88): one of seven checks of the reserved bits, or ERR_OPCODE. -/
theorem decode_cases (w : Word) :
    (opField w = 0 ∧ decode w = checkReserved w rsvdN .nop) ∨
    (opField w = 1 ∧ decode w = checkReserved w rsvdK (.keyw (jField w) (vField w))) ∨
    (opField w = 2 ∧ decode w = checkReserved w rsvdN .seed) ∨
    (opField w = 3 ∧ decode w = checkReserved w rsvdB (.step (vField w))) ∨
    (opField w = 4 ∧ decode w = checkReserved w rsvdN .eval) ∨
    (opField w = 5 ∧ decode w = checkReserved w rsvdR (.rdreg (aField w))) ∨
    (opField w = 6 ∧ decode w = checkReserved w rsvdN .clrerr) ∨
    (6 < (opField w).toNat ∧ decode w = .error .opcode) := by
  have key : ∀ n : Nat, n < 256 → (opField w).toNat = n → opField w = BitVec.ofNat 8 n := by
    intro n hn h; apply BitVec.eq_of_toNat_eq; simp [h]; omega
  unfold decode
  split
  · exact .inl ⟨key 0 (by omega) ‹_›, rfl⟩
  · exact .inr (.inl ⟨key 1 (by omega) ‹_›, rfl⟩)
  · exact .inr (.inr (.inl ⟨key 2 (by omega) ‹_›, rfl⟩))
  · exact .inr (.inr (.inr (.inl ⟨key 3 (by omega) ‹_›, rfl⟩)))
  · exact .inr (.inr (.inr (.inr (.inl ⟨key 4 (by omega) ‹_›, rfl⟩))))
  · exact .inr (.inr (.inr (.inr (.inr (.inl ⟨key 5 (by omega) ‹_›, rfl⟩)))))
  · exact .inr (.inr (.inr (.inr (.inr (.inr (.inl ⟨key 6 (by omega) ‹_›, rfl⟩))))))
  · refine .inr (.inr (.inr (.inr (.inr (.inr (.inr ⟨?_, rfl⟩))))))
    by_contra hc
    have : (opField w).toNat ≤ 6 := by omega
    interval_cases h : (opField w).toNat <;> simp_all

/-- A malformed word raises its error, whatever the state. -/
theorem Machine.accept_error (w : Word) (s : Machine.State) (e : CmdError) (h : decode w = .error e) :
    Machine.accept w s = .next (s.raise e) := by
  simp [Machine.accept, h]

/-- A field test and a reserved-bits test together are one match and mask (R87). -/
theorem mask_iff (w op m full : Word) (k : BitVec 8) (hfull : full = 0xFF000000#32 ||| m) (hm : m &&& 0xFF000000#32 = 0)
    (hop : op = k ++ 0#24) : (opField w = k ∧ w &&& m = 0) ↔ w &&& full = op := by
  subst hfull hop
  have hbits : ∀ (x y : BitVec 32), x = y ↔ ∀ i < 32, x.getLsbD i = y.getLsbD i := fun x y =>
    ⟨fun h _ _ => h ▸ rfl, BitVec.eq_of_getLsbD_eq⟩
  have hb8 : ∀ (x y : BitVec 8), x = y ↔ ∀ i < 8, x.getLsbD i = y.getLsbD i := fun x y =>
    ⟨fun h _ _ => h ▸ rfl, BitVec.eq_of_getLsbD_eq⟩
  have hff : ∀ i < 32, (0xFF000000#32).getLsbD i = decide (24 ≤ i) := by decide
  constructor
  · rintro ⟨h1, h2⟩
    rw [hbits] at h2 ⊢
    rw [hb8] at h1
    intro i hi
    have a := h2 i hi
    simp only [BitVec.getLsbD_and, BitVec.getLsbD_or, BitVec.getLsbD_append, BitVec.getLsbD_zero, hff i hi] at a ⊢
    by_cases h24 : i < 24
    · simpa [h24, Nat.not_le.2 h24] using a
    · have b := h1 (i - 24) (by omega)
      simp only [opField, BitVec.getLsbD_extractLsb'] at b
      have : 24 + (i - 24) = i := by omega
      rw [this] at b
      simp only [not_lt.1 h24, decide_true, Bool.true_or, Bool.and_true]
      simp [h24, ← b]; omega
  · intro h
    rw [hbits] at h
    rw [hbits] at hm
    refine ⟨?_, ?_⟩
    · rw [hb8]; intro i hi
      have a := h (i + 24) (by omega)
      simp only [BitVec.getLsbD_and, BitVec.getLsbD_or, BitVec.getLsbD_append, hff (i+24) (by omega)] at a
      simp at a
      simp [opField, hi, Nat.add_comm 24 i, a]
    · rw [hbits]; intro i hi
      have a := h i hi
      have b := hm i hi
      simp only [BitVec.getLsbD_and, BitVec.getLsbD_or, BitVec.getLsbD_append, hff i hi, BitVec.getLsbD_zero] at a b ⊢
      by_cases h24 : i < 24
      · simpa [h24, Nat.not_le.2 h24] using a
      · have h24' : 24 ≤ i := by omega
        simp [h24'] at b
        simp [b]

/-- When each command and ERR_OPCODE come out of the decoder (R87, R88). -/
theorem decode_ok_iff (w : Word) :
    (decode w = .ok .nop ↔ opField w = 0 ∧ w &&& rsvdN = 0) ∧
    (∀ j v, decode w = .ok (.keyw j v) ↔ opField w = 1 ∧ w &&& rsvdK = 0 ∧ j = jField w ∧ v = vField w) ∧
    (decode w = .ok .seed ↔ opField w = 2 ∧ w &&& rsvdN = 0) ∧
    (∀ v, decode w = .ok (.step v) ↔ opField w = 3 ∧ w &&& rsvdB = 0 ∧ v = vField w) ∧
    (decode w = .ok .eval ↔ opField w = 4 ∧ w &&& rsvdN = 0) ∧
    (∀ a, decode w = .ok (.rdreg a) ↔ opField w = 5 ∧ w &&& rsvdR = 0 ∧ a = aField w) ∧
    (decode w = .ok .clrerr ↔ opField w = 6 ∧ w &&& rsvdN = 0) ∧
    (decode w = .error .opcode ↔ 6 < (opField w).toNat) := by
  rcases decode_cases w with ⟨h, e⟩ | ⟨h, e⟩ | ⟨h, e⟩ | ⟨h, e⟩ | ⟨h, e⟩ | ⟨h, e⟩ | ⟨h, e⟩ | ⟨h, e⟩
  case inr.inr.inr.inr.inr.inr.inr =>
    have : ∀ k : BitVec 8, k.toNat ≤ 6 → opField w ≠ k := by rintro k hk rfl; omega
    simp [e, h, this]
  all_goals
    rw [e]; simp [checkReserved_ok, checkReserved_error, h]; try simp [eq_comm]

/-- When ERR_RSVD comes out of the decoder (R199). -/
theorem decode_rsvd (w : Word) :
  ((opField w = 0 ∨ opField w = 2 ∨ opField w = 4 ∨ opField w = 6) → w &&& rsvdN ≠ 0 → decode w = .error .rsvd) ∧
  (opField w = 1 → w &&& rsvdK ≠ 0 → decode w = .error .rsvd) ∧
  (opField w = 3 → w &&& rsvdB ≠ 0 → decode w = .error .rsvd) ∧
  (opField w = 5 → w &&& rsvdR ≠ 0 → decode w = .error .rsvd) := by
  rcases decode_cases w with ⟨h, e⟩ | ⟨h, e⟩ | ⟨h, e⟩ | ⟨h, e⟩ | ⟨h, e⟩ | ⟨h, e⟩ | ⟨h, e⟩ | ⟨h, e⟩
  case inr.inr.inr.inr.inr.inr.inr =>
    have : ∀ k : BitVec 8, k.toNat ≤ 6 → opField w ≠ k := by rintro k hk rfl; omega
    simp [e, this]
  all_goals
    rw [e]; simp [checkReserved_error, h]

/-- A number in the opcode place is that opcode. -/
theorem opField_of_shift {w : Word} {n : Nat} (h : (w >>> 24).toNat = n) : opField w = BitVec.ofNat 8 n := by
  rw [shift_eq_opField] at h; apply BitVec.eq_of_toNat_eq; simp [h]; omega

/-- A field that is not 0 meets every mask that covers it. -/
theorem and_ne_zero_of_field (w : Word) (lo n : Nat) (m : Word) (hm : ∀ i < n, m.getLsbD (lo + i) = true)
    (h : w.extractLsb' lo n ≠ 0) : w &&& m ≠ 0 := by
  intro hz; apply h; apply BitVec.eq_of_getLsbD_eq; intro i hi
  have := congrArg (fun x => BitVec.getLsbD x (lo+i)) hz
  simp [hm i hi] at this
  simp [hi, this]

end Sys2Proof
end

