-- ==== Sys2Proof/Laws/State.lean ====
section
/-!
SUPPORT. What each shared update of the state leaves in each field: one lemma per field and update, so that no later proof
unfolds a record update.
-/

namespace Sys2Proof.Machine

variable (s : State)

/-! ### respond -/

@[simp] theorem State.respond_config (w : Word) : (s.respond w).config = s.config := rfl
@[simp] theorem State.respond_KEY (w : Word) : (s.respond w).KEY = s.KEY := rfl
@[simp] theorem State.respond_S (w : Word) : (s.respond w).S = s.S := rfl
@[simp] theorem State.respond_IDX (w : Word) : (s.respond w).IDX = s.IDX := rfl
@[simp] theorem State.respond_LASTOUT (w : Word) : (s.respond w).LASTOUT = s.LASTOUT := rfl
@[simp] theorem State.respond_LASTOBS (w : Word) : (s.respond w).LASTOBS = s.LASTOBS := rfl
@[simp] theorem State.respond_ERR (w : Word) : (s.respond w).ERR = s.ERR := rfl
@[simp] theorem State.respond_ERRCODE (w : Word) : (s.respond w).ERRCODE = s.ERRCODE := rfl
@[simp] theorem State.respond_SAT (w : Word) : (s.respond w).SAT = s.SAT := rfl
@[simp] theorem State.respond_RESVALID (w : Word) : (s.respond w).RESVALID = s.RESVALID := rfl
@[simp] theorem State.respond_VERDICT (w : Word) : (s.respond w).VERDICT = s.VERDICT := rfl
@[simp] theorem State.respond_STAT (w : Word) : (s.respond w).STAT = s.STAT := rfl
@[simp] theorem State.respond_acc (w : Word) : (s.respond w).acc = s.acc := rfl
@[simp] theorem State.respond_evalLeft (w : Word) : (s.respond w).evalLeft = s.evalLeft := rfl
@[simp] theorem State.respond_afterReset (w : Word) : (s.respond w).afterReset = s.afterReset := rfl
@[simp] theorem State.respond_rsp (w : Word) : (s.respond w).rsp = some { data := w, err := false } := rfl
@[simp] theorem State.respond_pins (w : Word) : (s.respond w).pins = s.pins := rfl
@[simp] theorem State.respond_draws (w : Word) : (s.respond w).draws = s.draws := rfl

/-! ### raise -/

@[simp] theorem State.raise_config (e : CmdError) : (s.raise e).config = s.config := rfl
@[simp] theorem State.raise_KEY (e : CmdError) : (s.raise e).KEY = s.KEY := rfl
@[simp] theorem State.raise_S (e : CmdError) : (s.raise e).S = s.S := rfl
@[simp] theorem State.raise_IDX (e : CmdError) : (s.raise e).IDX = s.IDX := rfl
@[simp] theorem State.raise_LASTOUT (e : CmdError) : (s.raise e).LASTOUT = s.LASTOUT := rfl
@[simp] theorem State.raise_LASTOBS (e : CmdError) : (s.raise e).LASTOBS = s.LASTOBS := rfl
@[simp] theorem State.raise_ERR (e : CmdError) : (s.raise e).ERR = true := rfl
@[simp] theorem State.raise_ERRCODE (e : CmdError) : (s.raise e).ERRCODE = if s.ERR then s.ERRCODE else e.code := rfl
@[simp] theorem State.raise_SAT (e : CmdError) : (s.raise e).SAT = s.SAT := rfl
@[simp] theorem State.raise_RESVALID (e : CmdError) : (s.raise e).RESVALID = s.RESVALID := rfl
@[simp] theorem State.raise_VERDICT (e : CmdError) : (s.raise e).VERDICT = s.VERDICT := rfl
@[simp] theorem State.raise_STAT (e : CmdError) : (s.raise e).STAT = s.STAT := rfl
@[simp] theorem State.raise_acc (e : CmdError) : (s.raise e).acc = s.acc := rfl
@[simp] theorem State.raise_evalLeft (e : CmdError) : (s.raise e).evalLeft = s.evalLeft := rfl
@[simp] theorem State.raise_afterReset (e : CmdError) : (s.raise e).afterReset = s.afterReset := rfl
@[simp] theorem State.raise_rsp (e : CmdError) : (s.raise e).rsp = some { data := e.code.zeroExtend 32, err := true } := rfl
@[simp] theorem State.raise_pins (e : CmdError) : (s.raise e).pins = s.pins := rfl
@[simp] theorem State.raise_draws (e : CmdError) : (s.raise e).draws = s.draws := rfl

/-! ### clearError -/

@[simp] theorem State.clearError_config : s.clearError.config = s.config := rfl
@[simp] theorem State.clearError_KEY : s.clearError.KEY = s.KEY := rfl
@[simp] theorem State.clearError_S : s.clearError.S = s.S := rfl
@[simp] theorem State.clearError_IDX : s.clearError.IDX = s.IDX := rfl
@[simp] theorem State.clearError_LASTOUT : s.clearError.LASTOUT = s.LASTOUT := rfl
@[simp] theorem State.clearError_LASTOBS : s.clearError.LASTOBS = s.LASTOBS := rfl
@[simp] theorem State.clearError_ERR : s.clearError.ERR = false := rfl
@[simp] theorem State.clearError_ERRCODE : s.clearError.ERRCODE = 0 := rfl
@[simp] theorem State.clearError_SAT : s.clearError.SAT = s.SAT := rfl
@[simp] theorem State.clearError_RESVALID : s.clearError.RESVALID = s.RESVALID := rfl
@[simp] theorem State.clearError_VERDICT : s.clearError.VERDICT = s.VERDICT := rfl
@[simp] theorem State.clearError_STAT : s.clearError.STAT = s.STAT := rfl
@[simp] theorem State.clearError_acc : s.clearError.acc = s.acc := rfl
@[simp] theorem State.clearError_evalLeft : s.clearError.evalLeft = s.evalLeft := rfl
@[simp] theorem State.clearError_afterReset : s.clearError.afterReset = s.afterReset := rfl
@[simp] theorem State.clearError_rsp : s.clearError.rsp = s.rsp := rfl
@[simp] theorem State.clearError_pins : s.clearError.pins = s.pins := rfl
@[simp] theorem State.clearError_draws : s.clearError.draws = s.draws := rfl

/-! ### reseed -/

@[simp] theorem State.reseed_config : s.reseed.config = s.config := rfl
@[simp] theorem State.reseed_KEY : s.reseed.KEY = s.KEY := rfl
@[simp] theorem State.reseed_S : s.reseed.S = s.KEY := rfl
@[simp] theorem State.reseed_IDX : s.reseed.IDX = 0 := rfl
@[simp] theorem State.reseed_LASTOUT : s.reseed.LASTOUT = 0 := rfl
@[simp] theorem State.reseed_LASTOBS : s.reseed.LASTOBS = 0 := rfl
@[simp] theorem State.reseed_ERR : s.reseed.ERR = s.ERR := rfl
@[simp] theorem State.reseed_ERRCODE : s.reseed.ERRCODE = s.ERRCODE := rfl
@[simp] theorem State.reseed_SAT : s.reseed.SAT = false := rfl
@[simp] theorem State.reseed_RESVALID : s.reseed.RESVALID = false := rfl
@[simp] theorem State.reseed_VERDICT : s.reseed.VERDICT = 0 := rfl
@[simp] theorem State.reseed_STAT : s.reseed.STAT = Vector.replicate 8 0 := rfl
@[simp] theorem State.reseed_acc : s.reseed.acc = Accumulators.clear := rfl
@[simp] theorem State.reseed_evalLeft : s.reseed.evalLeft = s.evalLeft := rfl
@[simp] theorem State.reseed_afterReset : s.reseed.afterReset = s.afterReset := rfl
@[simp] theorem State.reseed_rsp : s.reseed.rsp = s.rsp := rfl
@[simp] theorem State.reseed_pins : s.reseed.pins = s.pins := rfl
@[simp] theorem State.reseed_draws : s.reseed.draws = s.draws := rfl

/-! ### resetEdge -/

@[simp] theorem State.resetEdge_config : s.resetEdge.config = s.config := rfl
@[simp] theorem State.resetEdge_KEY : s.resetEdge.KEY = s.config.keyReset := rfl
@[simp] theorem State.resetEdge_S : s.resetEdge.S = s.config.keyReset := rfl
@[simp] theorem State.resetEdge_IDX : s.resetEdge.IDX = 0 := rfl
@[simp] theorem State.resetEdge_LASTOUT : s.resetEdge.LASTOUT = 0 := rfl
@[simp] theorem State.resetEdge_LASTOBS : s.resetEdge.LASTOBS = 0 := rfl
@[simp] theorem State.resetEdge_ERR : s.resetEdge.ERR = false := rfl
@[simp] theorem State.resetEdge_ERRCODE : s.resetEdge.ERRCODE = 0 := rfl
@[simp] theorem State.resetEdge_SAT : s.resetEdge.SAT = false := rfl
@[simp] theorem State.resetEdge_RESVALID : s.resetEdge.RESVALID = false := rfl
@[simp] theorem State.resetEdge_VERDICT : s.resetEdge.VERDICT = 0 := rfl
@[simp] theorem State.resetEdge_STAT : s.resetEdge.STAT = Vector.replicate 8 0 := rfl
@[simp] theorem State.resetEdge_acc : s.resetEdge.acc = Accumulators.clear := rfl
@[simp] theorem State.resetEdge_evalLeft : s.resetEdge.evalLeft = 0 := rfl
@[simp] theorem State.resetEdge_afterReset : s.resetEdge.afterReset = s.afterReset := rfl
@[simp] theorem State.resetEdge_rsp : s.resetEdge.rsp = none := rfl
@[simp] theorem State.resetEdge_pins : s.resetEdge.pins = s.pins := rfl
@[simp] theorem State.resetEdge_draws : s.resetEdge.draws = s.draws := rfl

/-! ### writeS -/

@[simp] theorem State.writeS_config (i : BitVec 3) (v : Byte) : (s.writeS i v).config = s.config := rfl
@[simp] theorem State.writeS_KEY (i : BitVec 3) (v : Byte) : (s.writeS i v).KEY = s.KEY := rfl
@[simp] theorem State.writeS_S (i : BitVec 3) (v : Byte) : (s.writeS i v).S = s.S.set (slot i 0) v := rfl
@[simp] theorem State.writeS_IDX (i : BitVec 3) (v : Byte) : (s.writeS i v).IDX = s.IDX := rfl
@[simp] theorem State.writeS_LASTOUT (i : BitVec 3) (v : Byte) : (s.writeS i v).LASTOUT = s.LASTOUT := rfl
@[simp] theorem State.writeS_LASTOBS (i : BitVec 3) (v : Byte) : (s.writeS i v).LASTOBS = s.LASTOBS := rfl
@[simp] theorem State.writeS_ERR (i : BitVec 3) (v : Byte) : (s.writeS i v).ERR = s.ERR := rfl
@[simp] theorem State.writeS_ERRCODE (i : BitVec 3) (v : Byte) : (s.writeS i v).ERRCODE = s.ERRCODE := rfl
@[simp] theorem State.writeS_SAT (i : BitVec 3) (v : Byte) : (s.writeS i v).SAT = s.SAT := rfl
@[simp] theorem State.writeS_RESVALID (i : BitVec 3) (v : Byte) : (s.writeS i v).RESVALID = s.RESVALID := rfl
@[simp] theorem State.writeS_VERDICT (i : BitVec 3) (v : Byte) : (s.writeS i v).VERDICT = s.VERDICT := rfl
@[simp] theorem State.writeS_STAT (i : BitVec 3) (v : Byte) : (s.writeS i v).STAT = s.STAT := rfl
@[simp] theorem State.writeS_acc (i : BitVec 3) (v : Byte) : (s.writeS i v).acc = s.acc := rfl
@[simp] theorem State.writeS_evalLeft (i : BitVec 3) (v : Byte) : (s.writeS i v).evalLeft = s.evalLeft := rfl
@[simp] theorem State.writeS_afterReset (i : BitVec 3) (v : Byte) : (s.writeS i v).afterReset = s.afterReset := rfl
@[simp] theorem State.writeS_rsp (i : BitVec 3) (v : Byte) : (s.writeS i v).rsp = s.rsp := rfl
@[simp] theorem State.writeS_pins (i : BitVec 3) (v : Byte) : (s.writeS i v).pins = s.pins := rfl
@[simp] theorem State.writeS_draws (i : BitVec 3) (v : Byte) : (s.writeS i v).draws = s.draws := rfl

/-! ### writeKey -/

@[simp] theorem State.writeKey_config (j : BitVec 3) (v : Byte) : (s.writeKey j v).config = s.config := rfl
@[simp] theorem State.writeKey_KEY (j : BitVec 3) (v : Byte) : (s.writeKey j v).KEY = s.KEY.set (slot j 0) v := rfl
@[simp] theorem State.writeKey_S (j : BitVec 3) (v : Byte) : (s.writeKey j v).S = s.S := rfl
@[simp] theorem State.writeKey_IDX (j : BitVec 3) (v : Byte) : (s.writeKey j v).IDX = s.IDX := rfl
@[simp] theorem State.writeKey_LASTOUT (j : BitVec 3) (v : Byte) : (s.writeKey j v).LASTOUT = s.LASTOUT := rfl
@[simp] theorem State.writeKey_LASTOBS (j : BitVec 3) (v : Byte) : (s.writeKey j v).LASTOBS = s.LASTOBS := rfl
@[simp] theorem State.writeKey_ERR (j : BitVec 3) (v : Byte) : (s.writeKey j v).ERR = s.ERR := rfl
@[simp] theorem State.writeKey_ERRCODE (j : BitVec 3) (v : Byte) : (s.writeKey j v).ERRCODE = s.ERRCODE := rfl
@[simp] theorem State.writeKey_SAT (j : BitVec 3) (v : Byte) : (s.writeKey j v).SAT = s.SAT := rfl
@[simp] theorem State.writeKey_RESVALID (j : BitVec 3) (v : Byte) : (s.writeKey j v).RESVALID = s.RESVALID := rfl
@[simp] theorem State.writeKey_VERDICT (j : BitVec 3) (v : Byte) : (s.writeKey j v).VERDICT = s.VERDICT := rfl
@[simp] theorem State.writeKey_STAT (j : BitVec 3) (v : Byte) : (s.writeKey j v).STAT = s.STAT := rfl
@[simp] theorem State.writeKey_acc (j : BitVec 3) (v : Byte) : (s.writeKey j v).acc = s.acc := rfl
@[simp] theorem State.writeKey_evalLeft (j : BitVec 3) (v : Byte) : (s.writeKey j v).evalLeft = s.evalLeft := rfl
@[simp] theorem State.writeKey_afterReset (j : BitVec 3) (v : Byte) : (s.writeKey j v).afterReset = s.afterReset := rfl
@[simp] theorem State.writeKey_rsp (j : BitVec 3) (v : Byte) : (s.writeKey j v).rsp = s.rsp := rfl
@[simp] theorem State.writeKey_pins (j : BitVec 3) (v : Byte) : (s.writeKey j v).pins = s.pins := rfl
@[simp] theorem State.writeKey_draws (j : BitVec 3) (v : Byte) : (s.writeKey j v).draws = s.draws := rfl

/-! ### advance -/

@[simp] theorem State.advance_config : s.advance.config = s.config := rfl
@[simp] theorem State.advance_KEY : s.advance.KEY = s.KEY := rfl
@[simp] theorem State.advance_S : s.advance.S = s.S.set (slot (s.IDX + 7) 0) s.fb1 := rfl
@[simp] theorem State.advance_IDX : s.advance.IDX = s.IDX + 7 := rfl
@[simp] theorem State.advance_LASTOUT : s.advance.LASTOUT = s.LASTOUT := rfl
@[simp] theorem State.advance_LASTOBS : s.advance.LASTOBS = s.LASTOBS := rfl
@[simp] theorem State.advance_ERR : s.advance.ERR = s.ERR := rfl
@[simp] theorem State.advance_ERRCODE : s.advance.ERRCODE = s.ERRCODE := rfl
@[simp] theorem State.advance_SAT : s.advance.SAT = s.SAT := rfl
@[simp] theorem State.advance_RESVALID : s.advance.RESVALID = s.RESVALID := rfl
@[simp] theorem State.advance_VERDICT : s.advance.VERDICT = s.VERDICT := rfl
@[simp] theorem State.advance_STAT : s.advance.STAT = s.STAT := rfl
@[simp] theorem State.advance_acc : s.advance.acc = s.acc := rfl
@[simp] theorem State.advance_evalLeft : s.advance.evalLeft = s.evalLeft := rfl
@[simp] theorem State.advance_afterReset : s.advance.afterReset = s.afterReset := rfl
@[simp] theorem State.advance_rsp : s.advance.rsp = s.rsp := rfl
@[simp] theorem State.advance_pins : s.advance.pins = s.pins := rfl
@[simp] theorem State.advance_draws : s.advance.draws = s.draws := rfl

/-! ### popPins -/

@[simp] theorem State.popPins_config : s.popPins.config = s.config := rfl
@[simp] theorem State.popPins_KEY : s.popPins.KEY = s.KEY := rfl
@[simp] theorem State.popPins_S : s.popPins.S = s.S := rfl
@[simp] theorem State.popPins_IDX : s.popPins.IDX = s.IDX := rfl
@[simp] theorem State.popPins_LASTOUT : s.popPins.LASTOUT = s.LASTOUT := rfl
@[simp] theorem State.popPins_LASTOBS : s.popPins.LASTOBS = s.LASTOBS := rfl
@[simp] theorem State.popPins_ERR : s.popPins.ERR = s.ERR := rfl
@[simp] theorem State.popPins_ERRCODE : s.popPins.ERRCODE = s.ERRCODE := rfl
@[simp] theorem State.popPins_SAT : s.popPins.SAT = s.SAT := rfl
@[simp] theorem State.popPins_RESVALID : s.popPins.RESVALID = s.RESVALID := rfl
@[simp] theorem State.popPins_VERDICT : s.popPins.VERDICT = s.VERDICT := rfl
@[simp] theorem State.popPins_STAT : s.popPins.STAT = s.STAT := rfl
@[simp] theorem State.popPins_acc : s.popPins.acc = s.acc := rfl
@[simp] theorem State.popPins_evalLeft : s.popPins.evalLeft = s.evalLeft := rfl
@[simp] theorem State.popPins_afterReset : s.popPins.afterReset = s.nextPins.rst := rfl
@[simp] theorem State.popPins_rsp : s.popPins.rsp = s.rsp := rfl
@[simp] theorem State.popPins_pins : s.popPins.pins = s.pins.tail := rfl
@[simp] theorem State.popPins_draws : s.popPins.draws = s.draws := rfl

/-! ### steAccumulate -/

@[simp] theorem State.steAccumulate_config (x : Byte) : (s.steAccumulate x).config = s.config := by
  unfold State.steAccumulate; split <;> rfl
@[simp] theorem State.steAccumulate_KEY (x : Byte) : (s.steAccumulate x).KEY = s.KEY := by
  unfold State.steAccumulate; split <;> rfl
@[simp] theorem State.steAccumulate_S (x : Byte) : (s.steAccumulate x).S = s.S := by
  unfold State.steAccumulate; split <;> rfl
@[simp] theorem State.steAccumulate_IDX (x : Byte) : (s.steAccumulate x).IDX = s.IDX := by
  unfold State.steAccumulate; split <;> rfl
@[simp] theorem State.steAccumulate_LASTOUT (x : Byte) : (s.steAccumulate x).LASTOUT = s.LASTOUT := by
  unfold State.steAccumulate; split <;> rfl
@[simp] theorem State.steAccumulate_LASTOBS (x : Byte) : (s.steAccumulate x).LASTOBS = s.LASTOBS := by
  unfold State.steAccumulate; split <;> rfl
@[simp] theorem State.steAccumulate_ERR (x : Byte) : (s.steAccumulate x).ERR = s.ERR := by
  unfold State.steAccumulate; split <;> rfl
@[simp] theorem State.steAccumulate_ERRCODE (x : Byte) : (s.steAccumulate x).ERRCODE = s.ERRCODE := by
  unfold State.steAccumulate; split <;> rfl
@[simp] theorem State.steAccumulate_RESVALID (x : Byte) : (s.steAccumulate x).RESVALID = s.RESVALID := by
  unfold State.steAccumulate; split <;> rfl
@[simp] theorem State.steAccumulate_VERDICT (x : Byte) : (s.steAccumulate x).VERDICT = s.VERDICT := by
  unfold State.steAccumulate; split <;> rfl
@[simp] theorem State.steAccumulate_STAT (x : Byte) : (s.steAccumulate x).STAT = s.STAT := by
  unfold State.steAccumulate; split <;> rfl
@[simp] theorem State.steAccumulate_evalLeft (x : Byte) : (s.steAccumulate x).evalLeft = s.evalLeft := by
  unfold State.steAccumulate; split <;> rfl
@[simp] theorem State.steAccumulate_afterReset (x : Byte) : (s.steAccumulate x).afterReset = s.afterReset := by
  unfold State.steAccumulate; split <;> rfl
@[simp] theorem State.steAccumulate_rsp (x : Byte) : (s.steAccumulate x).rsp = s.rsp := by
  unfold State.steAccumulate; split <;> rfl
@[simp] theorem State.steAccumulate_pins (x : Byte) : (s.steAccumulate x).pins = s.pins := by
  unfold State.steAccumulate; split <;> rfl
@[simp] theorem State.steAccumulate_draws (x : Byte) : (s.steAccumulate x).draws = s.draws := by
  unfold State.steAccumulate; split <;> rfl

/-- Below OBS_MAX a byte goes through the engines; at OBS_MAX nothing of them changes (R120, R121). -/
@[simp] theorem State.steAccumulate_acc (x : Byte) :
    (s.steAccumulate x).acc = if s.acc.N.toNat = Config.obsMax then s.acc else s.acc.accumulate x := by
  unfold State.steAccumulate; split <;> rfl

/-- SAT is set by a byte that arrives at OBS_MAX, and by nothing else here (R121). -/
@[simp] theorem State.steAccumulate_SAT (x : Byte) :
    (s.steAccumulate x).SAT = if s.acc.N.toNat = Config.obsMax then true else s.SAT := by
  unfold State.steAccumulate; split <;> rfl

/-! ### Reading S -/

@[simp] theorem State.readS_respond (w : Word) (i : BitVec 3) (k : Nat) : (s.respond w).readS i k = s.readS i k := rfl

/-- Reading S after writing it: the written slot gives the byte, every other slot what it gave before. -/
theorem State.readS_writeS (i j : BitVec 3) (k : Nat) (v : Byte) :
    (s.writeS i v).readS j k = if slot i 0 = slot j k then v else s.readS j k := by
  simp [State.readS, Vector.getElem_set, Fin.ext_iff]

end Sys2Proof.Machine
end

