-- ==== Sys2Proof/Laws/Evaluate.lean ====
section
/-!
SUPPORT. EVAL said once: everything its next state holds, and what each slot holds. Later proofs cite these and do not
unfold the command.
-/

namespace Sys2Proof.Machine

/-- What holds of slots 0, 1, 2, of the four lags and of slot 7 holds of every slot (R152). -/
theorem forall_slot {P : Fin 8 → Prop} (h0 : P 0) (h1 : P 1) (h2 : P 2) (h3 : ∀ l : Fin 4, P ⟨l.val + 3, by omega⟩)
    (h7 : P 7) (k : Fin 8) : P k := by
  fin_cases k
  · exact h0
  · exact h1
  · exact h2
  · exact h3 0
  · exact h3 1
  · exact h3 2
  · exact h3 3
  · exact h7

/-- Each slot of a packed VERDICT is its test's code (R161). -/
theorem verdictSlot_packVerdict (v : Fin 8 → Verdict) (k : Fin 8) : verdictSlot (packVerdict v) k = (v k).code := by
  apply BitVec.eq_of_getLsbD_eq
  intro j hj
  simp only [verdictSlot, packVerdict, BitVec.getLsbD_extractLsb', BitVec.getLsbD_setWidth, BitVec.getLsbD_append,
    BitVec.truncate_eq_setWidth]
  fin_cases k <;> interval_cases j <;> simp

/-- Everything an EVAL does (R150, R151): it always has a next state, whose fields are these. -/
theorem execEval_spec (s : State) :
    ∃ t, exec .eval s = .next t
      ∧ (∀ k : Fin 8, verdictSlot t.VERDICT k = (s.slots[k]).1.code) ∧ (∀ k : Fin 8, t.STAT[k] = (s.slots[k]).2)
      ∧ t.RESVALID = true ∧ t.rsp = some ⟨t.VERDICT, false⟩
      ∧ t.KEY = s.KEY ∧ t.S = s.S ∧ t.IDX = s.IDX ∧ t.LASTOUT = s.LASTOUT ∧ t.LASTOBS = s.LASTOBS
      ∧ t.ERR = s.ERR ∧ t.ERRCODE = s.ERRCODE ∧ t.SAT = s.SAT ∧ t.acc = s.acc
      ∧ t.config = s.config ∧ t.evalLeft = s.evalLeft ∧ t.afterReset = s.afterReset ∧ t.pins = s.pins
      ∧ t.draws = s.draws + 1 := by
  refine ⟨_, rfl, ?_⟩
  simp [State.respond, verdictSlot_packVerdict]

/-- After saturation every slot is OVERFLOW without a statistic (R153). -/
theorem slots_sat (s : State) (h : s.SAT = true) (k : Fin 8) : s.slots[k] = (.overflow, 0) := by
  simp [State.slots, h]

/-- Without saturation each slot is its test (R152). -/
theorem slots_eq (s : State) (h : s.SAT = false) :
    s.slots[(0 : Fin 8)] = ((frequencyTest s.acc).verdict, (frequencyTest s.acc).readout)
    ∧ s.slots[(1 : Fin 8)] = ((serialTest s.acc).verdict, (serialTest s.acc).readout)
    ∧ s.slots[(2 : Fin 8)] = ((runsTest s.acc).verdict, (runsTest s.acc).readout)
    ∧ (∀ l : Fin 4, s.slots[(⟨l.val + 3, by omega⟩ : Fin 8)] = ((autoTest s.acc l).verdict, (autoTest s.acc l).readout))
    ∧ s.slots[(7 : Fin 8)] = universalTest s.config.univBand s.acc s.draws := by
  simp only [State.slots, h]
  refine ⟨rfl, rfl, rfl, fun l => ?_, rfl⟩
  fin_cases l <;> rfl

@[simp] theorem judge_code_pass (b : Bool) : (Verdict.judge b).code = 1 ↔ b = true := by cases b <;> decide
@[simp] theorem judge_code_fail (b : Bool) : (Verdict.judge b).code = 2 ↔ b = false := by cases b <;> decide

/-- The readout of a test that computed a statistic (R162). -/
@[simp] theorem judged_readout (b : Bool) (q : ℚ) : (TestResult.judged b q).readout = fixedPoint q := by
  cases b <;> rfl

@[simp] theorem insufficient_readout : TestResult.insufficient.readout = 0 := rfl

@[simp] theorem judged_verdict (b : Bool) (q : ℚ) : (TestResult.judged b q).verdict = Verdict.judge b := rfl

/-- A universal verdict is PASS or FAIL once there are test symbols (R159). -/
theorem univVerdict_cases (b : Band) (p : ℕ+) (K : Nat) (draw : Bool) :
    univVerdict b p K draw = .pass ∨ univVerdict b p K draw = .fail := by
  have judge : ∀ c : Bool, Verdict.judge c = .pass ∨ Verdict.judge c = .fail := by decide
  unfold univVerdict
  split
  · exact .inl rfl
  · exact .inr rfl
  · exact judge _
  · exact judge _

/-- Every slot has a code from 1 to 4, and 0 for its statistic unless the code is PASS or FAIL (R160, R162). -/
theorem slots_codes (s : State) (k : Fin 8) :
    1 ≤ ((s.slots[k]).1.code).toNat ∧ ((s.slots[k]).1.code).toNat ≤ 4
      ∧ ((s.slots[k]).1.code ≠ 1 → (s.slots[k]).1.code ≠ 2 → (s.slots[k]).2 = 0) := by
  cases hs : s.SAT with
  | true => rw [slots_sat s hs]; decide
  | false =>
    obtain ⟨h0, h1, h2, h3, h7⟩ := slots_eq s hs
    have result : ∀ r : TestResult, r = .insufficient ∨ (∃ b q, r = .judged b q) →
        1 ≤ (r.verdict.code).toNat ∧ (r.verdict.code).toNat ≤ 4
          ∧ (r.verdict.code ≠ 1 → r.verdict.code ≠ 2 → r.readout = 0) := by
      rintro r (rfl | ⟨b, q, rfl⟩)
      · decide
      · cases b <;> simp [Verdict.judge, Verdict.code]
    revert k
    apply forall_slot
    · rw [h0]; apply result; unfold frequencyTest; split; exact .inl rfl; exact .inr ⟨_, _, rfl⟩
    · rw [h1]; apply result; unfold serialTest; split; exact .inl rfl; exact .inr ⟨_, _, rfl⟩
    · rw [h2]; apply result; unfold runsTest; split; exact .inl rfl; exact .inr ⟨_, _, rfl⟩
    · intro l; rw [h3]; apply result; unfold autoTest; split; exact .inl rfl; exact .inr ⟨_, _, rfl⟩
    · rw [h7]; unfold universalTest
      split
      · decide
      · dsimp only
        rcases univVerdict_cases s.config.univBand s.acc.USUMEXP (s.acc.N.toNat - Config.univInit)
          (Config.verdictDraw s.draws) with h | h <;> rw [h] <;> simp [Verdict.code]

end Sys2Proof.Machine
end

