-- ==== Sys2Proof/Laws/Keystream.lean ====
section
/-!
SUPPORT. STEP said once: everything its next state holds, and the index arithmetic of S. Later proofs cite these and do
not unfold the command.
-/

namespace Sys2Proof.Machine

/-- The offset-0 slot of a counter is the counter. -/
@[simp] theorem slot_zero_val (i : BitVec 3) : (slot i 0).val = i.toNat := by
  simp [slot]; omega

@[simp] theorem slot_val (i : BitVec 3) (k : Nat) : (slot i k).val = (i.toNat + k) % 8 := rfl

/-- Two offsets name one slot exactly when they agree modulo 8. -/
theorem slot_eq_iff (i : BitVec 3) (k l : Nat) : slot i k = slot i l ↔ k % 8 = l % 8 := by
  simp only [Fin.ext_iff, slot_val]; omega

/-- R105: the counter moves from i to (i + 7) mod 8. -/
theorem idx_step_toNat (i : BitVec 3) : (i + 7).toNat = (i.toNat + 7) % 8 := by
  simp [BitVec.toNat_add]

/-- The keystream byte of a state, in the slots it reads (R107, R108). -/
theorem fb2_eq (s : State) :
    s.fb2 = feedback2 (pack (s.S[slot s.IDX 0]) (s.S[slot s.IDX 2])) (pack (s.S[slot s.IDX 4]) (s.S[slot s.IDX 7])) :=
  rfl

/-- Everything a STEP does (R102): it always has a next state, whose fields are these. -/
theorem execStep_spec (v : Byte) (s : State) :
    ∃ t, exec (.step v) s = .next t
      ∧ t.S = s.S.set (slot (s.IDX + 7) 0) s.fb1 ∧ t.IDX = s.IDX + 7
      ∧ t.LASTOBS = s.fb1 ∧ t.LASTOUT = v ^^^ t.fb2
      ∧ t.rsp = some ⟨stepResponse t.IDX t.LASTOBS t.LASTOUT, false⟩
      ∧ t.acc = (if s.acc.N.toNat = Config.obsMax then s.acc else s.acc.accumulate s.fb1)
      ∧ t.SAT = (if s.acc.N.toNat = Config.obsMax then true else s.SAT)
      ∧ t.KEY = s.KEY ∧ t.ERR = s.ERR ∧ t.ERRCODE = s.ERRCODE
      ∧ t.VERDICT = s.VERDICT ∧ t.STAT = s.STAT ∧ t.RESVALID = s.RESVALID
      ∧ t.config = s.config ∧ t.evalLeft = s.evalLeft ∧ t.afterReset = s.afterReset ∧ t.pins = s.pins
      ∧ t.draws = s.draws := by
  refine ⟨_, rfl, ?_⟩
  simp [State.respond, State.fb2, State.readS]

/-- The observation byte depends on S and IDX only (R112). -/
theorem fb1_congr {s t : State} (hS : s.S = t.S) (hI : s.IDX = t.IDX) : s.fb1 = t.fb1 := by
  simp [State.fb1, State.readS, hS, hI]

/-- The keystream byte depends on S and IDX only (R112). -/
theorem fb2_congr {s t : State} (hS : s.S = t.S) (hI : s.IDX = t.IDX) : s.fb2 = t.fb2 := by
  simp [State.fb2, State.readS, hS, hI]

/-- The fields of a STEP's response word (R109). -/
theorem stepResponse_fields (i : BitVec 3) (x out : Byte) :
    (stepResponse i x out).extractLsb' 0 8 = out ∧ (stepResponse i x out).extractLsb' 8 8 = x
      ∧ (stepResponse i x out).extractLsb' 16 3 = i ∧ (stepResponse i x out).extractLsb' 19 13 = 0 := by
  refine ⟨?_, ?_, ?_, ?_⟩ <;>
  · apply BitVec.eq_of_getLsbD_eq
    intro k hk
    simp only [stepResponse, BitVec.getLsbD_extractLsb', BitVec.getLsbD_setWidth, BitVec.getLsbD_append]
    interval_cases k <;> simp

/-- The wide product of two sign-extended words is their exact product (R108). -/
theorem sext16_prod (A B : BitVec 16) : (sext16 A * sext16 B) = BitVec.ofInt 32 (A.toInt * B.toInt) := by
  have h : ∀ A : BitVec 16, sext16 A = BitVec.ofInt 32 A.toInt := by
    intro A; rw [sext16, BitVec.signExtend]
  rw [h, h, ← BitVec.ofInt_mul]

/-- The keystream byte is bits 15:8 of the exact product (R108). -/
theorem feedback2_eq_extract (A B : BitVec 16) :
    feedback2 A B = (BitVec.ofInt 32 (A.toInt * B.toInt)).extractLsb' 8 8 := by
  rw [feedback2, sext16_prod]
  apply BitVec.eq_of_getLsbD_eq; intro k hk
  simp [BitVec.getLsbD_sshiftRight, hk, show 8 + k < 32 by omega]; omega

/-- Bits 15:8 of the signed and of the unsigned product agree (R111). -/
theorem extract_product_unsigned (A B : BitVec 16) :
    (BitVec.ofInt 32 (A.toInt * B.toInt)).extractLsb' 8 8 = (A * B).extractLsb' 8 8 := by
  have hA : (A.toNat : ℤ) % 65536 = A.toInt % 65536 := by rw [BitVec.toInt_eq_toNat_cond]; split <;> omega
  have hB : (B.toNat : ℤ) % 65536 = B.toInt % 65536 := by rw [BitVec.toInt_eq_toNat_cond]; split <;> omega
  have h : (A.toInt * B.toInt) % 65536 = ((A * B).toNat : ℤ) := by
    rw [Int.mul_emod, ← hA, ← hB, ← Int.mul_emod, BitVec.toNat_mul]; push_cast; rfl
  apply BitVec.eq_of_toNat_eq
  simp only [BitVec.extractLsb'_toNat, BitVec.toNat_ofInt, Nat.shiftRight_eq_div_pow]
  generalize A.toInt * B.toInt = P at *
  generalize (A*B).toNat = Q at *
  omega

/-- The 16-bit pattern of two bytes as a number (R107). -/
theorem pack_toNat (hi lo : Byte) : (pack hi lo).toNat = packedNat hi lo := by
  have h : (sext8 hi <<< 8 ||| sext8 lo).setWidth 16 = (hi.setWidth 16 <<< 8) ||| lo.signExtend 16 := by
    apply BitVec.eq_of_getLsbD_eq; intro k hk
    simp only [sext8]
    interval_cases k <;> simp [BitVec.getElem_signExtend]
  have h2 : ∀ lo : Byte, lo.signExtend 16 =
      if 128 ≤ lo.toNat then 0xFF00#16 ||| lo.setWidth 16 else lo.setWidth 16 := by decide +kernel
  rw [pack, h, h2, packedNat]
  split
  · have h3 : ∀ lo : Byte, ∀ x : Byte,
        (x.setWidth 16 <<< 8) ||| (0xFF00#16 ||| lo.setWidth 16) = 0xFF00#16 ||| lo.setWidth 16 := by
      intro lo x; apply BitVec.eq_of_getLsbD_eq; intro k hk
      interval_cases k <;> simp
    rw [h3]
    have := Nat.two_pow_add_eq_or_of_lt lo.isLt 0xFF
    simp at this ⊢
    rw [Nat.mod_eq_of_lt (by omega)]; omega
  · have := Nat.two_pow_add_eq_or_of_lt lo.isLt hi.toNat
    simp [Nat.shiftLeft_eq] at this ⊢
    rw [Nat.mod_eq_of_lt (by omega : hi.toNat * 256 < 65536), mul_comm hi.toNat, this,
      Nat.mod_eq_of_lt (by omega : lo.toNat < 65536)]

/-! ### Runs of STEPs -/

/-- A run of STEPs, its first STEP taken off. -/
theorem xfer_cons (v : Byte) (vs : List Byte) (s t : State) (h : exec (.step v) s = .next t) : xfer (v :: vs) s = xfer vs t := by
  simp [xfer, execAll, h]

/-- The outputs of a run of STEPs, its first STEP taken off. -/
theorem outputs_cons (v : Byte) (vs : List Byte) (s t : State) (h : exec (.step v) s = .next t) :
    outputs (v :: vs) s = t.LASTOUT :: outputs vs t := by
  obtain ⟨t', h', hS, hI, hO, hL, hr, _⟩ := execStep_spec v s
  cases h.symm.trans h'
  simp [outputs, h, hr, stepResponse_fields]

/-- The observation bytes of a run of STEPs, its first STEP taken off. -/
theorem observed_cons (v : Byte) (vs : List Byte) (s t : State) (h : exec (.step v) s = .next t) :
    observed (v :: vs) s = t.LASTOBS :: observed vs t := by
  obtain ⟨t', h', hS, hI, hO, hL, hr, _⟩ := execStep_spec v s
  cases h.symm.trans h'
  simp [observed, h, hr, stepResponse_fields]

end Sys2Proof.Machine
end

