-- ==== Sys2Proof/Laws/Operands.lean ====
section
/-!
SUPPORT. The register read map: its addresses and its names agree, and which addresses have no name.
-/

namespace Sys2Proof.Machine

theorem arrayAt_eq_none (a base n : Nat) (f : Fin n → RegName) :
    arrayAt a base n f = none ↔ a < base ∨ base + n ≤ a := by
  unfold arrayAt; split
  · simp; omega
  · simp; omega

/-- The name at a register's address is the register: no two registers share an address (R62). -/
theorem regAt_addr (r : RegName) : regAt r.addr = some r := by
  cases r <;> first | rfl | (revert ‹Fin _›; decide +kernel)

theorem arrayAt_some {a base n : Nat} {f : Fin n → RegName} {r : RegName} (hf : ∀ k, (f k).addr = base + k.val)
    (h : arrayAt a base n f = some r) : a = r.addr := by
  unfold arrayAt at h; split at h
  · cases h; rw [hf]; simp; omega
  · cases h

/-- An address that names a register is that register's address (R62). -/
theorem regAt_some {a : Nat} {r : RegName} (h : regAt a = some r) : a = r.addr := by
  have hor : ∀ {x y : Option RegName}, (x <|> y) = some r → x = some r ∨ y = some r := by
    intro x y; cases x <;> simp +contextual
  unfold regAt at h
  repeat'
    replace h := hor h
    rcases h with h | h
    · refine arrayAt_some ?_ h
      intro k
      first | rfl | (split <;> simp only [RegName.addr] <;> omega) | (simp [RegName.addr])
  refine arrayAt_some ?_ h; intro k; rfl

/-- Every register's address fits the address field (R60). -/
theorem RegName.addr_lt (r : RegName) : r.addr < 4096 := by
  cases r <;> simp [RegName.addr] <;> omega

/-- The addresses without a register are those that no row of R62 maps (R63). -/
theorem regAt_eq_none (a : Nat) (ha : a < 4096) : regAt a = none ↔ unmapped a := by
  have h : ∀ x y : Option RegName, (x <|> y) = none ↔ x = none ∧ y = none := by
    intro x y; cases x <;> simp
  simp only [regAt, h, arrayAt_eq_none, unmapped]
  omega

/-- RDREG at a register's address answers the register's word (R191). -/
theorem reads_addr (r : RegName) (s : State) (w : Nat) (h : (readReg r s).toNat = w) : Reads s r.addr w := by
  refine ⟨s.respond (readReg r s), _, ?_, rfl, rfl, h⟩
  have : (BitVec.ofNat 12 r.addr).toNat = r.addr := by simp; exact r.addr_lt
  simp only [exec, execRdreg, this, regAt_addr]

/-- STATUS as a number (R26). -/
theorem statusWord_fields_toNat (b0 b1 b2 : Bool) (c : BitVec 3) :
  ((BitVec.ofBool b2 ++ BitVec.ofBool b1 ++ c ++ BitVec.ofBool b0).zeroExtend 32).toNat = 
   (if b0 then 1 else 0) + 2 * c.toNat + (if b1 then 16 else 0) + if b2 then 32 else 0 := by
  revert b0 b1 b2 c; decide +kernel

end Sys2Proof.Machine
end

