-- ==== Sys2Proof/Laws/PerInstr.lean ====
section
/-!
SUPPORT. The laws that are made for every command, one lemma per constructor.
-/

namespace Sys2Proof.Laws.Fields

/-- The opcode of a command (R87). -/
def opcode : Instr → BitVec 8
  | .nop => 0x00
  | .keyw _ _ => 0x01
  | .seed => 0x02
  | .step _ => 0x03
  | .eval => 0x04
  | .rdreg _ => 0x05
  | .clrerr => 0x06

/-- The reserved mask of a command's format (R82 to R85). -/
def reserved : Instr → Word
  | .nop => rsvdN
  | .keyw _ _ => rsvdK
  | .seed => rsvdN
  | .step _ => rsvdB
  | .eval => rsvdN
  | .rdreg _ => rsvdR
  | .clrerr => rsvdN

/-- A command's word has its opcode, no reserved bit, and its operands in their fields (R81). -/
def Statement (i : Instr) : Prop :=
  opField (encode i) = opcode i ∧ encode i &&& reserved i = 0
    ∧ match i with
      | .nop => True
      | .keyw j v => jField (encode (.keyw j v)) = j ∧ vField (encode (.keyw j v)) = v
      | .seed => True
      | .step v => vField (encode (.step v)) = v
      | .eval => True
      | .rdreg a => aField (encode (.rdreg a)) = a
      | .clrerr => True

theorem nop : Statement .nop := ⟨rfl, rfl, trivial⟩

theorem keyw (j : BitVec 3) (v : Byte) : Statement (.keyw j v) := by
  refine ⟨?_, ?_, ?_, ?_⟩ <;>
  · simp only [opField, jField, vField, encode, opcode, reserved, rsvdK]
    apply BitVec.eq_of_getLsbD_eq; intro k hk; interval_cases k <;> simp

theorem seed : Statement .seed := ⟨rfl, rfl, trivial⟩

theorem step (v : Byte) : Statement (.step v) := by
  refine ⟨?_, ?_, ?_⟩ <;>
  · simp only [opField, vField, encode, opcode, reserved, rsvdB]
    apply BitVec.eq_of_getLsbD_eq; intro k hk; interval_cases k <;> simp

theorem eval : Statement .eval := ⟨rfl, rfl, trivial⟩

theorem rdreg (a : BitVec 12) : Statement (.rdreg a) := by
  refine ⟨?_, ?_, ?_⟩ <;>
  · simp only [opField, aField, encode, opcode, reserved, rsvdR]
    apply BitVec.eq_of_getLsbD_eq; intro k hk; interval_cases k <;> simp

theorem clrerr : Statement .clrerr := ⟨rfl, rfl, trivial⟩

end Sys2Proof.Laws.Fields
end

