-- ==== Sys2Proof/Laws/Port.lean ====
section
/-!
SUPPORT. What one rising edge can do, said once (spec/70_reset_and_hazards.md R220, R227, R231): the case split on the
next edge, each case in the terms of Safety.lean. Later proofs cite it and do not unfold `step`.
-/

namespace Sys2Proof.Machine

/-- What RDREG does (R191, R200): a response at a register's address, ERR_ADDR elsewhere. -/
theorem execRdreg_cases (a : BitVec 12) (s : State) :
    (∃ r, regAt a.toNat = some r ∧ exec (.rdreg a) s = .next (s.respond (readReg r s))) ∨
      (regAt a.toNat = none ∧ exec (.rdreg a) s = .next (s.raise .addr)) := by
  simp only [exec, execRdreg]
  cases h : regAt a.toNat with
  | none => exact .inr ⟨rfl, rfl⟩
  | some r => exact .inl ⟨r, rfl, rfl⟩

/-- Every command answers a next state (R204). -/
theorem exec_next (i : Instr) (s : State) : ∃ t, exec i s = .next t := by
  cases i with
  | rdreg a =>
    obtain ⟨r, -, h⟩ | ⟨-, h⟩ := execRdreg_cases a s
    · exact ⟨_, h⟩
    · exact ⟨_, h⟩
  | _ => exact ⟨_, rfl⟩

/-- The port is ready exactly outside an EVAL in progress and outside a reset that lasts (R220, R227). -/
@[simp] theorem State.cmdReady_eq (s : State) (rst : Bool) :
    s.cmdReady rst = true ↔ s.evalLeft = 0 ∧ (rst = true → s.afterReset = false) := by
  cases rst <;> simp [State.cmdReady, State.evalBusy]

/-- Everything the next edge can be. -/
inductive StepCase (s t : State) : Prop where
  /-- A reset edge. -/
  | reset (h : Resets s) (ht : t = s.popPins.resetEdge)
  /-- An EVAL accepted before takes effect. -/
  | finish (h : ¬ Resets s) (hl : s.evalLeft = 1) (ht : exec .eval { s.popPins with evalLeft := 0 } = .next t)
  /-- An EVAL in progress waits. -/
  | wait (h : ¬ Resets s) (hl : 2 ≤ s.evalLeft) (ht : t = { s.popPins with evalLeft := s.evalLeft - 1, rsp := none })
  /-- The host presents nothing. -/
  | idle (h : ¬ Resets s) (hl : s.evalLeft = 0) (hv : s.nextPins.cmdValid = false) (ht : t = { s.popPins with rsp := none })
  /-- A word that does not decode is accepted. -/
  | error (w : Word) (e : CmdError) (h : Accepts s w) (hd : decode w = .error e) (ht : t = s.popPins.raise e)
  /-- A valid EVAL of several cycles is accepted. -/
  | start (w : Word) (h : Accepts s w) (hd : decode w = .ok .eval) (hc : 1 < (s.config.evalCycles : ℕ))
      (ht : t = { s.popPins with evalLeft := (s.config.evalCycles : ℕ) - 1, rsp := none })
  /-- A command is accepted and takes effect. -/
  | run (w : Word) (i : Instr) (h : Accepts s w) (hd : decode w = .ok i) (hw : waits i s = false)
      (ht : exec i s.popPins = .next t)

/-- The next edge is one of the seven cases. -/
theorem step_cases {s t : State} (h : step s = .next t) : StepCase s t := by
  unfold step edge at h
  split at h
  · exact .reset ‹_› (by simpa [eq_comm] using h)
  have hr : s.nextPins.rst = false := by simpa using ‹¬ s.nextPins.rst = true›
  have hr' : ¬ Resets s := by simp [Resets, hr]
  split at h
  · exact .finish hr' ‹_› h
  split at h
  · rename_i h1 h0
    exact .wait hr' (by simp at h0 h1; omega) (by simpa [eq_comm] using h)
  rename_i h0
  have hl : s.evalLeft = 0 := by simpa using h0
  split at h
  · have ha : Accepts s s.nextPins.cmd := ⟨hr, ‹_›, by simp [hr, hl], rfl⟩
    unfold accept at h
    cases hd : decode s.nextPins.cmd with
    | error e => rw [hd] at h; exact .error _ e ha hd (by simpa [eq_comm] using h)
    | ok i =>
      rw [hd] at h
      cases hw : waits i s with
      | false =>
        have hw' : waits i s.popPins = false := hw
        simp only [hw'] at h
        exact .run _ i ha hd hw h
      | true =>
        have hw' : waits i s.popPins = true := hw
        simp only [hw', if_true] at h
        simp only [waits, Bool.and_eq_true, decide_eq_true_eq] at hw
        obtain ⟨rfl, hc⟩ := hw
        exact .start _ ha hd hc (by simpa [eq_comm] using h)
  · exact .idle hr' hl (by simpa using ‹¬ s.nextPins.cmdValid = true›) (by simpa [eq_comm] using h)

/-- The word at an edge is one word. -/
theorem Accepts.unique {s : State} {w w' : Word} (h : Accepts s w) (h' : Accepts s w') : w = w' :=
  h.2.2.2.symm.trans h'.2.2.2

/-- The command at an edge is one command. -/
theorem Accepts.decode_unique {s : State} {w w' : Word} {i j : Instr} (h : Accepts s w) (h' : Accepts s w')
    (hd : decode w = .ok i) (hd' : decode w' = .ok j) : i = j := by
  cases h.unique h'; rw [hd] at hd'; exact Except.ok.inj hd'

/-- An accepting edge is no reset edge and finds no EVAL in progress. -/
theorem Accepts.ready {s : State} {w : Word} (h : Accepts s w) : ¬ Resets s ∧ s.evalLeft = 0 := by
  obtain ⟨h1, -, h3, -⟩ := h
  simp [Resets, h1] at *; exact h3

/-- An edge that accepts a word is `accept` of it. -/
theorem step_of_accepts {s : State} {w : Word} (h : Accepts s w) : step s = accept w s.popPins := by
  have hl := h.ready.2
  obtain ⟨h1, h2, -, h4⟩ := h
  simp [step, edge, h1, hl, h2, h4]

/-- An edge that raises an error does nothing else (R196). -/
theorem step_of_raises {s : State} {e : CmdError} (h : Raises s e) : step s = .next (s.popPins.raise e) := by
  obtain ⟨w, h, hd | ⟨rfl, a, hd, hr⟩⟩ := h
  · rw [step_of_accepts h, accept_error _ _ _ hd]
  · rw [step_of_accepts h]
    simp [accept, hd, waits, exec, execRdreg, hr]

end Sys2Proof.Machine
end

