-- ==== Sys2Proof/Laws/Sequence.lean ====
section
/-!
SUPPORT. How the functions of the observation sequence (spec/41_accumulators.md R131, R132) change when one byte or one
bit is added at the end.
-/

namespace Sys2Proof.Machine

/-- A byte after position n does not change what was last seen before it. -/
theorem lastSeen_append (obs : List Byte) (x v : Byte) :
    ∀ n, n ≤ obs.length → lastSeen (obs ++ [x]) v n = lastSeen obs v n
  | 0, _ => rfl
  | n + 1, h => by
    unfold lastSeen
    rw [List.getElem?_append_left (by omega), lastSeen_append obs x v n (by omega)]

/-- One byte more is one `accumulate` more. -/
theorem accumulated_snoc (obs : List Byte) (x : Byte) : accumulated (obs ++ [x]) = (accumulated obs).accumulate x := by
  simp [accumulated]

/-- The accumulators and SAT after a run of STEPs that does not saturate (R120). -/
theorem xfer_accumulates : ∀ (vs : List Byte) (s u : State), xfer vs s = .next u →
    (observed vs s).length = vs.length
      ∧ (s.acc.N.toNat + vs.length ≤ Config.obsMax →
        u.acc = (observed vs s).foldl Accumulators.accumulate s.acc ∧ u.SAT = s.SAT)
  | [], s, u, h => by cases h; simp [observed]
  | v :: vs, s, u, h => by
    obtain ⟨t, ht, a⟩ := execStep_spec v s
    rw [xfer_cons _ _ _ _ ht] at h
    rw [observed_cons _ _ _ _ ht]
    have ih := xfer_accumulates vs t u h
    refine ⟨by simp [ih], fun hn => ?_⟩
    simp at hn
    have e : t.acc = s.acc.accumulate t.LASTOBS := by simp [a]; omega
    have hs : t.SAT = s.SAT := by simp [a]; omega
    have hm : (s.acc.N.toNat + 1) % 16777216 ≤ s.acc.N.toNat + 1 := Nat.mod_le _ _
    have := ih.2 (by rw [e]; simp; simp [Config.obsMax] at hn ⊢; omega)
    rw [e, hs] at this
    simpa using this

/-- One byte more is eight bits more. -/
theorem bitStream_snoc (obs : List Byte) (x : Byte) : bitStream (obs ++ [x]) = bitStream obs ++ bitsMsb x := by
  simp [bitStream]

/-- Eight bits a byte (R11). -/
theorem bitStream_length (obs : List Byte) : (bitStream obs).length = 8 * obs.length := by
  induction obs with
  | nil => rfl
  | cons x xs ih => simp [bitStream, bitsMsb] at *; omega

/-- The last run after one bit more. -/
theorem openRun_snoc (bits : List Bool) (c b : Bool) :
    openRun (bits ++ [c]) b = if c = b then openRun bits b + 1 else 0 := by
  unfold openRun
  rw [List.reverse_append]
  cases c <;> cases b <;> simp

/-- The positions of the last run, and what stands before it. -/
theorem openRun_spec (bits : List Bool) (b : Bool) : openRun bits b ≤ bits.length ∧
    (∀ q, bits.length - openRun bits b ≤ q → q < bits.length → bits[q]? = some b) ∧
    (openRun bits b < bits.length → bits[bits.length - openRun bits b - 1]? = some (!b)) := by
  induction bits using List.reverseRecOn with
  | nil => simp [openRun]
  | append_singleton l c ih =>
    obtain ⟨h1, h2, h3⟩ := ih
    rw [openRun_snoc]
    by_cases hc : c = b
    · subst hc
      simp only [if_true, List.length_append, List.length_singleton]
      refine ⟨by omega, fun q hq1 hq2 => ?_, fun hlt => ?_⟩
      · by_cases hl : q < l.length
        · rw [List.getElem?_append_left hl]; exact h2 q (by omega) hl
        · rw [List.getElem?_append_right (by omega), show q - l.length = 0 by omega]; rfl
      · rw [List.getElem?_append_left (by omega)]
        have := h3 (by omega)
        rw [show l.length + 1 - (openRun l c + 1) - 1 = l.length - openRun l c - 1 by omega]; exact this
    · have hcb : c = !b := by cases c <;> cases b <;> simp_all
      rw [if_neg hc]; simp
      refine ⟨fun q h1 h2 => by omega, hcb⟩

/-- A closed run by its positions. -/
theorem closedRunAt_iff (bits : List Bool) (b : Bool) (i p : Nat) : closedRunAt bits b i p = true ↔
    0 < i ∧ (∀ q < i, bits[p + q]? = some b) ∧ bits[p + i]? = some (!b) ∧ (p = 0 ∨ bits[p - 1]? = some (!b)) := by
  simp [closedRunAt, and_assoc]

/-- One bit more closes the last run if it is the other bit, and closes no other. -/
theorem closedRunAt_snoc (bits : List Bool) (c b : Bool) (i p : Nat) (hi : 0 < i) :
    closedRunAt (bits ++ [c]) b i p = true ↔
    closedRunAt bits b i p = true ∨ (c = (!b) ∧ openRun bits b = i ∧ p + i = bits.length) := by
  rw [closedRunAt_iff, closedRunAt_iff]
  obtain ⟨o1, o2, o3⟩ := openRun_spec bits b
  rcases lt_trichotomy (p + i) bits.length with h | h | h
  · have e : ∀ q ≤ i, (bits ++ [c])[p + q]? = bits[p + q]? := fun q hq => List.getElem?_append_left (by omega)
    have e1 : (bits ++ [c])[p - 1]? = bits[p - 1]? := List.getElem?_append_left (by omega)
    rw [e i le_rfl, e1]
    constructor
    · rintro ⟨_, h1, h2, h3⟩; exact .inl ⟨hi, fun q hq => by rw [← e q hq.le]; exact h1 q hq, h2, h3⟩
    · rintro (⟨_, h1, h2, h3⟩ | ⟨_, _, h4⟩)
      · exact ⟨hi, fun q hq => by rw [e q hq.le]; exact h1 q hq, h2, h3⟩
      · omega
  · have e : ∀ q < i, (bits ++ [c])[p + q]? = bits[p + q]? := fun q hq => List.getElem?_append_left (by omega)
    have e1 : (bits ++ [c])[p - 1]? = bits[p - 1]? := List.getElem?_append_left (by omega)
    rw [e1, h]
    simp only [List.getElem?_append_right le_rfl, Nat.sub_self, List.getElem?_cons_zero, Option.some.injEq]
    constructor
    · rintro ⟨_, h1, h2, h3⟩
      refine .inr ⟨h2, ?_, trivial⟩
      have h1' : ∀ q < i, bits[p + q]? = some b := fun q hq => by rw [← e q hq]; exact h1 q hq
      have hb : ¬ (some b = some (!b)) := by cases b <;> simp
      by_contra hne
      rcases Nat.lt_or_gt_of_ne hne with hlt | hgt
      · have hl := o3 (by omega)
        have := h1' (bits.length - openRun bits b - 1 - p) (by omega)
        rw [show p + (bits.length - openRun bits b - 1 - p) = bits.length - openRun bits b - 1 by omega, hl] at this
        exact hb this.symm
      · rcases h3 with h3 | h3
        · omega
        · have := o2 (p - 1) (by omega) (by omega)
          rw [this] at h3; exact hb h3
    · rintro (⟨_, h1, h2, h3⟩ | ⟨h2, h3, _⟩)
      · simp at h2
      · refine ⟨hi, fun q hq => by rw [e q hq]; exact o2 _ (by omega) (by omega), h2, ?_⟩
        by_cases hp : p = 0
        · exact .inl hp
        · right; have := o3 (by omega); rwa [show bits.length - openRun bits b - 1 = p - 1 by omega] at this
  · constructor
    · rintro ⟨_, h1, h2, h3⟩
      rw [List.getElem?_eq_none (by simp; omega)] at h2; cases h2
    · rintro (⟨_, h1, h2, h3⟩ | ⟨h2, h3, h4⟩)
      · rw [List.getElem?_eq_none (by omega)] at h2; cases h2
      · omega

/-- How one bit more changes the number of closed runs of a length. -/
theorem closedRuns_snoc (bits : List Bool) (c b : Bool) (i : Nat) (hi : 0 < i) : closedRuns (bits ++ [c]) b i =
    closedRuns bits b i + if c = (!b) ∧ openRun bits b = i then 1 else 0 := by
  unfold closedRuns
  simp only [List.length_append, List.length_singleton]
  rw [List.range_succ, List.countP_append, List.countP_singleton]
  have hlast : closedRunAt (bits ++ [c]) b i bits.length = false := by
    rw [← Bool.not_eq_true, closedRunAt_snoc _ _ _ _ _ hi]
    rintro (h | ⟨_, _, h⟩)
    · rw [closedRunAt_iff] at h
      have := h.2.2.1; rw [List.getElem?_eq_none (by omega)] at this; cases this
    · omega
  rw [hlast]; simp only [Bool.false_eq_true, if_false, Nat.add_zero]
  by_cases hc : c = (!b) ∧ openRun bits b = i
  · rw [if_pos hc]
    have ho := (openRun_spec bits b).1
    have hp : bits.length - i ∈ List.range bits.length := by simp; omega
    have hnew : closedRunAt (bits ++ [c]) b i = fun p => closedRunAt bits b i p || decide (p = bits.length - i) := by
      funext p
      rw [Bool.eq_iff_iff, closedRunAt_snoc _ _ _ _ _ hi]
      simp only [Bool.or_eq_true, decide_eq_true_eq]
      constructor
      · rintro (h | ⟨_, _, h⟩); exact .inl h; right; omega
      · rintro (h | h); exact .inl h; right; exact ⟨hc.1, hc.2, by omega⟩
    rw [hnew]
    have hold : closedRunAt bits b i (bits.length - i) = false := by
      rw [← Bool.not_eq_true, closedRunAt_iff]
      rintro ⟨_, _, h, _⟩
      rw [List.getElem?_eq_none (by omega)] at h; cases h
    have hdisj : ∀ l : List Nat, List.countP (fun p => closedRunAt bits b i p || decide (p = bits.length - i)) l =
        List.countP (closedRunAt bits b i) l + List.countP (fun p => decide (p = bits.length - i)) l := by
      intro l
      induction l with
      | nil => rfl
      | cons p ps ih =>
        simp only [List.countP_cons, ih]
        by_cases hp : p = bits.length - i
        · subst hp; simp [hold]; omega
        · simp [hp]; omega
    rw [hdisj]
    congr 1
    rw [← List.countP_congr (p := fun p => p == bits.length - i) (by simp)]
    have : List.countP (fun p => p == bits.length - i) (List.range bits.length) =
        List.count (bits.length - i) (List.range bits.length) := rfl
    rw [this, List.count_eq_one_of_mem List.nodup_range hp]
  · rw [if_neg hc, Nat.add_zero]
    apply List.countP_congr
    intro p _
    rw [closedRunAt_snoc _ _ _ _ _ hi]
    constructor
    · rintro (h | ⟨h1, h2, _⟩); exact h; exact absurd ⟨h1, h2⟩ hc
    · exact .inl

end Sys2Proof.Machine
end

