-- ==== Sys2Proof/Laws/Statistics.lean ====
section
/-!
SUPPORT. The statistics of slots 0 to 6: their ranges (spec/42_evaluate.md R164) and their readout (R162).
-/

namespace Sys2Proof.Machine

/-- The frequency and autocorrelation tests in one comparison: the lower end never binds (R163, R164). -/
theorem balance_pass (bits ones : Nat) (hb : 0 < bits) (c : ℚ) (hc : 0 ≤ c) :
    (decide (-c ≤ balanceStat bits ones) && decide (balanceStat bits ones ≤ c)) = true ↔
   (((bits : ℚ) - 2 * ones)^2 ≤ c * bits) := by
  have hbq : (0:ℚ) < bits := by exact_mod_cast hb
  have h0 : 0 ≤ balanceStat bits ones := by unfold balanceStat; positivity
  simp only [Bool.and_eq_true, decide_eq_true_eq]
  constructor
  · rintro ⟨_, h⟩
    unfold balanceStat at h
    rw [div_le_iff₀ hbq] at h
    have e : (bits : ℚ) - ones - ones = bits - 2 * ones := by ring
    rw [e] at h; exact h
  · intro h
    refine ⟨by linarith, ?_⟩
    unfold balanceStat
    rw [div_le_iff₀ hbq]
    have e : (bits : ℚ) - ones - ones = bits - 2 * ones := by ring
    rw [e]; exact h

/-- The range of the frequency and autocorrelation statistics (R164). -/
theorem balance_bounds (bits ones : Nat) (hb : 0 < bits) (ho : ones ≤ bits) :
    0 ≤ balanceStat bits ones ∧ balanceStat bits ones ≤ bits := by
  have hbq : (0:ℚ) < bits := by exact_mod_cast hb
  have ho' : (ones:ℚ) ≤ bits := by exact_mod_cast ho
  have h0 : (0:ℚ) ≤ ones := by positivity
  unfold balanceStat
  refine ⟨by positivity, ?_⟩
  rw [div_le_iff₀ hbq]; nlinarith

/-- The range of the serial statistic (R164). -/
theorem serial_bounds {a : Accumulators} (h : a.Inv) (hn : 0 < a.N.toNat) :
    0 ≤ serialStat a.N.toNat a.SQSUM.toNat ∧ serialStat a.N.toNat a.SQSUM.toNat ≤ 255 * a.N.toNat := by
  have hq : (0:ℚ) < a.N.toNat := by exact_mod_cast hn
  have h1 : (a.SQSUM.toNat : ℚ) ≤ (a.N.toNat:ℚ)^2 := by exact_mod_cast sqsum_le h
  have h2 : (a.N.toNat : ℚ)^2 ≤ 256 * a.SQSUM.toNat := by
    rw [h.sqsum_eq, ← h.occ_sum]
    have := sq_sum_le_card_mul_sum_sq (s := (Finset.univ : Finset (Fin 256))) (f := fun v => ((a.OCC[v]).toNat : ℚ))
    push_cast
    simpa using this
  unfold serialStat
  have e : 256 / (a.N.toNat : ℚ) * a.SQSUM.toNat = 256 * a.SQSUM.toNat / a.N.toNat := by ring
  rw [e]
  constructor
  · rw [sub_nonneg, le_div_iff₀ hq, ← sq]; exact h2
  · rw [sub_le_iff_le_add, div_le_iff₀ hq]; nlinarith

/-- The runs of one length take no more bits than all runs. -/
theorem bin_bits (bins : Vector (BitVec 26) 8) (i : Fin 8) : (i.val + 1) * (bins[i]).toNat ≤ runBits bins :=
  Finset.single_le_sum (f := fun i : Fin 8 => (i.val + 1) * (bins[i]).toNat) (fun _ _ => Nat.zero_le _) (Finset.mem_univ i)

/-- One term of the runs statistic is at most linear in the number of bits. -/
theorem runs_term (n b i : ℚ) (hn : 8 ≤ n) (hi : 1 ≤ i) (hi8 : i ≤ 8) (hb0 : 0 ≤ b) (hb : i * b ≤ n) (P : ℚ)
    (hP : 8 ≤ P) :
   (b - (n - i + 3)/P)^2 / ((n - i + 3)/P) ≤ P / i^2 * (n + 14) + (n+2) / 8 := by
  have hPpos : 0 < P := by linarith
  have he : 0 < n - i + 3 := by linarith
  have hE : 0 < (n - i + 3)/P := by positivity
  have h1 : (b - (n - i + 3)/P)^2 / ((n - i + 3)/P) ≤ b^2 / ((n - i + 3)/P) + (n - i + 3)/P := by
    rw [div_le_iff₀ hE, add_mul, div_mul_cancel₀ _ hE.ne']
    nlinarith [mul_nonneg hb0 hE.le]
  have h2 : (n - i + 3)/P ≤ (n+2)/8 := by
    apply div_le_div₀ <;> linarith
  have h3 : b^2 / ((n - i + 3)/P) ≤ P / i^2 * (n + 14) := by
    rw [div_le_iff₀ hE]
    have hi0 : 0 < i := by linarith
    have : P / i ^ 2 * (n + 14) * ((n - i + 3) / P) = (n+14) * (n - i + 3) / i^2 := by field_simp
    rw [this, le_div_iff₀ (by positivity)]
    have : b^2 * i^2 ≤ n^2 := by
      have : b^2 * i^2 = (i*b)^2 := by ring
      rw [this]; exact pow_le_pow_left₀ (by positivity) hb 2
    nlinarith
  linarith

/-- Half of the runs statistic is at most linear in the number of bits (R164). -/
theorem runs_bounds (bins : Vector (BitVec 26) 8) (N : Nat) (hN : 0 < N) (h : runBits bins ≤ 8 * N) :
   0 ≤ runsSum (8*N) bins ∧ runsSum (8 * N) bins ≤ 60 * (8 * N + 14) := by
  have hn : (8:ℚ) ≤ ((8 * N : ℕ):ℚ) := by exact_mod_cast (by omega : 8 ≤ 8 * N)
  have hb : ∀ i : Fin 8, ((i.val:ℚ) + 1) * (bins[i]).toNat ≤ ((8 * N : ℕ):ℚ) := fun i => by
    exact_mod_cast (bin_bits bins i).trans h
  have e : runsSum (8*N) bins =
      ∑ i : Fin 8, (((bins[i]).toNat : ℚ) - runsExpected (8 * N) (i.val + 1)) ^ 2 / runsExpected (8 * N) (i.val + 1) := by
      unfold runsSum
      rw [← List.ofFn_eq_map, List.sum_ofFn]
  rw [e]
  have hpos : ∀ i : Fin 8, 0 < runsExpected (8*N) (i.val + 1) := by
    intro i; unfold runsExpected
    have : (i.val : ℚ) < 8 := by exact_mod_cast i.isLt
    have : (0:ℚ) < ((8*N:ℕ):ℚ) - ((i.val + 1 : ℕ):ℚ) + 3 := by push_cast at hn ⊢; linarith
    positivity
  constructor
  · apply Finset.sum_nonneg; intro i _; have := hpos i; positivity
  · have hterm : ∀ i : Fin 8,
       (((bins[i]).toNat : ℚ) - runsExpected (8 * N) (i.val + 1)) ^ 2 / runsExpected (8 * N) (i.val + 1) ≤
       2 ^ (i.val + 3) / ((i.val:ℚ) + 1)^2 * (((8 * N : ℕ):ℚ) + 14) + (((8 * N : ℕ):ℚ)+2) / 8 := by
      intro i
      have hi : (i.val : ℚ) + 1 ≤ 8 := by exact_mod_cast i.isLt
      have h0 : (0:ℚ) ≤ i.val := by positivity
      have := runs_term ((8 * N : ℕ):ℚ) (bins[i]).toNat ((i.val:ℚ)+1) hn (by linarith) hi (by positivity) (hb i)
        (2^(i.val+3)) (by
        have : (8:ℚ) = 2^3 := by norm_num
        rw [this]; apply pow_le_pow_right₀ <;> norm_num)
      unfold runsExpected
      push_cast at this ⊢
      exact this
    refine (Finset.sum_le_sum fun i _ => hterm i).trans ?_
    rw [Fin.sum_univ_eight]
    push_cast
    norm_num
    linarith

/-- A number well inside 64 bits is its own two's-complement reading. -/
theorem toInt_ofInt64 (z : ℤ) (h1 : -2^62 ≤ z) (h2 : z ≤ 2^62) : (BitVec.ofInt 64 z).toInt = z := by
  rw [BitVec.toInt_ofInt]
  rw [Int.bmod_def]; norm_num; omega

/-- The readout of a statistic in range (R162). -/
theorem fixed_toInt (q : ℚ) (h0 : 0 ≤ q) (h1 : q ≤ 2^36) : (fixedPoint q).toInt = ⌊2^24 * q⌋ := by
  unfold fixedPoint
  show (BitVec.ofInt 64 ⌊2 ^ Config.statFrac * q⌋).toInt = _
  simp only [Config.statFrac]
  apply toInt_ofInt64
  · have : 0 ≤ ⌊2^24 * q⌋ := Int.floor_nonneg.2 (by positivity)
    omega
  · have : (⌊2^24 * q⌋ : ℚ) ≤ 2^24 * q := Int.floor_le _
    have h3 : (⌊2^24 * q⌋ : ℚ) ≤ ((2^62 : ℤ) : ℚ) := by push_cast; nlinarith
    exact_mod_cast h3

end Sys2Proof.Machine
end

