-- ==== Sys2Proof/Laws/Universal.lean ====
section
/-!
SUPPORT. The integer arithmetic of Machine/Universal.lean against the real numbers it stands for: each fixed-point value
with its error bound, then the enclosure of the statistic with its soundness and its width.
-/

namespace Sys2Proof.Machine

/-! ### Bitwise search -/

/-- For a test that is downward closed, the search ends at the last value that passes it. -/
theorem searchBits_spec (ok : Nat → Bool) (down : ∀ a b, a ≤ b → ok b = true → ok a = true) :
    ∀ (bits r : Nat), ok r = true → ok (r + 2 ^ bits) = false →
      ok (searchBits ok bits r) = true ∧ ok (searchBits ok bits r + 1) = false
  | 0, r, h0, h1 => ⟨h0, by simpa [searchBits] using h1⟩
  | b + 1, r, h0, h1 => by
    unfold searchBits
    split
    · rename_i h
      exact searchBits_spec ok down b _ h (by rw [Nat.add_assoc, ← Nat.two_mul, ← Nat.pow_succ']; exact h1)
    · rename_i h
      exact searchBits_spec ok down b _ h0 (by simpa using h)

/-- 2^n K^(-3/8), rounded down, in integers. -/
theorem rootFixed_spec (n K : Nat) (hK : 0 < K) :
    rootFixed n K ^ 8 * K ^ 3 ≤ 2 ^ (8 * n) ∧ 2 ^ (8 * n) < (rootFixed n K + 1) ^ 8 * K ^ 3 := by
  have h := searchBits_spec (fun r => decide (r ^ 8 * K ^ 3 ≤ 2 ^ (8 * n)))
    (fun a b hab hb => by
      simp only [decide_eq_true_eq] at hb ⊢
      exact (Nat.mul_le_mul_right _ (Nat.pow_le_pow_left hab 8)).trans hb)
    (n + 1) 0 (by simp)
    (by
      simp only [zero_add, decide_eq_false_iff_not, not_le, ← pow_mul]
      calc 2 ^ (8 * n) < 2 ^ ((n + 1) * 8) := Nat.pow_lt_pow_right (by norm_num) (by omega)
        _ ≤ 2 ^ ((n + 1) * 8) * K ^ 3 := Nat.le_mul_of_pos_right _ (by positivity))
  simpa [rootFixed] using h

/-- 2^n sqrt 3.238, rounded down, in integers. -/
theorem sigmaFixed_spec (n : Nat) :
    1000 * sigmaFixed n ^ 2 ≤ 3238 * 2 ^ (2 * n) ∧ 3238 * 2 ^ (2 * n) < 1000 * (sigmaFixed n + 1) ^ 2 := by
  have h := searchBits_spec (fun r => decide (1000 * r ^ 2 ≤ 3238 * 2 ^ (2 * n)))
    (fun a b hab hb => by
      simp only [decide_eq_true_eq] at hb ⊢
      exact (Nat.mul_le_mul_left _ (Nat.pow_le_pow_left hab 2)).trans hb)
    (n + 1) 0 (by simp)
    (by
      simp only [zero_add, decide_eq_false_iff_not, not_le, ← pow_mul]
      have : 2 ^ ((n + 1) * 2) = 4 * 2 ^ (2 * n) := by ring
      rw [this]
      have := Nat.pos_of_ne_zero (pow_ne_zero (2 * n) (two_ne_zero (α := Nat)))
      omega)
  simpa [sigmaFixed] using h

/-- The real 2^n K^(-3/8) lies between the fixed-point value and its successor. -/
theorem rootFixed_real (n K : Nat) (hK : 0 < K) :
    (rootFixed n K : ℝ) / 2 ^ n ≤ (K : ℝ) ^ (-(3 / 8) : ℝ) ∧
      (K : ℝ) ^ (-(3 / 8) : ℝ) < ((rootFixed n K : ℝ) + 1) / 2 ^ n := by
  have ⟨h1, h2⟩ := rootFixed_spec n K hK
  have hKr : (0 : ℝ) < K := by exact_mod_cast hK
  set x : ℝ := (K : ℝ) ^ (-(3 / 8) : ℝ) with hx
  have hx0 : 0 < x := Real.rpow_pos_of_pos hKr _
  have hx8 : x ^ 8 * (K : ℝ) ^ 3 = 1 := by
    rw [hx, ← Real.rpow_natCast, ← Real.rpow_mul hKr.le, ← Real.rpow_natCast, ← Real.rpow_add hKr]
    norm_num
  have hK3 : (0 : ℝ) < (K : ℝ) ^ 3 := by positivity
  have e8 : (2 : ℝ) ^ (8 * n) = (2 ^ n) ^ 8 := by rw [← pow_mul, mul_comm]
  constructor
  · rw [div_le_iff₀ (by positivity)]
    refine le_of_pow_le_pow_left₀ (n := 8) (by norm_num) (by positivity) ?_
    refine le_of_mul_le_mul_right ?_ hK3
    rw [mul_pow, mul_assoc, mul_comm ((2 ^ n : ℝ) ^ 8), ← mul_assoc, hx8, one_mul, ← e8]
    exact_mod_cast h1
  · rw [lt_div_iff₀ (by positivity)]
    refine lt_of_pow_lt_pow_left₀ 8 (by positivity) ?_
    refine lt_of_mul_lt_mul_right ?_ hK3.le
    rw [mul_pow, mul_assoc, mul_comm ((2 ^ n : ℝ) ^ 8), ← mul_assoc, hx8, one_mul, ← e8]
    exact_mod_cast h2

/-- The real 2^n sqrt 3.238 lies between the fixed-point value and its successor. -/
theorem sigmaFixed_real (n : Nat) :
    (sigmaFixed n : ℝ) / 2 ^ n ≤ Real.sqrt 3.238 ∧ Real.sqrt 3.238 < ((sigmaFixed n : ℝ) + 1) / 2 ^ n := by
  have ⟨h1, h2⟩ := sigmaFixed_spec n
  have e2 : (2 : ℝ) ^ (2 * n) = (2 ^ n) ^ 2 := by rw [← pow_mul, mul_comm]
  have h1' : 1000 * (sigmaFixed n : ℝ) ^ 2 ≤ 3238 * (2 ^ n) ^ 2 := by rw [← e2]; exact_mod_cast h1
  have h2' : 3238 * (2 ^ n : ℝ) ^ 2 < 1000 * ((sigmaFixed n : ℝ) + 1) ^ 2 := by rw [← e2]; exact_mod_cast h2
  have hp : (0 : ℝ) < (2 ^ n) ^ 2 := by positivity
  constructor
  · apply Real.le_sqrt_of_sq_le
    rw [div_pow, div_le_iff₀ hp]
    linarith
  · rw [Real.sqrt_lt' (by positivity), div_pow, lt_div_iff₀ hp]
    linarith

/-! ### Logarithm -/

/-- Rounding a value of at least `m` down to an integer loses less than 3/(2m) of its base-2 logarithm. -/
theorem logb_floor_loss {x : ℝ} {y m : Nat} (hm : 0 < m) (hy : m ≤ y) (h1 : (y : ℝ) ≤ x) (h2 : x < y + 1) :
    Real.logb 2 y ≤ Real.logb 2 x ∧ Real.logb 2 x < Real.logb 2 y + 3 / 2 / m := by
  have hmr : (0 : ℝ) < m := by exact_mod_cast hm
  have hyr : (m : ℝ) ≤ y := by exact_mod_cast hy
  have hy0 : (0 : ℝ) < y := hmr.trans_le hyr
  have hx0 : 0 < x := hy0.trans_le h1
  refine ⟨Real.logb_le_logb_of_le (by norm_num) hy0 h1, ?_⟩
  have key : Real.logb 2 x - Real.logb 2 y = Real.log (x / y) / Real.log 2 := by
    rw [← Real.logb_div hx0.ne' hy0.ne']; rfl
  have hlog : Real.log (x / y) < 1 / m := by
    calc Real.log (x / y) ≤ x / y - 1 := Real.log_le_sub_one_of_pos (by positivity)
      _ = (x - y) / y := by field_simp
      _ < 1 / y := by gcongr; linarith
      _ ≤ 1 / m := by gcongr
  have h2' : Real.log (x / y) / Real.log 2 < 3 / 2 / m := by
    rw [div_lt_iff₀ (Real.log_pos (by norm_num))]
    refine hlog.trans ?_
    have hl : (2 : ℝ) / 3 < Real.log 2 := by have := Real.log_two_gt_d9; linarith
    calc (1 : ℝ) / m = 3 / 2 / m * (2 / 3) := by field_simp
      _ < 3 / 2 / m * Real.log 2 := by gcongr
  linarith

/-- The bits of `logBits` are below the real logarithm by less than 1 and the rounding of the squares. -/
theorem logBits_bounds (w : Nat) : ∀ (n a : Nat), 2 ^ w ≤ a → a < 2 ^ (w + 1) →
    (logBits w n a : ℝ) ≤ 2 ^ n * Real.logb 2 (a / 2 ^ w) ∧
      2 ^ n * Real.logb 2 (a / 2 ^ w) < logBits w n a + 1 + 3 * (2 ^ n - 1) / 2 ^ w
  | 0, a, h1, h2 => by
    have h1' : (1 : ℝ) ≤ a / 2 ^ w := by rw [le_div_iff₀ (by positivity), one_mul]; exact_mod_cast h1
    have h2' : (a : ℝ) / 2 ^ w < 2 := by
      rw [div_lt_iff₀ (by positivity), ← pow_succ']; exact_mod_cast h2
    simp only [logBits, pow_zero, one_mul, Nat.cast_zero, zero_add, sub_self, mul_zero, zero_div, add_zero]
    refine ⟨Real.logb_nonneg (by norm_num) h1', ?_⟩
    calc Real.logb 2 (a / 2 ^ w) < Real.logb 2 2 := Real.logb_lt_logb (by norm_num) (by linarith) h2'
      _ = 1 := Real.logb_self_eq_one (by norm_num)
  | n + 1, a, h1, h2 => by
    have hw : 0 < 2 ^ w := by positivity
    have hwr : (0 : ℝ) < 2 ^ w := by positivity
    have ha0 : (0 : ℝ) < a := by exact_mod_cast hw.trans_le h1
    set sq := a * a / 2 ^ w with hsq
    have s1 : 2 ^ w ≤ sq := (Nat.le_div_iff_mul_le hw).2 (Nat.mul_le_mul h1 h1)
    have s2 : sq < 2 ^ (w + 2) := by
      rw [hsq, Nat.div_lt_iff_lt_mul hw]
      calc a * a < 2 ^ (w + 1) * 2 ^ (w + 1) := Nat.mul_lt_mul'' h2 h2
        _ = 2 ^ (w + 2) * 2 ^ w := by ring
    have hx1 : (sq : ℝ) ≤ (a : ℝ) * a / 2 ^ w := by
      rw [le_div_iff₀ hwr]; exact_mod_cast Nat.div_mul_le_self (a * a) (2 ^ w)
    have hx2 : (a : ℝ) * a / 2 ^ w < sq + 1 := by
      rw [div_lt_iff₀ hwr]
      have h := Nat.lt_mul_div_succ (a * a) hw
      rw [Nat.mul_comm (2 ^ w)] at h
      exact_mod_cast h
    have ⟨l1, l2⟩ := logb_floor_loss hw s1 hx1 hx2
    have dbl : Real.logb 2 (a * a / 2 ^ w) = 2 * Real.logb 2 (a / 2 ^ w) + w := by
      have : (a : ℝ) * a / 2 ^ w = (a / 2 ^ w) ^ 2 * 2 ^ w := by field_simp
      rw [this, Real.logb_mul (by positivity) (by positivity), Real.logb_pow, Real.logb_pow,
        Real.logb_self_eq_one (by norm_num)]
      push_cast; ring
    push_cast at l2
    have hpow : (2 : ℝ) ^ (n + 1) = 2 ^ n * 2 := pow_succ 2 n
    have hpn : (1 : ℝ) ≤ 2 ^ n := one_le_pow₀ (by norm_num)
    have hp0 : (0 : ℝ) < 2 ^ n := by positivity
    simp only [logBits, ← hsq]
    split
    · rename_i hlt
      have ⟨i1, i2⟩ := logBits_bounds w n sq s1 hlt
      have hs : Real.logb 2 (sq / 2 ^ w) = Real.logb 2 sq - w := by
        rw [Real.logb_div (by exact_mod_cast (hw.trans_le s1).ne') (by positivity), Real.logb_pow,
          Real.logb_self_eq_one (by norm_num), mul_one]
      rw [hs] at i1 i2
      constructor
      · rw [hpow]
        have : 2 ^ n * (Real.logb 2 sq - w) ≤ 2 ^ n * (2 * Real.logb 2 (a / 2 ^ w)) :=
          mul_le_mul_of_nonneg_left (by linarith) hp0.le
        linarith
      · rw [hpow]
        have e1 : 2 ^ n * (2 * Real.logb 2 (a / 2 ^ w)) < 2 ^ n * (Real.logb 2 sq - w) + 2 ^ n * (3 / 2 / 2 ^ w) := by
          rw [← mul_add]; gcongr; linarith
        have e2 : 3 * ((2 : ℝ) ^ n * 2 - 1) / 2 ^ w = 3 * (2 ^ n - 1) / 2 ^ w + 2 ^ n * (3 / 2 / 2 ^ w) * 2 := by
          field_simp; ring
        have e3 : 0 < 2 ^ n * (3 / 2 / (2 : ℝ) ^ w) := by positivity
        rw [e2]; linarith
    · rename_i hge
      rw [not_lt] at hge
      have t1 : 2 ^ w ≤ sq / 2 := by rw [Nat.le_div_iff_mul_le (by norm_num), ← pow_succ]; exact hge
      have t2 : sq / 2 < 2 ^ (w + 1) := by
        rw [Nat.div_lt_iff_lt_mul (by norm_num), ← pow_succ]; exact s2
      have ⟨i1, i2⟩ := logBits_bounds w n (sq / 2) t1 t2
      have hy1 : ((sq / 2 : ℕ) : ℝ) ≤ (sq : ℝ) / 2 := by
        rw [le_div_iff₀ (by norm_num)]; exact_mod_cast Nat.div_mul_le_self sq 2
      have hy2 : (sq : ℝ) / 2 < (sq / 2 : ℕ) + 1 := by
        rw [div_lt_iff₀ (by norm_num)]
        have : sq < (sq / 2 + 1) * 2 := by omega
        exact_mod_cast this
      have ⟨m1, m2⟩ := logb_floor_loss hw t1 hy1 hy2
      push_cast at m2
      have hsq0 : (sq : ℝ) ≠ 0 := by exact_mod_cast (hw.trans_le s1).ne'
      have hh : Real.logb 2 ((sq : ℝ) / 2) = Real.logb 2 sq - 1 := by
        rw [Real.logb_div hsq0 (by norm_num), Real.logb_self_eq_one (by norm_num)]
      have hs : Real.logb 2 (((sq / 2 : ℕ) : ℝ) / 2 ^ w) = Real.logb 2 ((sq / 2 : ℕ) : ℝ) - w := by
        rw [Real.logb_div (by exact_mod_cast (hw.trans_le t1).ne') (by positivity), Real.logb_pow,
          Real.logb_self_eq_one (by norm_num), mul_one]
      rw [hs] at i1 i2
      rw [hh] at m1 m2
      push_cast
      constructor
      · rw [hpow]
        have : 2 ^ n * (Real.logb 2 ((sq / 2 : ℕ) : ℝ) - w) ≤ 2 ^ n * (2 * Real.logb 2 (a / 2 ^ w) - 1) :=
          mul_le_mul_of_nonneg_left (by linarith) hp0.le
        linarith
      · rw [hpow]
        have e1 : 2 ^ n * (2 * Real.logb 2 (a / 2 ^ w)) <
            2 ^ n * (Real.logb 2 ((sq / 2 : ℕ) : ℝ) - w) + 2 ^ n + 2 ^ n * (3 / 2 / 2 ^ w) * 2 := by
          have : 2 ^ n * (Real.logb 2 ((sq / 2 : ℕ) : ℝ) - w) + 2 ^ n + 2 ^ n * (3 / 2 / 2 ^ w) * 2
              = 2 ^ n * (Real.logb 2 ((sq / 2 : ℕ) : ℝ) - w + 1 + 3 / 2 / 2 ^ w * 2) := by ring
          rw [this]; gcongr; linarith
        have e2 : 3 * ((2 : ℝ) ^ n * 2 - 1) / 2 ^ w = 3 * (2 ^ n - 1) / 2 ^ w + 2 ^ n * (3 / 2 / 2 ^ w) * 2 := by
          field_simp; ring
        rw [e2]; linarith

/-- 2^n log2 p lies between the fixed-point value and that value plus 2. -/
theorem logFixed_bounds (n p : Nat) (hp : 0 < p) :
    (logFixed n p : ℝ) ≤ 2 ^ n * Real.logb 2 p ∧ 2 ^ n * Real.logb 2 p < logFixed n p + 2 := by
  set w := n + 4 with hw
  set e := Nat.log2 p with he
  have hp1 : 2 ^ e ≤ p := Nat.log2_self_le hp.ne'
  have hp2 : p < 2 ^ (e + 1) := Nat.lt_log2_self
  have hpr : (0 : ℝ) < p := by exact_mod_cast hp
  set m := if e ≤ w then p * 2 ^ (w - e) else p / 2 ^ (e - w) with hm
  have hl : logFixed n p = e * 2 ^ n + logBits w n m := rfl
  have hwr : (2 : ℝ) ^ w = 2 ^ n * 16 := by rw [hw, pow_add]; norm_num
  have hn0 : (1 : ℝ) ≤ 2 ^ n := one_le_pow₀ (by norm_num)
  have key : 2 ^ w ≤ m ∧ m < 2 ^ (w + 1) ∧ Real.logb 2 (m / 2 ^ w) ≤ Real.logb 2 p - e ∧
      Real.logb 2 p - e < Real.logb 2 (m / 2 ^ w) + 3 / 2 / 2 ^ w := by
    by_cases h : e ≤ w
    · have hm' : m = p * 2 ^ (w - e) := by rw [hm, if_pos h]
      have hpow : 2 ^ w = 2 ^ e * 2 ^ (w - e) := by rw [← pow_add]; congr 1; omega
      have hmr : (m : ℝ) / 2 ^ w = p / 2 ^ e := by
        rw [hm']; push_cast
        have : (2 : ℝ) ^ w = 2 ^ e * 2 ^ (w - e) := by exact_mod_cast hpow
        rw [this]; field_simp
      have hlog : Real.logb 2 (m / 2 ^ w) = Real.logb 2 p - e := by
        rw [hmr, Real.logb_div hpr.ne' (by positivity), Real.logb_pow, Real.logb_self_eq_one (by norm_num), mul_one]
      refine ⟨?_, ?_, hlog.le, ?_⟩
      · rw [hm', hpow]; exact Nat.mul_le_mul_right _ hp1
      · rw [hm', pow_succ, hpow, mul_right_comm, ← pow_succ]
        exact Nat.mul_lt_mul_of_pos_right hp2 (by positivity)
      · rw [hlog]; have : (0 : ℝ) < 3 / 2 / 2 ^ w := by positivity
        linarith
    · have hm' : m = p / 2 ^ (e - w) := by rw [hm, if_neg h]
      have hpos : 0 < 2 ^ (e - w) := by positivity
      have hpow : 2 ^ e = 2 ^ w * 2 ^ (e - w) := by rw [← pow_add]; congr 1; omega
      have a1 : 2 ^ w ≤ m := by rw [hm', Nat.le_div_iff_mul_le hpos, ← hpow]; exact hp1
      have a2 : m < 2 ^ (w + 1) := by
        rw [hm', Nat.div_lt_iff_lt_mul hpos, pow_succ, mul_right_comm, ← hpow, ← pow_succ]; exact hp2
      have b1 : (m : ℝ) ≤ p / 2 ^ (e - w) := by
        rw [le_div_iff₀ (by positivity), hm']; exact_mod_cast Nat.div_mul_le_self p _
      have b2 : (p : ℝ) / 2 ^ (e - w) < m + 1 := by
        rw [div_lt_iff₀ (by positivity), hm']
        have := Nat.lt_mul_div_succ p hpos
        rw [mul_comm] at this
        exact_mod_cast this
      have ⟨c1, c2⟩ := logb_floor_loss (m := 2 ^ w) (by positivity) a1 b1 b2
      have d1 : Real.logb 2 ((p : ℝ) / 2 ^ (e - w)) = Real.logb 2 p - e + w := by
        rw [Real.logb_div hpr.ne' (by positivity), Real.logb_pow, Real.logb_self_eq_one (by norm_num),
          Nat.cast_sub (by omega)]
        ring
      have d2 : Real.logb 2 ((m : ℝ) / 2 ^ w) = Real.logb 2 m - w := by
        have : 0 < m := lt_of_lt_of_le (by positivity) a1
        rw [Real.logb_div (by exact_mod_cast this.ne') (by positivity), Real.logb_pow,
          Real.logb_self_eq_one (by norm_num), mul_one]
      push_cast at c2
      rw [d1] at c1 c2
      exact ⟨a1, a2, by rw [d2]; linarith, by rw [d2]; linarith⟩
  obtain ⟨k1, k2, k3, k4⟩ := key
  have ⟨i1, i2⟩ := logBits_bounds w n m k1 k2
  rw [hl]; push_cast
  have hn : (0 : ℝ) < 2 ^ n := by positivity
  constructor
  · nlinarith [mul_le_mul_of_nonneg_left k3 hn.le]
  · have f1 : 2 ^ n * (Real.logb 2 p - e) < 2 ^ n * Real.logb 2 (m / 2 ^ w) + 2 ^ n * (3 / 2 / 2 ^ w) := by
      rw [← mul_add]; exact mul_lt_mul_of_pos_left k4 hn
    have f2 : 2 ^ n * (3 / 2 / (2 : ℝ) ^ w) = 3 / 32 := by rw [hwr]; field_simp; norm_num
    have f3 : 3 * ((2 : ℝ) ^ n - 1) / 2 ^ w ≤ 3 / 16 := by
      rw [hwr, div_le_iff₀ (by positivity)]; linarith
    rw [f2] at f1
    nlinarith

/-! ### The enclosure -/

theorem univFactor_cast (q : ℚ) : ((univFactor q : ℚ) : ℝ) = 0.7 - 0.8 / 8 + ((4 + 32 / 8) * (q : ℝ)) / 15 := by
  simp only [univFactor, Config.univBlock]; push_cast; norm_num

/-- The numerator's enclosure (R158): sound, and 2^(1-n) wide at most. -/
theorem univNumerator_spec (n : Nat) (p : ℕ+) (K : Nat) (hK : 0 < K) :
    ((univNumerator n p K).lo : ℝ) ≤ Real.logb 2 (p : ℕ) / K - 7.1836656 ∧
      Real.logb 2 (p : ℕ) / K - 7.1836656 ≤ (univNumerator n p K).hi ∧
      ((univNumerator n p K).hi : ℝ) - (univNumerator n p K).lo ≤ 2 / 2 ^ n := by
  have ⟨l1, l2⟩ := logFixed_bounds (n) p p.pos
  have hKr : (1 : ℝ) ≤ K := by exact_mod_cast hK
  have hn : (0 : ℝ) < 2 ^ n := by positivity
  have he : ((Config.univMean : ℚ) : ℝ) = 7.1836656 := by simp only [Config.univMean]; push_cast; norm_num
  simp only [univNumerator]; push_cast; rw [he]
  refine ⟨?_, ?_, ?_⟩
  · gcongr; rw [div_le_iff₀ hn, mul_comm]; exact l1
  · gcongr; rw [le_div_iff₀ hn, mul_comm]; exact l2.le
  · have : ((logFixed (n) p : ℝ) + 2) / 2 ^ n / K - 7.1836656
        - (logFixed (n) p / 2 ^ n / K - 7.1836656) = 2 / 2 ^ n / K := by ring
    rw [this]
    exact div_le_self (by positivity) hKr

/-- The denominator's enclosure (R158): sound, at least 1/2, and 2^(2-n) wide at most. -/
theorem univDenominator_spec (n K : Nat) (hK : 0 < K) (hn10 : 10 ≤ n) :
    ((univDenominator n K).lo : ℝ) ≤ univC K * Real.sqrt 3.238 ∧
      univC K * Real.sqrt 3.238 ≤ (univDenominator n K).hi ∧
      (1 : ℝ) / 2 ≤ (univDenominator n K).lo ∧
      ((univDenominator n K).hi : ℝ) - (univDenominator n K).lo ≤ 4 / 2 ^ n := by
  have ⟨r1, r2⟩ := rootFixed_real (n) K hK
  have ⟨g1, g2⟩ := sigmaFixed_real (n)
  have hn : (2 : ℝ) ^ 10 ≤ 2 ^ n := pow_le_pow_right₀ (by norm_num) hn10
  have hn0 : (0 : ℝ) < 2 ^ n := by positivity
  have hx1 : (K : ℝ) ^ (-(3 / 8) : ℝ) ≤ 1 :=
    Real.rpow_le_one_of_one_le_of_nonpos (by exact_mod_cast hK) (by norm_num)
  have hs1 : (1.7 : ℝ) < Real.sqrt 3.238 := by rw [Real.lt_sqrt (by norm_num)]; norm_num
  have hs2 : Real.sqrt 3.238 < 1.8 := by rw [Real.sqrt_lt' (by norm_num)]; norm_num
  have hε : (1 : ℝ) / 2 ^ n ≤ 1 / 1000 := by
    rw [div_le_div_iff₀ hn0 (by norm_num)]; linarith
  simp only [univDenominator, univC]; push_cast [univFactor_cast]
  set ε : ℝ := 1 / 2 ^ n with hεd
  set R : ℝ := (rootFixed (n) K : ℝ) / 2 ^ n with hR
  set G : ℝ := (sigmaFixed (n) : ℝ) / 2 ^ n with hG
  set x : ℝ := (K : ℝ) ^ (-(3 / 8) : ℝ) with hx
  set σ : ℝ := Real.sqrt 3.238 with hσ
  have hR1 : ((rootFixed (n) K : ℝ) + 1) / 2 ^ n = R + ε := by rw [hR, hεd, add_div]
  have hG1 : ((sigmaFixed (n) : ℝ) + 1) / 2 ^ n = G + ε := by rw [hG, hεd, add_div]
  have h4 : (4 : ℝ) / 2 ^ n = 4 * ε := by rw [hεd]; ring
  rw [hR1] at r2 ⊢
  rw [hG1] at g2 ⊢
  rw [h4]
  have hR0 : 0 ≤ R := by positivity
  have hε0 : 0 < ε := by positivity
  refine ⟨?_, ?_, ?_, ?_⟩
  · exact mul_le_mul (by linarith) g1 (by linarith) (by linarith)
  · exact mul_le_mul (by linarith) g2.le (by linarith) (by linarith)
  · nlinarith
  · nlinarith

/-- The enclosure of the quotient is sound: the exact real of R158 lies in it. -/
theorem univQuotient_sound (p : ℕ+) (K : Nat) (hK : 0 < K) (n : Nat) (hn10 : 10 ≤ n) :
    ((univQuotient p K n).lo : ℝ) ≤ univReal (Real.logb 2 (p : ℕ)) K ∧
      univReal (Real.logb 2 (p : ℕ)) K ≤ (univQuotient p K n).hi := by
  have ⟨a1, a2, _⟩ := univNumerator_spec n p K hK
  have ⟨d1, d2, d3, _⟩ := univDenominator_spec n K hK hn10
  simp only [univQuotient, univReal]
  set A := Real.logb 2 (p : ℕ) / K - 7.1836656
  set D := univC K * Real.sqrt 3.238
  have hD : 0 < D := by linarith
  have hlo : (0 : ℝ) < (univDenominator n K).lo := by linarith
  have hhi : (0 : ℝ) < (univDenominator n K).hi := by linarith
  constructor
  · split
    · rename_i h
      have h' : (0 : ℝ) ≤ (univNumerator n p K).lo := by exact_mod_cast h
      push_cast
      exact div_le_div₀ (h'.trans a1) a1 hD d2
    · rename_i h
      have h' : ((univNumerator n p K).lo : ℝ) < 0 := by exact_mod_cast not_le.1 h
      push_cast
      rw [div_le_div_iff₀ hlo hD]
      nlinarith
  · split
    · rename_i h
      have h' : (0 : ℝ) ≤ (univNumerator n p K).hi := by exact_mod_cast h
      push_cast
      exact div_le_div₀ h' a2 hlo d1
    · rename_i h
      have h' : ((univNumerator n p K).hi : ℝ) < 0 := by exact_mod_cast not_le.1 h
      push_cast
      rw [div_le_div_iff₀ hD hhi]
      nlinarith

/-- The enclosure of the quotient halves with every bit. -/
theorem univQuotient_width (p : ℕ+) (K : Nat) (hK : 0 < K) (n : Nat) (hn10 : 10 ≤ n) :
    ((univQuotient p K n).hi : ℝ) - (univQuotient p K n).lo ≤ 196 * ((Nat.log2 p : ℝ) + 1) / 2 ^ n := by
  have ⟨a1, a2, a3⟩ := univNumerator_spec n p K hK
  have ⟨d1, d2, d3, d4⟩ := univDenominator_spec n K hK hn10
  have hKr : (1 : ℝ) ≤ K := by exact_mod_cast hK
  have hp0 : (1 : ℝ) ≤ ((p : ℕ) : ℝ) := by exact_mod_cast p.pos
  set l := Nat.log2 (p : ℕ) with hl
  have hL0 : 0 ≤ Real.logb 2 (p : ℕ) := Real.logb_nonneg (by norm_num) hp0
  have hL : Real.logb 2 (p : ℕ) ≤ (l : ℝ) + 1 := by
    rw [Real.logb_le_iff_le_rpow (by norm_num) (by linarith)]
    have : (p : ℕ) < 2 ^ (l + 1) := Nat.lt_log2_self
    calc ((p : ℕ) : ℝ) ≤ (2 : ℝ) ^ (l + 1) := by exact_mod_cast this.le
      _ = (2 : ℝ) ^ ((l : ℝ) + 1) := by rw [← Real.rpow_natCast]; push_cast; rfl
  have hLK : Real.logb 2 (p : ℕ) / K ≤ (l : ℝ) + 1 := (div_le_self hL0 hKr).trans hL
  have hLK0 : 0 ≤ Real.logb 2 (p : ℕ) / K := by positivity
  set ε : ℝ := 1 / 2 ^ n with hεd
  have hε0 : 0 < ε := by positivity
  have e2 : (2 : ℝ) / 2 ^ n = 2 * ε := by rw [hεd]; ring
  have e4 : (4 : ℝ) / 2 ^ n = 4 * ε := by rw [hεd]; ring
  have hε1 : ε ≤ 1 := by
    rw [hεd, div_le_one (by positivity)]; exact one_le_pow₀ (by norm_num)
  rw [e2] at a3
  rw [e4] at d4
  have hl0 : (0 : ℝ) ≤ l := by positivity
  set lo := ((univNumerator n p K).lo : ℝ) with hlo
  set hi := ((univNumerator n p K).hi : ℝ) with hhi
  set dl := ((univDenominator n K).lo : ℝ) with hdl
  set dh := ((univDenominator n K).hi : ℝ) with hdh
  have hdl0 : 0 < dl := by linarith
  have hdh0 : 0 < dh := by linarith
  have hmain : ∀ m : ℝ, 0 ≤ m → m ≤ l + 12 → m / dl - m / dh ≤ 16 * ε * (l + 12) := by
    intro m hm hm'
    rw [div_sub_div _ _ hdl0.ne' hdh0.ne', div_le_iff₀ (by positivity)]
    have hprod : (1 : ℝ) / 4 ≤ dl * dh := by nlinarith
    have : m * dh - dl * m ≤ m * (4 * ε) := by nlinarith
    have : m * (4 * ε) ≤ (l + 12) * (4 * ε) := by gcongr
    nlinarith [mul_nonneg (mul_nonneg (by positivity : (0 : ℝ) ≤ 16 * ε) (by positivity : (0 : ℝ) ≤ l + 12))
      (sub_nonneg.2 hprod)]
  have hwd : ∀ d : ℝ, 1 / 2 ≤ d → (hi - lo) / d ≤ 4 * ε := by
    intro d hd
    rw [div_le_iff₀ (by linarith)]
    nlinarith
  have hfin : 4 * ε + 16 * ε * (l + 12) ≤ 196 * ((l : ℝ) + 1) / 2 ^ n := by
    have : 196 * ((l : ℝ) + 1) / 2 ^ n = 196 * (ε * (l + 1)) := by rw [hεd]; ring
    rw [this]; nlinarith
  by_cases h1 : 0 ≤ (univNumerator n p K).lo
  · have h1' : 0 ≤ lo := by rw [hlo]; exact_mod_cast h1
    have h2' : 0 ≤ hi := by linarith
    have h2 : 0 ≤ (univNumerator n p K).hi := by rw [hhi] at h2'; exact_mod_cast h2'
    simp only [univQuotient, if_pos h1, if_pos h2]; push_cast
    rw [← hlo, ← hhi, ← hdl, ← hdh]
    have := hmain lo h1' (by linarith)
    have := hwd dl d3
    have : hi / dl - lo / dh = (hi - lo) / dl + (lo / dl - lo / dh) := by ring
    linarith
  · have h1' : lo < 0 := by rw [hlo]; exact_mod_cast not_le.1 h1
    by_cases h2 : 0 ≤ (univNumerator n p K).hi
    · simp only [univQuotient, if_neg h1, if_pos h2]; push_cast
      rw [← hlo, ← hhi, ← hdl]
      have := hwd dl d3
      have : hi / dl - lo / dl = (hi - lo) / dl := by ring
      have : 0 ≤ 16 * ε * ((l : ℝ) + 12) := by positivity
      linarith
    · simp only [univQuotient, if_neg h1, if_neg h2]; push_cast
      rw [← hlo, ← hhi, ← hdl, ← hdh]
      have := hmain (-lo) (by linarith) (by linarith)
      have := hwd dh (by linarith)
      have : hi / dh - lo / dl = (hi - lo) / dh + (-lo / dl - -lo / dh) := by ring
      linarith

/-- The statistic that is told apart is 0 (R158). -/
theorem univIsZero_spec (p : ℕ+) (K : Nat) (hK : 0 < K) (h : univIsZero p K = true) :
    univReal (Real.logb 2 (p : ℕ)) K = 0 := by
  simp only [univIsZero, Bool.and_eq_true, decide_eq_true_eq] at h
  have hKr : (K : ℝ) ≠ 0 := by exact_mod_cast hK.ne'
  have he : ((Config.univMean : ℚ) : ℝ) = 7.1836656 := by simp only [Config.univMean]; push_cast; norm_num
  have h2 : (Nat.log2 (p : ℕ) : ℝ) = K * 7.1836656 := by rw [← he]; exact_mod_cast h.2
  have h1 : Real.logb 2 ((p : ℕ) : ℝ) = Nat.log2 (p : ℕ) := by
    have : (((p : ℕ)) : ℝ) = 2 ^ Nat.log2 (p : ℕ) := by exact_mod_cast h.1.symm
    rw [this, Real.logb_pow, Real.logb_self_eq_one (by norm_num), mul_one]
  rw [h1, h2, univReal, mul_div_cancel_left₀ _ hKr, sub_self, zero_div]

/-- The enclosure of the universal statistic is sound: the exact real of R158 lies in it. -/
theorem univStat_sound (p : ℕ+) (K : Nat) (hK : 0 < K) (n : Nat) (hn10 : 10 ≤ n) :
    ((univStat p K n).lo : ℝ) ≤ univReal (Real.logb 2 (p : ℕ)) K ∧
      univReal (Real.logb 2 (p : ℕ)) K ≤ (univStat p K n).hi := by
  unfold univStat
  split
  · rename_i h; rw [univIsZero_spec p K hK h]; simp
  · exact univQuotient_sound p K hK n hn10

/-- The enclosure of the universal statistic halves with every bit. -/
theorem univStat_width (p : ℕ+) (K : Nat) (hK : 0 < K) (n : Nat) (hn10 : 10 ≤ n) :
    ((univStat p K n).hi : ℝ) - (univStat p K n).lo ≤ 196 * ((Nat.log2 p : ℝ) + 1) / 2 ^ n := by
  unfold univStat
  split
  · simp; positivity
  · exact univQuotient_width p K hK n hn10

/-- Every fixed number of bits is soon enough to make a quotient by 2^n small. -/
theorem exists_div_pow_lt (B : ℝ) {ε : ℝ} (hε : 0 < ε) : ∃ n0 : Nat, ∀ n ≥ n0, B / 2 ^ n < ε := by
  obtain ⟨n0, h⟩ := pow_unbounded_of_one_lt (B / ε) (one_lt_two (α := ℝ))
  refine ⟨n0, fun n hn => ?_⟩
  rw [div_lt_iff₀ hε] at h
  rw [div_lt_iff₀ (by positivity)]
  calc B < 2 ^ n0 * ε := h
    _ ≤ ε * 2 ^ n := by rw [mul_comm]; gcongr; norm_num

theorem ten_le_univBits (p : ℕ+) : 10 ≤ univBits p := by unfold univBits; omega

/-- The first enclosure is at most 2^-119 wide. -/
theorem univStat_width_first (p : ℕ+) (K : Nat) (hK : 0 < K) :
    ((univStat p K (univBits p)).hi : ℝ) - (univStat p K (univBits p)).lo ≤ 1 / 2 ^ 119 := by
  refine (univStat_width p K hK _ (ten_le_univBits p)).trans ?_
  set l := Nat.log2 (p : ℕ)
  have h1 : l + 1 < 2 ^ (Nat.log2 (l + 1) + 1) := Nat.lt_log2_self
  have h2 : ((l : ℝ) + 1) ≤ 2 ^ (Nat.log2 (l + 1) + 1) := by exact_mod_cast h1.le
  have h3 : (2 : ℝ) ^ univBits p = 2 ^ 128 * 2 ^ Nat.log2 (l + 1) := by rw [univBits, pow_add]
  rw [h3, div_le_div_iff₀ (by positivity) (by positivity)]
  calc 196 * ((l : ℝ) + 1) * 2 ^ 119 ≤ 196 * 2 ^ (Nat.log2 (l + 1) + 1) * 2 ^ 119 := by gcongr
    _ ≤ 1 * (2 ^ 128 * 2 ^ Nat.log2 (l + 1)) := by
      rw [pow_succ]; nlinarith [pow_pos (two_pos (α := ℝ)) (Nat.log2 (l + 1))]

/-- The enclosed absolute value (R159). -/
theorem Enclosure.abs_sound {x : Enclosure} {r : ℝ} (h1 : (x.lo : ℝ) ≤ r) (h2 : r ≤ x.hi) :
    (x.abs.lo : ℝ) ≤ |r| ∧ |r| ≤ x.abs.hi := by
  simp only [Enclosure.abs]; push_cast
  refine ⟨?_, abs_le.2 ⟨?_, ?_⟩⟩
  · simp only [max_le_iff]
    exact ⟨abs_nonneg r, h1.trans (le_abs_self r), (neg_le_neg h2).trans (neg_le_abs r)⟩
  · have := le_max_right (x.hi : ℝ) (-(x.lo : ℝ)); linarith
  · exact h2.trans (le_max_left _ _)

/-- The enclosed absolute value is no wider than the enclosure. -/
theorem Enclosure.abs_width (x : Enclosure) : (x.abs.hi : ℝ) - x.abs.lo ≤ x.hi - x.lo := by
  simp only [Enclosure.abs]; push_cast
  rcases max_cases (x.hi : ℝ) (-(x.lo : ℝ)) with ⟨e, _⟩ | ⟨e, _⟩ <;> rw [e]
  · have := (le_max_left (x.lo : ℝ) (-x.hi)).trans (le_max_right 0 _); linarith
  · have := (le_max_right (x.lo : ℝ) (-x.hi)).trans (le_max_right 0 _); linarith

/-! ### The guard band -/

/-- Every real of at least 0 is a whole part and binary digits after the point: `Band.real` stands for each (R9). -/
theorem exists_band_digits {r : ℝ} (hr : 0 ≤ r) : ∃ (whole : ℕ) (d : ℕ → Fin 2), r = whole + Real.ofDigits d := by
  refine ⟨⌊r⌋₊, Real.digits (r - ⌊r⌋₊) 2, ?_⟩
  rw [Real.ofDigits_digits one_lt_two ⟨sub_nonneg.2 (Nat.floor_le hr), by linarith [Nat.lt_floor_add_one r]⟩]
  ring

/-- A band's first digits and the rest of them (R9). -/
theorem bandWidth_real (whole n : Nat) :
    bandWidth (.real whole) =
      (bandDigits whole n : ℝ) / 2 ^ n + Real.ofDigits (fun k => Config.bandDigit (k + n)) / 2 ^ n := by
  have hd : (bandDigits whole n : ℝ) / 2 ^ n
      = whole + ∑ i ∈ Finset.range n, Real.ofDigitsTerm Config.bandDigit i := by
    induction n with
    | zero => simp [bandDigits]
    | succ n ih =>
      rw [Finset.sum_range_succ, ← add_assoc, ← ih, bandDigits, Real.ofDigitsTerm]
      push_cast
      field_simp
      ring
  rw [hd, bandWidth, Real.ofDigits_eq_sum_add_ofDigits Config.bandDigit n]
  push_cast
  ring

/-- The enclosure of the band is sound and halves with every bit. -/
theorem bandEnclosure_spec (b : Band) (n : Nat) :
    ((bandEnclosure b n).lo : ℝ) ≤ bandWidth b ∧ bandWidth b ≤ (bandEnclosure b n).hi
      ∧ ((bandEnclosure b n).hi : ℝ) - (bandEnclosure b n).lo ≤ 1 / 2 ^ n := by
  cases b with
  | fraction num den =>
    simp only [bandEnclosure, bandWidth]; push_cast
    exact ⟨le_rfl, le_rfl, by rw [sub_self]; positivity⟩
  | real whole =>
    have h0 := Real.ofDigits_nonneg fun k => Config.bandDigit (k + n)
    have h1 := Real.ofDigits_le_one fun k => Config.bandDigit (k + n)
    rw [bandWidth_real whole n, ← add_div]
    simp only [bandEnclosure]; push_cast
    refine ⟨?_, ?_, ?_⟩
    · gcongr; linarith
    · gcongr
    · rw [← sub_div, add_sub_cancel_left]

/-! ### The search for a precision that settles -/

theorem firstAnswer_eq {α : Type} (f : Nat → Option α) (n : Nat) : firstAnswer f n = settle f n := by
  rw [firstAnswer]; rfl

/-- A settled answer is one some precision gave. -/
theorem settle_some {α : Type} {f : Nat → Option α} {n : Nat} {a : α} (h : settle f n = some a) :
    ∃ m ≥ n, f m = some a := by
  rw [← firstAnswer_eq] at h
  refine firstAnswer.partial_correctness f (fun n r => ∃ m ≥ n, f m = some r) ?_ n a h
  intro g hg n r hr
  split at hr
  · exact ⟨n, le_rfl, by simp_all⟩
  · obtain ⟨m, hm, h⟩ := hg _ _ hr
    exact ⟨m, by omega, h⟩

/-- Nothing is settled only if no precision answers. -/
theorem settle_none {α : Type} {f : Nat → Option α} {n : Nat} (h : settle f n = none) : ∀ m ≥ n, f m = none := by
  intro m hm
  obtain ⟨j, rfl⟩ := Nat.exists_eq_add_of_le hm
  clear hm
  induction j generalizing n with
  | zero =>
    unfold settle at h
    split at h
    · cases h
    · assumption
  | succ j ih =>
    unfold settle at h
    split at h
    · cases h
    · rw [firstAnswer_eq] at h
      have := ih h
      rwa [show n + (j + 1) = n + 1 + j by omega]

/-! ### The verdict -/

theorem univCrit_cast : ((Config.univCrit : ℚ) : ℝ) = 1.2816 := by
  simp only [Config.univCrit]; push_cast; norm_num

section
variable (b : Band) (p : ℕ+) (K : Nat) (hK : 0 < K)
include hK

/-- The enclosures at a precision, for |stat| and the band, with their width. -/
theorem zone_enclosures {x : ℝ} (hx : x = univReal (Real.logb 2 (p : ℕ)) K) (n : Nat) (hn : 10 ≤ n) :
    (((univStat p K n).abs.lo : ℝ) ≤ |x| ∧ |x| ≤ (univStat p K n).abs.hi)
      ∧ ((univStat p K n).abs.hi : ℝ) - (univStat p K n).abs.lo ≤ 196 * ((Nat.log2 p : ℝ) + 1) / 2 ^ n := by
  have ⟨h1, h2⟩ := univStat_sound p K hK n hn
  rw [← hx] at h1 h2
  exact ⟨Enclosure.abs_sound h1 h2, (Enclosure.abs_width _).trans (univStat_width p K hK n hn)⟩

/-- A zone that some precision gives is the right one (R159). -/
theorem zoneAt_sound {x : ℝ} (hx : x = univReal (Real.logb 2 (p : ℕ)) K) {n : Nat} (hn : 10 ≤ n) {z : Zone}
    (h : zoneAt b p K n = some z) :
    match z with
    | .inside => |x| ≤ 1.2816 - bandWidth b
    | .outside => 1.2816 + bandWidth b ≤ |x| ∧ 1.2816 < |x|
    | .band => 1.2816 - bandWidth b < |x| ∧ |x| < 1.2816 + bandWidth b := by
  have ⟨⟨h1, h2⟩, _⟩ := zone_enclosures p K hK hx n hn
  have ⟨w1, w2, _⟩ := bandEnclosure_spec b n
  unfold zoneAt at h
  simp only at h
  have c := univCrit_cast
  split at h
  · rename_i hz; cases h
    have : ((univStat p K n).abs.hi : ℝ) ≤ Config.univCrit - (bandEnclosure b n).hi := by exact_mod_cast hz
    simp only; linarith
  split at h
  · rename_i hz; cases h
    have t1 : (Config.univCrit : ℝ) + (bandEnclosure b n).hi ≤ (univStat p K n).abs.lo := by exact_mod_cast hz.1
    have t2 : (Config.univCrit : ℝ) < (univStat p K n).abs.lo := by exact_mod_cast hz.2
    constructor <;> linarith
  split at h
  · rename_i hz; cases h
    have t1 : (Config.univCrit : ℝ) - (bandEnclosure b n).lo < (univStat p K n).abs.lo := by exact_mod_cast hz.1
    have t2 : ((univStat p K n).abs.hi : ℝ) < Config.univCrit + (bandEnclosure b n).lo := by exact_mod_cast hz.2
    constructor <;> linarith
  · cases h

/-- Where no precision gives a zone, |stat| is an end of the guard band (R159). -/
theorem zoneAt_none {x : ℝ} (hx : x = univReal (Real.logb 2 (p : ℕ)) K) {n0 : Nat}
    (h : ∀ n ≥ n0, zoneAt b p K n = none) : |x| = 1.2816 - bandWidth b ∨ |x| = 1.2816 + bandWidth b := by
  by_contra hne
  rw [not_or] at hne
  set w := bandWidth b with hw
  have hw0 : 0 ≤ w := by
    have := (bandEnclosure_spec b 0).1
    refine le_trans ?_ this
    cases b <;> simp only [bandEnclosure] <;> push_cast <;> positivity
  obtain ⟨ε, hε, he1, he2⟩ : ∃ ε > 0, ε ≤ |(|x| - (1.2816 - w))| ∧ ε ≤ |(|x| - (1.2816 + w))| :=
    ⟨min |(|x| - (1.2816 - w))| |(|x| - (1.2816 + w))|,
      lt_min (abs_pos.2 (sub_ne_zero.2 hne.1)) (abs_pos.2 (sub_ne_zero.2 hne.2)), min_le_left _ _, min_le_right _ _⟩
  obtain ⟨n1, hn1⟩ := exists_div_pow_lt (196 * ((Nat.log2 p : ℝ) + 1)) (by linarith : 0 < ε / 2)
  obtain ⟨n2, hn2⟩ := exists_div_pow_lt 1 (by linarith : 0 < ε / 2)
  obtain ⟨n, g0, g1, g2, g10⟩ : ∃ n, n0 ≤ n ∧ n1 ≤ n ∧ n2 ≤ n ∧ 10 ≤ n :=
    ⟨n0 + n1 + n2 + 10, by omega, by omega, by omega, by omega⟩
  have ⟨⟨h1, h2⟩, h3⟩ := zone_enclosures p K hK hx n g10
  have ⟨w1, w2, w3⟩ := bandEnclosure_spec b n
  rw [← hw] at w1 w2
  have d1 := hn1 n g1
  have d2 := hn2 n g2
  have hz := h n g0
  have c := univCrit_cast
  unfold zoneAt at hz
  simp only at hz
  split at hz
  · cases hz
  rename_i z1
  split at hz
  · cases hz
  rename_i z2
  split at hz
  · cases hz
  rename_i z3
  have z1' : ¬ ((univStat p K n).abs.hi : ℝ) ≤ Config.univCrit - (bandEnclosure b n).hi := by exact_mod_cast z1
  have z2' : ¬ ((Config.univCrit : ℝ) + (bandEnclosure b n).hi ≤ (univStat p K n).abs.lo
      ∧ (Config.univCrit : ℝ) < (univStat p K n).abs.lo) := by exact_mod_cast z2
  have z3' : ¬ ((Config.univCrit : ℝ) - (bandEnclosure b n).lo < (univStat p K n).abs.lo
      ∧ ((univStat p K n).abs.hi : ℝ) < Config.univCrit + (bandEnclosure b n).lo) := by exact_mod_cast z3
  rcases abs_cases (|x| - (1.2816 - w)) with ⟨e1, s1⟩ | ⟨e1, s1⟩
  · rcases abs_cases (|x| - (1.2816 + w)) with ⟨e2, s2⟩ | ⟨e2, s2⟩
    · exact z2' ⟨by linarith, by linarith⟩
    · exact z3' ⟨by linarith, by linarith⟩
  · exact z1' (by linarith)

/-- The comparison with UNIV_CRIT is exact: PASS in the closed interval (R159). -/
theorem within_exact {x : ℝ} (hx : x = univReal (Real.logb 2 (p : ℕ)) K) {n : Nat} (hn : 10 ≤ n) :
    (settle (withinAt p K) n).getD true = true ↔ |x| ≤ 1.2816 := by
  have c := univCrit_cast
  cases h : settle (withinAt p K) n with
  | some r =>
    obtain ⟨m, hm, hr⟩ := settle_some h
    have ⟨⟨h1, h2⟩, _⟩ := zone_enclosures p K hK hx m (by omega)
    unfold withinAt at hr
    simp only at hr
    split at hr
    · rename_i hz; cases hr
      have : ((univStat p K m).abs.hi : ℝ) ≤ Config.univCrit := by exact_mod_cast hz
      simp only [Option.getD_some, true_iff]; linarith
    split at hr
    · rename_i hz; cases hr
      have : (Config.univCrit : ℝ) < (univStat p K m).abs.lo := by exact_mod_cast hz
      simp only [Option.getD_some, Bool.false_eq_true, false_iff, not_le]; linarith
    · cases hr
  | none =>
    simp only [Option.getD_none, true_iff]
    by_contra hgt
    rw [not_le] at hgt
    obtain ⟨n1, hn1⟩ := exists_div_pow_lt (196 * ((Nat.log2 p : ℝ) + 1)) (by linarith : 0 < |x| - 1.2816)
    have hnone := settle_none h (n + n1) (by omega)
    have ⟨⟨h1, h2⟩, h3⟩ := zone_enclosures p K hK hx (n + n1) (by omega)
    have d := hn1 (n + n1) (by omega)
    unfold withinAt at hnone
    simp only at hnone
    split at hnone
    · cases hnone
    split at hnone
    · cases hnone
    · rename_i hz
      have : ¬ (Config.univCrit : ℝ) < (univStat p K (n + n1)).abs.lo := by exact_mod_cast hz
      exact this (by linarith)

/-- The universal verdict is that of the exact real statistic (R159): the draw in the guard band, elsewhere PASS exactly in
the closed critical interval. -/
theorem univVerdict_exact {x : ℝ} (hx : x = univReal (Real.logb 2 (p : ℕ)) K) (draw : Bool) :
    (InBand b x → univVerdict b p K draw = Verdict.judge draw)
      ∧ (¬ InBand b x → (|x| ≤ 1.2816 → univVerdict b p K draw = .pass) ∧ (1.2816 < |x| → univVerdict b p K draw = .fail)) := by
  have hn := ten_le_univBits p
  have hw0 : 0 ≤ bandWidth b := by
    refine le_trans ?_ (bandEnclosure_spec b 0).1
    cases b <;> simp only [bandEnclosure] <;> push_cast <;> positivity
  have hband : InBand b x ↔ 1.2816 - bandWidth b < |x| ∧ |x| < 1.2816 + bandWidth b := by
    simp only [InBand, abs_lt (a := |x| - 1.2816)]
    constructor
    · rintro ⟨_, h1, h2⟩; constructor <;> linarith
    · rintro ⟨h1, h2⟩; exact ⟨by linarith, by linarith, by linarith⟩
  rw [hband]
  unfold univVerdict
  cases h : settle (zoneAt b p K) (univBits p) with
  | some z =>
    obtain ⟨m, hm, hz⟩ := settle_some h
    have hs := zoneAt_sound b p K hK hx (by omega) hz
    cases z with
    | inside => exact ⟨fun hb => absurd hs (not_le.2 hb.1), fun _ => ⟨fun _ => rfl, fun h => absurd h (by linarith)⟩⟩
    | outside => exact ⟨fun hb => absurd hs.1 (not_le.2 hb.2), fun _ => ⟨fun h => absurd h (by linarith [hs.2]), fun _ => rfl⟩⟩
    | band => exact ⟨fun _ => rfl, fun h => absurd hs h⟩
  | none =>
    have he := zoneAt_none b p K hK hx (settle_none h)
    have hi := within_exact p K hK hx hn
    refine ⟨fun hb => ?_, fun _ => ⟨fun hle => ?_, fun hgt => ?_⟩⟩
    · rcases he with he | he
      · exact absurd hb.1 (by rw [he]; exact lt_irrefl _)
      · exact absurd hb.2 (by rw [he]; exact lt_irrefl _)
    · show Verdict.judge _ = _
      rw [hi.2 hle]; rfl
    · show Verdict.judge _ = _
      rw [Bool.eq_false_iff.2 fun ht => absurd (hi.1 ht) (not_le.2 hgt)]; rfl

/-! ### The readout -/

/-- The universal readout is the floor or the ceiling of 2^24 times the exact real statistic, by the draw: every integer
R162 allows and no other. -/
theorem univReadout_exact {x : ℝ} (hx : x = univReal (Real.logb 2 (p : ℕ)) K) (draw : Bool) :
    univReadout p K draw = if draw then ⌈2 ^ 24 * x⌉ else ⌊2 ^ 24 * x⌋ := by
  have hn := ten_le_univBits p
  have henc : ∀ n, 10 ≤ n → ∀ up : ℤ, up = (2 ^ Config.statFrac * (univStat p K n).lo).ceil →
      ((up : ℝ) - 1 < 2 ^ 24 * x ∧ (2 : ℝ) ^ 24 * (univStat p K n).lo ≤ up
        ∧ 2 ^ 24 * x ≤ 2 ^ 24 * ((univStat p K n).hi : ℝ) ∧ (2 : ℝ) ^ 24 * (univStat p K n).lo ≤ 2 ^ 24 * x) := by
    intro n hn up hup
    have ⟨h1, h2⟩ := univStat_sound p K hK n hn
    rw [← hx] at h1 h2
    have hup' : up = ⌈(2 ^ 24 * (univStat p K n).lo : ℚ)⌉ := by rw [hup, Rat.ceil_eq_neg_floor_neg]; rfl
    have c1 : (2 ^ 24 * (univStat p K n).lo : ℚ) ≤ up := by rw [hup']; exact Int.le_ceil _
    have c2 : (up : ℚ) < 2 ^ 24 * (univStat p K n).lo + 1 := by rw [hup']; exact Int.ceil_lt_add_one _
    have c1r : (2 ^ 24 * ((univStat p K n).lo : ℝ)) ≤ up := by exact_mod_cast c1
    have c2r : (up : ℝ) < 2 ^ 24 * ((univStat p K n).lo : ℝ) + 1 := by exact_mod_cast c2
    exact ⟨by linarith, c1r, by linarith, by linarith⟩
  unfold univReadout
  cases h : settle (roundAt p K) (univBits p) with
  | some m =>
    obtain ⟨n, hge, hm⟩ := settle_some h
    unfold roundAt at hm
    simp only at hm
    split at hm
    · rename_i hz
      have ⟨e1, e2, e3, e4⟩ := henc n (by omega) _ rfl
      set up := (2 ^ Config.statFrac * (univStat p K n).lo).ceil
      have hz' : (2 : ℝ) ^ 24 * (univStat p K n).hi < (up : ℝ) := by
        have : ((2 ^ 24 * (univStat p K n).hi : ℚ)) < (up : ℚ) := hz
        exact_mod_cast this
      cases hm
      have hfl : ⌊2 ^ 24 * x⌋ = up - 1 := by rw [Int.floor_eq_iff]; push_cast; constructor <;> linarith
      have hce : ⌈2 ^ 24 * x⌉ = up := by rw [Int.ceil_eq_iff]; constructor <;> linarith
      rw [hfl, hce]
    split at hm
    · rename_i hz
      have ⟨e1, e2, e3, e4⟩ := henc n (by omega) _ rfl
      set up := (2 ^ Config.statFrac * (univStat p K n).lo).ceil
      have hlo : (2 : ℝ) ^ 24 * (univStat p K n).lo = (up : ℝ) := by
        have : ((2 ^ 24 * (univStat p K n).lo : ℚ)) = (up : ℚ) := hz.1
        exact_mod_cast this
      rw [hz.2] at e3
      cases hm
      have hx' : 2 ^ 24 * x = up := by linarith
      rw [hx', Int.floor_intCast, Int.ceil_intCast]
    · cases hm
  | none =>
    have hnone := settle_none h
    have hint : (⌊2 ^ 24 * x⌋ : ℝ) = 2 ^ 24 * x := by
      by_contra hne
      have hlt : (⌊2 ^ 24 * x⌋ : ℝ) < 2 ^ 24 * x := lt_of_le_of_ne (Int.floor_le _) hne
      have hlt2 : 2 ^ 24 * x < (⌊2 ^ 24 * x⌋ : ℝ) + 1 := Int.lt_floor_add_one _
      obtain ⟨ε, hε, he1, he2⟩ : ∃ ε > 0, ε ≤ 2 ^ 24 * x - ⌊2 ^ 24 * x⌋ ∧ ε ≤ ⌊2 ^ 24 * x⌋ + 1 - 2 ^ 24 * x :=
        ⟨min (2 ^ 24 * x - ⌊2 ^ 24 * x⌋) (⌊2 ^ 24 * x⌋ + 1 - 2 ^ 24 * x), lt_min (by linarith) (by linarith),
          min_le_left _ _, min_le_right _ _⟩
      obtain ⟨n1, hn1⟩ := exists_div_pow_lt (196 * ((Nat.log2 p : ℝ) + 1)) (by positivity : 0 < ε / 2 ^ 24)
      have hz := hnone (univBits p + n1) (by omega)
      have d := hn1 (univBits p + n1) (by omega)
      have wd := univStat_width p K hK (univBits p + n1) (by omega)
      have ⟨e1, e2, e3, e4⟩ := henc (univBits p + n1) (by omega) _ rfl
      unfold roundAt at hz
      simp only at hz
      split at hz
      · cases hz
      split at hz
      · cases hz
      · rename_i hz _
        set up := (2 ^ Config.statFrac * (univStat p K (univBits p + n1)).lo).ceil
        have hz' : (up : ℝ) ≤ 2 ^ 24 * (univStat p K (univBits p + n1)).hi := by
          have : (up : ℚ) ≤ (2 ^ 24 * (univStat p K (univBits p + n1)).hi : ℚ) := not_lt.1 hz
          exact_mod_cast this
        have hw : (2 : ℝ) ^ 24 * (univStat p K (univBits p + n1)).hi - 2 ^ 24 * (univStat p K (univBits p + n1)).lo < ε := by
          have := wd.trans_lt d
          rw [lt_div_iff₀ (by positivity)] at this
          linarith
        have b1 : ((⌊2 ^ 24 * x⌋ : ℤ) : ℝ) < up := by linarith
        have b2 : (up : ℝ) < (⌊2 ^ 24 * x⌋ : ℤ) + 1 := by linarith
        have b1' : ⌊2 ^ 24 * x⌋ < up := by exact_mod_cast b1
        have b2' : up < ⌊2 ^ 24 * x⌋ + 1 := by exact_mod_cast b2
        omega
    have ⟨e1, e2, e3, e4⟩ := henc (univBits p) hn _ rfl
    have wd := univStat_width_first p K hK
    show (2 ^ Config.statFrac * (univStat p K (univBits p)).lo).ceil = _
    set up := (2 ^ Config.statFrac * (univStat p K (univBits p)).lo).ceil with hup
    have hceil : up = ⌈(2 : ℝ) ^ 24 * ((univStat p K (univBits p)).lo : ℝ)⌉ := by
      have : up = ⌈(2 ^ 24 * (univStat p K (univBits p)).lo : ℚ)⌉ := by rw [hup, Rat.ceil_eq_neg_floor_neg]; rfl
      rw [this, ← Rat.ceil_cast (α := ℝ)]; push_cast; rfl
    have hupx : up = ⌊2 ^ 24 * x⌋ := by
      rw [hceil, Int.ceil_eq_iff, hint]
      have : 2 ^ 24 * x ≤ 2 ^ 24 * ((univStat p K (univBits p)).lo : ℝ) + 2 ^ 24 * (1 / 2 ^ 119) := by nlinarith
      have h119 : (2 : ℝ) ^ 24 * (1 / 2 ^ 119) < 1 := by norm_num
      constructor <;> linarith
    have hce : ⌈2 ^ 24 * x⌉ = ⌊2 ^ 24 * x⌋ := by rw [Int.ceil_eq_iff, hint]; constructor <;> linarith
    rw [hce, hupx]; simp

/-- The universal readout lies within 1 of the scaled statistic and is it where it is an integer (R162). -/
theorem univReadout_spec {x : ℝ} (hx : x = univReal (Real.logb 2 (p : ℕ)) K) (draw : Bool) :
    |(univReadout p K draw : ℝ) - 2 ^ 24 * x| < 1 ∧ ∀ m : ℤ, 2 ^ 24 * x = m → univReadout p K draw = m := by
  rw [univReadout_exact p K hK hx]
  refine ⟨?_, fun m hm => ?_⟩
  · cases draw
    · simp only [Bool.false_eq_true, if_false, abs_lt]
      have := Int.floor_le (2 ^ 24 * x); have := Int.lt_floor_add_one (2 ^ 24 * x)
      constructor <;> linarith
    · simp only [if_true, abs_lt]
      have := Int.le_ceil (2 ^ 24 * x); have := Int.ceil_lt_add_one (2 ^ 24 * x)
      constructor <;> linarith
  · rw [hm]; simp

end

/-- The universal statistic is small in every state that keeps the invariant (R164). -/
theorem univReal_bound {a : Accumulators} (h : a.Inv) (hN : 2000 < a.N.toNat) :
    |univReal a.USUM (a.N.toNat - 2000)| < 16 := by
  set K := a.N.toNat - 2000 with hK
  have hKpos : 0 < K := by omega
  have hKr : (1:ℝ) ≤ K := by exact_mod_cast hKpos
  have hu0 : 0 ≤ a.USUM := Real.logb_nonneg (by norm_num) (by exact_mod_cast a.USUMEXP.pos)
  have hu : a.USUM ≤ 24 * K := by
    have h1 : ((a.USUMEXP : ℕ) : ℝ) ≤ (2:ℝ) ^ ((24 * K : ℕ) : ℝ) := by
      rw [Real.rpow_natCast, pow_mul]
      have := h.usum_le
      simp only [Config.univInit] at this
      exact_mod_cast this
    unfold Accumulators.USUM
    rw [Real.logb_le_iff_le_rpow (by norm_num) (by exact_mod_cast a.USUMEXP.pos)]
    push_cast at h1
    exact h1
  clear_value K
  clear h hN
  generalize a.USUM = u at hu hu0 ⊢
  clear hK a
  have hK0 : (0:ℝ) < K := lt_of_lt_of_le one_pos hKr
  have h1 : 0 ≤ u / K := by positivity
  have h2 : u / K ≤ 24 := by rw [div_le_iff₀ hK0]; exact hu
  obtain ⟨y, hy⟩ : ∃ y, y = u / K := ⟨_, rfl⟩
  rw [← hy] at h1 h2
  have hx1 : (K : ℝ) ^ (-(3 / 8) : ℝ) ≤ 1 :=
    Real.rpow_le_one_of_one_le_of_nonpos hKr (by norm_num)
  have hx0 : 0 < (K : ℝ) ^ (-(3 / 8) : ℝ) := Real.rpow_pos_of_pos (by linarith) _
  have hs1 : (1.799 : ℝ) < Real.sqrt 3.238 := by rw [Real.lt_sqrt (by norm_num)]; norm_num
  have hC : 0.6 < univC K := by unfold univC; linarith
  have hD : 1.0794 < univC K * Real.sqrt 3.238 := by nlinarith
  unfold univReal
  rw [← hy]
  generalize univC K * Real.sqrt 3.238 = D at hD
  have : |y - 7.1836656| < 16 * D := by rw [abs_lt]; constructor <;> linarith
  have hD0 : 0 < D := by linarith
  rw [abs_div, abs_of_pos hD0, div_lt_iff₀ hD0]; exact this

end Sys2Proof.Machine
end

