-- ==== Sys2Proof/Tests/Slice0.lean ====
section
/-!
SUPPORT. Tests against values of the spec (spec/95_test_vectors.md L1, L2 and the rules' own examples), the smoke test of
WellFormed, and a witness for the hypotheses of every obligation.
-/

namespace Sys2Proof.Machine

/-- The state after one edge at which the host presents `w`, as far as `f` looks at it. -/
def press {α : Type} (w : Word) (s : State) (f : State → α) : Option α :=
  match step (s.withFetchWord 32 w.toNat) with
  | .next t => some (f t)
  | .fault _ => none
  | .refused _ => none

/-- A state whose key and engine hold the same eight bytes. -/
def seeded (key : Vector Byte 8) : State := { State.reset with KEY := key, S := key }

/-! ### WellFormed: one ill-formed term for each check -/

theorem test_wf_keyw : (AsmLine.keyw 7 255).wf = true := by decide
theorem test_illformed_keyw_slot : (AsmLine.keyw 8 0).wf = false := by decide
theorem test_illformed_keyw_byte : (AsmLine.keyw 0 256).wf = false := by decide
theorem test_illformed_step_byte : (AsmLine.step 256).wf = false := by decide
theorem test_illformed_rdreg_address : (AsmLine.rdreg 4096).wf = false := by decide
theorem test_illformed_ldkey_length : (AsmLine.ldkey [0, 1, 2, 3, 4, 5, 6]).wf = false := by decide
theorem test_illformed_ldkey_byte : (AsmLine.ldkey [0, 1, 2, 3, 4, 5, 6, 256]).wf = false := by decide
theorem test_illformed_xfer_byte : (AsmLine.xfer [0, 256]).wf = false := by decide
theorem test_illformed_rd64_slot : (AsmLine.rd64Stat 8).wf = false := by decide
theorem test_illformed_expands_to_nothing : AsmLine.expand (.keyw 8 0) = none := by decide

/-! ### Decode: words from spec/95_test_vectors.md L2.1, written out from the formats of R82 to R85 -/

theorem test_decode_nop : decode 0b00000000_00000000_00000000_00000000 = .ok .nop := by decide
theorem test_decode_keyw : decode 0b00000001_0000000000000_111_00110110 = .ok (.keyw 7 0x36) := by decide
theorem test_decode_seed : decode 0b00000010_00000000_00000000_00000000 = .ok .seed := by decide
theorem test_decode_step : decode 0b00000011_0000000000000000_11111111 = .ok (.step 0xFF) := by decide
theorem test_decode_eval : decode 0b00000100_00000000_00000000_00000000 = .ok .eval := by decide
theorem test_decode_rdreg : decode 0b00000101_000000000000_001011111111 = .ok (.rdreg 0x2FF) := by decide
theorem test_decode_clrerr : decode 0b00000110_00000000_00000000_00000000 = .ok .clrerr := by decide
theorem test_decode_opcode_7 : decode 0x07000000 = .error .opcode := by decide
theorem test_decode_all_ones : decode 0xFFFFFFFF = .error .opcode := by decide
theorem test_decode_nop_reserved : decode 0x00000001 = .error .rsvd := by decide
theorem test_decode_keyw_reserved : decode 0x01000800 = .error .rsvd := by decide
theorem test_decode_step_reserved : decode 0x03000100 = .error .rsvd := by decide
theorem test_decode_rdreg_reserved : decode 0x05001000 = .error .rsvd := by decide
theorem test_decode_reserved_before_address : decode 0x05FFFFFF = .error .rsvd := by decide
theorem test_table_word : decodeTableWord 32 0x010000C1 = some (.keyw 0 0xC1) := by decide
theorem test_table_word_rejected : decodeTableWord 32 0x07000000 = none := by decide

/-! ### The assembler (R91, R92) -/

theorem test_ldkey_words : AsmLine.words (.ldkey [0xC1, 0xD8, 0x79, 0x33, 0xDA, 0x59, 0x8C, 0x36]) = some
    [0x010000C1, 0x010001D8, 0x01000279, 0x01000333, 0x010004DA, 0x01000559, 0x0100068C, 0x01000736, 0x02000000] := by
  decide

/-- L2.1 and R92, as text. -/
theorem test_assemble : assemble ["KEYW 7, 0x36 ; last", "", "RDREG UTAB255", "XFER 0, 255", "RD64 STAT 7", "SEED"] = some
    [0x01000736, 0x050002FF, 0x03000000, 0x030000FF, 0x0500009E, 0x0500009F, 0x02000000] := by decide +kernel

theorem test_assemble_rejects : assembleLine "STEP 256" = none ∧ assembleLine "BRUN4" = none := by decide +kernel

/-! ### The seven commands -/

/-- R190. -/
theorem test_nop : press 0x00000000 State.reset (·.rsp) = some (some ⟨0, false⟩) := by decide

/-- L2.2, first row. -/
theorem test_keyw : press 0x01000300 State.reset (fun t => (t.KEY, t.S)) = some
    (#v[0xC1, 0xD8, 0x79, 0x00, 0xDA, 0x59, 0x8C, 0x36], #v[0xC1, 0xD8, 0x79, 0x33, 0xDA, 0x59, 0x8C, 0x36]) := by decide

/-- R101: S from KEY, IDX 0, ERR kept. -/
theorem test_seed : press 0x02000000 { State.reset with S := Vector.replicate 8 1, IDX := 3, ERR := true, SAT := true }
    (fun t => (t.S, t.IDX, t.ERR, t.SAT)) =
      some (#v[0xC1, 0xD8, 0x79, 0x33, 0xDA, 0x59, 0x8C, 0x36], 0, true, false) := by decide

/-- L1.1, the known-answer step. -/
theorem test_step : press 0x03000000 State.reset (fun t => (t.rsp, t.S)) = some
    (some ⟨0x00074112, false⟩, #v[0xC1, 0xD8, 0x79, 0x33, 0xDA, 0x59, 0x8C, 0x41]) := by decide

/-- L2.4, key 01 .. 08, first response. -/
theorem test_step_positive_key : press 0x03000000 (seeded #v[1, 2, 3, 4, 5, 6, 7, 8]) (·.rsp) =
    some (some ⟨0x00071078, false⟩) := by decide

/-- R150: EVAL of an empty sequence. -/
theorem test_eval_empty : press 0x04000000 State.reset (fun t => (t.rsp, t.RESVALID)) =
    some (some ⟨0x33333333, false⟩, true) := by decide

/-- The accumulators of L2.6 as far as EVAL at N = 16 reads them. -/
def sixteen : State :=
  { State.reset with
    acc := { Accumulators.clear with
      N := 16, ONES := 60, SQSUM := 20, BRUN := #v[15, 8, 4, 1, 0, 0, 0, 0], GRUN := #v[11, 8, 6, 3, 1, 1, 0, 0],
      ACP := #v[21, 2, 0, 0] } }

/-- L2.7, the row ref, 16. -/
theorem test_eval_sixteen : press 0x04000000 sixteen (fun t => (t.VERDICT, t.STAT)) =
    some (0x33311121, #v[8388608, 5100273664, 109642321, 12582912, 33554432, 0, 0, 0]) := by decide +kernel

/-- R191's example. -/
theorem test_rdreg : press 0x05000003 State.reset (·.rsp) = some (some ⟨0x33, false⟩) := by decide

/-- L2.1, the first unmapped address: ERR_ADDR, code 3. -/
theorem test_rdreg_unmapped : press 0x0500001A State.reset (fun t => (t.rsp, t.ERR, t.ERRCODE)) =
    some (some ⟨3, true⟩, true, 3) := by decide

/-- R192. -/
theorem test_clrerr : press 0x06000000 { State.reset with ERR := true, ERRCODE := 2, SAT := true }
    (fun t => (t.ERR, t.ERRCODE, t.SAT)) = some (false, 0, true) := by decide

/-! ### The parts of a STEP (L2.5, L2.6) -/

theorem test_feedback1_sign : feedback1 0x00 0x80 0x00 = 0xC0 := by decide
theorem test_feedback1_mask : feedback1 0x00 0x00 0xFF = 0xFE := by decide
theorem test_pack_negative : pack 0x12 0xB4 = 0xFFB4 := by decide
theorem test_pack_positive : pack 0x92 0x34 = 0x9234 := by decide
theorem test_feedback2_largest : feedback2 0x8000 0x8000 = 0x00 := by decide
theorem test_feedback2_smallest : feedback2 0x8000 0x7FFF = 0x80 := by decide

/-- R126's example: F0 0F. -/
theorem test_runs_across_bytes : ((Accumulators.clear.runsAcc 0xF0).runsAcc 0x0F).BRUN = #v[0, 0, 0, 1, 0, 0, 0, 0]
    ∧ ((Accumulators.clear.runsAcc 0xF0).runsAcc 0x0F).GRUN = #v[0, 0, 0, 0, 0, 0, 0, 1] := by decide

/-- L2.6: 00 00 leaves the 0-run counter at 9. -/
theorem test_runs_clamped : ((Accumulators.clear.runsAcc 0).runsAcc 0).RUN0 = 9 := by decide

/-- L2.7, the row ref, 2001: USUM is log2 262 (8.0334230015), K = 1, the readout is one of two integers. -/
theorem test_universal : (univReadout 262 1 false = 6990669 ∨ univReadout 262 1 false = 6990670)
    ∧ univVerdict (.fraction 0 1) 262 1 false = .pass := by decide +kernel

/-! ### The port -/

/-- R220, R227: cmd_ready is 0 while rst stays 1 after a reset edge, and 1 in the first cycle with rst = 1 after another. -/
theorem test_ready : State.reset.cmdReady true = false ∧ State.reset.cmdReady false = true
    ∧ press 0x00000000 State.reset (·.cmdReady true) = some true := by decide

/-- R220, R222: a reset edge abandons an EVAL and takes no command. -/
theorem test_reset_edge : step { State.reset with evalLeft := 2, ERR := true, pins := [⟨true, true, 0x03000000⟩] } =
    .next State.reset := by rfl

/-- R227: with EVAL_CYCLES = 3 the port is busy after the accepting edge. -/
theorem test_eval_busy : press 0x04000000 { State.reset with config := { Config.reference with evalCycles := 3 } }
    (fun t => (t.evalLeft, t.rsp, t.cmdReady false)) = some (2, none, false) := by decide

/-- R204 and R196: an unassigned opcode is recorded and the block goes on. -/
theorem test_error_opcode : press 0x07000000 State.reset (fun t => (t.rsp, t.ERR, t.ERRCODE, t.cmdReady false)) =
    some (some ⟨1, true⟩, true, 1, true) := by decide

/-! ### Witnesses: states and operands that meet each obligation's hypotheses -/

/-- A reset state at whose next edge the host presents `w`. -/
def presenting (w : Word) : State := { State.reset with pins := [⟨false, true, w⟩] }

/-- A reset state whose next edge is a reset edge. -/
def resetting : State := { State.reset with pins := [⟨true, false, 0⟩] }

/-- The accumulators after `n` zero bytes, but for USUM, which is log2 `p`. -/
def zeroBytes (n : Nat) (p : ℕ+) : Accumulators :=
  { Accumulators.clear with
    N := BitVec.ofNat 24 n, OCC := Accumulators.clear.OCC.set 0 (BitVec.ofNat 24 n), SQSUM := BitVec.ofNat 48 (n ^ 2)
    RUN0 := 9, UTAB := Accumulators.clear.UTAB.set 0 (BitVec.ofNat 24 (n - 1)), USUMEXP := p }

theorem zeroBytes_N (n : Nat) (p : ℕ+) (hn : n < 2 ^ 24) : (zeroBytes n p).N.toNat = n := by
  simp [zeroBytes]; omega

theorem zeroBytes_inv (n : Nat) (p : ℕ+) (h0 : 2 ≤ n) (hn : n < 2 ^ 24)
    (hp : (p : ℕ) ≤ (2 ^ 24) ^ (n - Config.univInit)) : (zeroBytes n p).Inv := by
  have hN := zeroBytes_N n p hn
  have hocc : ∀ v : Fin 256, ((zeroBytes n p).OCC[v]).toNat = if v = 0 then n else 0 := by
    intro v
    simp only [zeroBytes, Accumulators.clear, Fin.getElem_fin, Vector.getElem_set]
    by_cases hv : v = 0
    · subst hv; simp; omega
    · rw [if_neg (fun h => hv (Fin.ext h.symm)), if_neg hv]; simp
  have hsq : n ^ 2 < 2 ^ 48 := by
    calc n ^ 2 < (2 ^ 24) ^ 2 := Nat.pow_lt_pow_left hn (by norm_num)
      _ = 2 ^ 48 := by norm_num
  refine ⟨?_, ?_, ?_, ?_, ?_, ?_, ?_, ?_, ?_, ?_, ?_, ?_⟩
  · simp [zeroBytes, Accumulators.clear]
  · rw [hN, Finset.sum_congr rfl fun v _ => hocc v, Finset.sum_ite_eq', if_pos (Finset.mem_univ _)]
  · rw [Finset.sum_congr rfl fun v _ => congrArg (· ^ 2) (hocc v)]
    have h2 : (zeroBytes n p).SQSUM.toNat = n ^ 2 := by
      show (BitVec.ofNat 48 (n ^ 2)).toNat = n ^ 2
      rw [BitVec.toNat_ofNat, Nat.mod_eq_of_lt hsq]
    rw [h2]
    simp
  · simp [zeroBytes, Accumulators.clear]
  · simp [zeroBytes]
  · simp [zeroBytes, Accumulators.clear]
  · simp [zeroBytes, Accumulators.clear, runCount]
  · rw [hN]; simp [zeroBytes, Accumulators.clear, runCount]; omega
  · rw [hN]; simp [zeroBytes, Accumulators.clear, runBits]; omega
  · simp [zeroBytes, Accumulators.clear]
  · intro v
    rw [hN]
    simp only [zeroBytes, Accumulators.clear, Fin.getElem_fin, Vector.getElem_set]
    split
    · right; simp; omega
    · left; simp
  · rw [hN]; exact hp

theorem witness_DecodeOfEncode : (Instr.keyw 7 255).wf = true ∧ (Instr.rdreg 4095).wf = true := by decide

theorem witness_EncodeOfDecode : decode 0x010007FF = .ok (.keyw 7 255) := by decide

/-- The first word of each clause and, for the opcodes, the last. -/
theorem witness_MalformedWordRaises :
    0x07 ≤ (0x07000000#32 >>> 24).toNat ∧ 0x07 ≤ (0xFFFFFFFF#32 >>> 24).toNat
    ∧ ((0x00000001#32 >>> 24).toNat ∈ [0x00, 0x02, 0x04, 0x06] ∧ 0x00000001#32 &&& 0x00FFFFFF#32 ≠ 0)
    ∧ ((0x06800000#32 >>> 24).toNat ∈ [0x00, 0x02, 0x04, 0x06] ∧ 0x06800000#32 &&& 0x00FFFFFF#32 ≠ 0)
    ∧ ((0x01000800#32 >>> 24).toNat = 0x01 ∧ 0x01000800#32 &&& 0x00FFF800#32 ≠ 0)
    ∧ ((0x03000100#32 >>> 24).toNat = 0x03 ∧ 0x03000100#32 &&& 0x00FFFF00#32 ≠ 0)
    ∧ ((0x05001000#32 >>> 24).toNat = 0x05 ∧ 0x05001000#32 &&& 0x00FFF000#32 ≠ 0) := by decide

theorem witness_ResetEdgeSetsEveryRegister : Resets resetting := rfl

theorem witness_ResetEdgeGivesResetState : Resets resetting ∧ resetting.config = Config.reference := ⟨rfl, rfl⟩

/-- The lowest reserved bit of each format, for the clauses about a malformed word of KEYW, SEED, NOP, CLRERR and
RDREG. -/
theorem witness_malformed_words :
    ((0x01000800#32 >>> 24).toNat = 1 ∧ (0x01000800#32).extractLsb' 11 13 ≠ 0)
    ∧ ((0x02000001#32 >>> 24).toNat = 2 ∧ (0x02000001#32).extractLsb' 0 24 ≠ 0)
    ∧ ((0x00000001#32 >>> 24).toNat = 0 ∧ (0x00000001#32).extractLsb' 0 24 ≠ 0)
    ∧ ((0x06000001#32 >>> 24).toNat = 6 ∧ (0x06000001#32).extractLsb' 0 24 ≠ 0)
    ∧ ((0x05001000#32 >>> 24).toNat = 5 ∧ (0x05001000#32).extractLsb' 12 12 ≠ 0) := by decide

/-- L1.1: A = 0xFFD8 and B = 0xFF8C. -/
theorem witness_OutputByteUnsignedForm : ∃ t, exec (.step 0) State.reset = .next t
    ∧ (0xFFD8#16).toNat = packedNat (t.S[slot t.IDX 0]) (t.S[slot t.IDX 2])
    ∧ (0xFF8C#16).toNat = packedNat (t.S[slot t.IDX 4]) (t.S[slot t.IDX 7]) := ⟨_, rfl, by decide, by decide⟩

/-- A state whose test engine is full. -/
def full : State := { State.reset with acc := { Accumulators.clear with N := 0xFFFFFF } }

theorem witness_StepFrame : (∃ t, exec (.step 0) State.reset = .next t) ∧ State.reset.acc.N.toNat ≠ Config.obsMax
    ∧ (∃ t, exec (.step 0) full = .next t) ∧ full.acc.N.toNat = Config.obsMax :=
  ⟨⟨_, rfl⟩, by decide, ⟨_, rfl⟩, by decide⟩

theorem witness_KeystreamIndependentOfDataAndVernam :
    [0x00#8, 0x41#8].length = [0xFF#8, 0x42#8].length ∧ State.reset.S = full.S ∧ State.reset.IDX = full.IDX
    ∧ State.reset.KEY = full.KEY := by decide

theorem witness_StepCounterCountsSteps :
    (∃ t, exec .seed State.reset = .next t ∧ (observed [0] t).getLast? = some 0x41)
    ∧ (List.replicate 8 (0 : Byte)).length = 8 := ⟨⟨_, rfl, by decide⟩, rfl⟩

theorem witness_ZeroStateFixedPoint : ∀ k : Fin 8, (seeded (Vector.replicate 8 0)).S[k] = 0 := by decide

theorem witness_AccumulatorsEqualSequence : ∃ t u, exec .seed State.reset = .next t ∧ xfer [0, 1] t = .next u
    ∧ [0#8, 1#8].length ≤ Config.obsMax := ⟨_, _, rfl, rfl, by decide⟩

theorem witness_RunCountersEqualMaximalRuns : ∃ t u, exec .seed State.reset = .next t ∧ xfer [] t = .next u
    ∧ ([] : List Byte).length ≤ Config.obsMax := ⟨_, _, rfl, rfl, by decide⟩

/-- A saturated state. -/
def saturated : State := { full with SAT := true }

theorem witness_SaturationChangesOnlySat :
    (full.acc.N.toNat = Config.obsMax ∧ State.reset.S = full.S ∧ State.reset.IDX = full.IDX)
    ∧ (saturated.SAT = true ∧ (∃ t, step saturated = .next t) ∧ ∃ t, exec .eval saturated = .next t) :=
  ⟨by decide, rfl, ⟨_, rfl⟩, ⟨_, rfl⟩⟩

theorem witness_StepAccumulatesExactly :
    ((zeroBytes 1999 1).Inv ∧ (zeroBytes 1999 1).N.toNat < 2000)
    ∧ ((zeroBytes 2000 1).Inv ∧ (zeroBytes 2000 1).N.toNat < Config.obsMax ∧ 2000 ≤ (zeroBytes 2000 1).N.toNat) :=
  ⟨⟨zeroBytes_inv _ _ (by norm_num) (by norm_num) (by simp [Config.univInit]), by decide⟩,
    zeroBytes_inv _ _ (by norm_num) (by norm_num) (by simp [Config.univInit]), by decide, by decide⟩

theorem witness_AccumulatorsFitTheirWidths : Accumulators.clear.Inv
    ∧ (zeroBytes (2 ^ 24 - 1) 1).Inv ∧ 0 < (zeroBytes (2 ^ 24 - 1) 1).N.toNat :=
  ⟨clear_inv, zeroBytes_inv _ _ (by norm_num) (by norm_num) (by exact Nat.one_le_pow _ _ (by norm_num)), by decide⟩

theorem witness_EvalAfterSaturationOverflows : saturated.SAT = true := rfl

theorem witness_InsufficientExactlyWhenTooShort : (∃ t, exec .eval State.reset = .next t)
    ∧ (∃ t, exec .eval saturated = .next t) ∧ ∃ t, exec .eval sixteen = .next t := ⟨⟨_, rfl⟩, ⟨_, rfl⟩, ⟨_, rfl⟩⟩

/-- N = 11 is the first length at which slot 3 is judged, N = 26 the first at which slot 6 is. -/
theorem witness_SlotsZeroToSixByIntegerComparison : ∀ n ∈ [11, 16, 21, 26],
    ∃ s t : State, exec .eval s = .next t ∧ s.SAT = false ∧ s.acc.N.toNat = n
      ∧ ∃ (m p : Fin 8 → ℤ) (D : ℤ), (∀ i, m i = 8 * (n : ℤ) - (i.val + 1) + 3) ∧ (∀ i, p i = 2 ^ (i.val + 3))
        ∧ D = ∏ i, p i * m i ∧ (n : ℤ) ≠ 0 ∧ (n : ℤ) > Config.tau 0 ∧ (n = 26 → (n : ℤ) > Config.tau 3) := by
  intro n hn
  refine ⟨{ State.reset with acc := zeroBytes n 1 }, _, rfl, rfl, zeroBytes_N _ _ ?_, _, _, _, fun _ => rfl, fun _ => rfl,
    rfl, ?_, ?_, ?_⟩ <;> (simp at hn; rcases hn with rfl | rfl | rfl | rfl <;> simp [Config.tau])

/-- Slot 7 at K = 625000 and USUM = 4489791: the statistic is exactly 0, an integer. -/
def zeroStatistic : State := { State.reset with acc := zeroBytes 627000 ⟨2 ^ 4489791, Nat.two_pow_pos _⟩ }

theorem zeroStatistic_inv : zeroStatistic.acc.Inv :=
  zeroBytes_inv _ _ (by norm_num) (by norm_num) (by
    show 2 ^ 4489791 ≤ (2 ^ 24) ^ (627000 - Config.univInit)
    rw [← pow_mul]; exact Nat.pow_le_pow_right (by norm_num) (by simp [Config.univInit]))

theorem zeroStatistic_eq : univReal zeroStatistic.acc.USUM (zeroStatistic.acc.N.toNat - 2000) = 0 := by
  have hN : zeroStatistic.acc.N.toNat = 627000 := zeroBytes_N _ _ (by norm_num)
  have hU : zeroStatistic.acc.USUM = 4489791 := by
    show Real.logb 2 ((2 ^ 4489791 : ℕ) : ℝ) = 4489791
    rw [Nat.cast_pow, Real.logb_pow, show ((2 : ℕ) : ℝ) = 2 from Nat.cast_ofNat, Real.logb_self_eq_one (by norm_num)]
    norm_num
  rw [hN, hU, univReal]; norm_num

theorem witness_ReadoutsAreFixedPoint :
    (State.reset.acc.Inv ∧ ∃ t, exec .eval State.reset = .next t ∧ ∀ k : Fin 8,
      verdictSlot t.VERDICT k ≠ 1 ∧ verdictSlot t.VERDICT k ≠ 2)
    ∧ zeroStatistic.acc.Inv ∧ (∃ t, exec .eval zeroStatistic = .next t) ∧ zeroStatistic.SAT = false
    ∧ (∀ N : ℚ, N = zeroStatistic.acc.N.toNat → N ≠ 0 ∧ N > Config.tau 3 ∧ N > 2000)
    ∧ 2 ^ 24 * univReal zeroStatistic.acc.USUM (zeroStatistic.acc.N.toNat - 2000) = ((0 : ℤ) : ℝ) := by
  have hN : zeroStatistic.acc.N.toNat = 627000 := zeroBytes_N _ _ (by norm_num)
  refine ⟨⟨clear_inv, _, rfl, by decide⟩, zeroStatistic_inv, ⟨_, rfl⟩, rfl, ?_, ?_⟩
  · rintro N rfl; rw [hN]; norm_num [Config.tau]
  · rw [zeroStatistic_eq]; norm_num

theorem witness_StatisticRanges : (zeroBytes 2001 1).Inv ∧ 0 < (zeroBytes 2001 1).N.toNat
    ∧ (∀ l : Fin 4, Config.tau l < (zeroBytes 2001 1).N.toNat) ∧ 2000 < (zeroBytes 2001 1).N.toNat :=
  ⟨zeroBytes_inv _ _ (by norm_num) (by norm_num) (by simp [Config.univInit]), by decide, by decide, by decide⟩

/-- `zeroStatistic` with the guard band 2 around ±1.2816, in which its statistic 0 lies. -/
def bandStatistic : State := { zeroStatistic with config := { Config.reference with univBand := .fraction 2 1 } }

theorem reference_band (x : ℝ) : ¬ InBand Config.reference.univBand x := by
  simp [InBand, bandWidth, Config.reference]

theorem bandStatistic_inBand :
    InBand bandStatistic.config.univBand (univReal bandStatistic.acc.USUM (bandStatistic.acc.N.toNat - 2000)) := by
  show InBand (.fraction 2 1) (univReal zeroStatistic.acc.USUM (zeroStatistic.acc.N.toNat - 2000))
  rw [zeroStatistic_eq]
  norm_num [InBand, bandWidth, abs_lt]

/-- In the band; outside it with the statistic 0 in the interval; outside it with USUM = 0 at K = 1, out of the interval. -/
theorem witness_UniversalVerdictIsExact :
    ((∃ t, exec .eval bandStatistic = .next t) ∧ bandStatistic.SAT = false ∧ 2000 < bandStatistic.acc.N.toNat
      ∧ InBand bandStatistic.config.univBand (univReal bandStatistic.acc.USUM (bandStatistic.acc.N.toNat - 2000)))
    ∧ ((∃ t, exec .eval zeroStatistic = .next t) ∧ zeroStatistic.SAT = false ∧ 2000 < zeroStatistic.acc.N.toNat
      ∧ ¬ InBand zeroStatistic.config.univBand (univReal zeroStatistic.acc.USUM (zeroStatistic.acc.N.toNat - 2000))
      ∧ univReal zeroStatistic.acc.USUM (zeroStatistic.acc.N.toNat - 2000) = 0)
    ∧ ∃ s : State, s = { State.reset with acc := zeroBytes 2001 1 } ∧ (∃ t, exec .eval s = .next t) ∧ s.SAT = false
      ∧ 2000 < s.acc.N.toNat
      ∧ ¬ InBand s.config.univBand (univReal s.acc.USUM (s.acc.N.toNat - 2000))
      ∧ 1.2816 < |univReal s.acc.USUM (s.acc.N.toNat - 2000)| := by
  have hN : zeroStatistic.acc.N.toNat = 627000 := zeroBytes_N _ _ (by norm_num)
  have hN' : bandStatistic.acc.N.toNat = 627000 := hN
  refine ⟨⟨⟨_, rfl⟩, rfl, by rw [hN']; norm_num, bandStatistic_inBand⟩,
    ⟨⟨_, rfl⟩, rfl, by rw [hN]; norm_num, reference_band _, zeroStatistic_eq⟩,
    _, rfl, ⟨_, rfl⟩, rfl, by decide, reference_band _, ?_⟩
  show 1.2816 < |univReal (Real.logb 2 ((1 : ℕ) : ℝ)) ((zeroBytes 2001 1).N.toNat - 2000)|
  rw [zeroBytes_N _ _ (by norm_num)]
  have hs : Real.sqrt 3.238 < 1.8 := by rw [Real.sqrt_lt' (by norm_num)]; norm_num
  have hs0 : 0 < Real.sqrt 3.238 := Real.sqrt_pos.2 (by norm_num)
  have hC : univC (2001 - 2000) = 17 / 15 := by norm_num [univC]
  rw [univReal, hC]
  generalize Real.sqrt 3.238 = σ at hs hs0 ⊢
  rw [abs_div, abs_of_pos (by positivity : 0 < 17 / 15 * σ), lt_div_iff₀ (by positivity)]
  norm_num
  linarith

theorem witness_ConstantSequenceFailsFrequency :
    ([0x00#8] ≠ [] ∧ [0x00#8].length ≤ Config.obsMax ∧ ∀ x ∈ [0x00#8], x = 0x00)
    ∧ ([0xFF#8, 0xFF#8] ≠ [] ∧ [0xFF#8, 0xFF#8].length ≤ Config.obsMax ∧ ∀ x ∈ [0xFF#8, 0xFF#8], x = 0xFF) := by decide

theorem witness_RepeatedEvalAgrees : ∃ t u, exec .eval sixteen = .next t ∧ exec .eval t = .next u ∧ (6 : Fin 8) ≠ 7 :=
  ⟨_, _, rfl, rfl, by decide⟩

/-- Both ends of every gap of the map, and the addresses beside them. -/
theorem witness_RdregAnswersOrRaises :
    (∀ a ∈ [0x01A, 0x01F, 0x034, 0x03F, 0x05A, 0x07F, 0x081, 0x08F, 0x0A0, 0x0FF, 0x300, 0xFFF], unmapped a)
    ∧ ∀ a ∈ [0x000, 0x019, 0x020, 0x033, 0x040, 0x059, 0x080, 0x090, 0x09F, 0x100, 0x2FF], ¬ unmapped a := by
  simp [unmapped]

theorem witness_PseudoCommandsExpand : (7 : Nat) < 8 := by decide

/-- Each error, with the record clear and set, and two states that differ in the record only. -/
theorem witness_CommandErrorIsPrecise :
    Raises (presenting 0x07000000) .opcode ∧ Raises (presenting 0x00000001) .rsvd ∧ Raises (presenting 0x0500001A) .addr
    ∧ (presenting 0x07000000).ERR = false
    ∧ (Raises { presenting 0x07000000 with ERR := true } .opcode)
    ∧ (∃ s' t : State, s' = { State.reset with ERR := s'.ERR, ERRCODE := s'.ERRCODE } ∧ s'.ERR = true
      ∧ exec .eval State.reset = .next t ∧ Instr.eval ≠ .rdreg 0x00B) :=
  ⟨⟨_, ⟨rfl, rfl, rfl, rfl⟩, .inl (by decide)⟩, ⟨_, ⟨rfl, rfl, rfl, rfl⟩, .inl (by decide)⟩,
    ⟨_, ⟨rfl, rfl, rfl, rfl⟩, .inr ⟨rfl, 0x01A, by decide, by decide⟩⟩, rfl,
    ⟨_, ⟨rfl, rfl, rfl, rfl⟩, .inl (by decide)⟩, { State.reset with ERR := true, ERRCODE := 2 }, _, rfl, rfl, rfl, by decide⟩

theorem witness_ErrorRecordChangesOnlyAsStated :
    ((∃ t, step resetting = .next t) ∧ Resets resetting)
    ∧ ((∃ t, step (presenting 0x06000000) = .next t) ∧ TakesEffect (presenting 0x06000000) .clrerr)
    ∧ ((∃ t, step (presenting 0xFF000000) = .next t) ∧ Raises (presenting 0xFF000000) .opcode
      ∧ (presenting 0xFF000000).ERR = false)
    ∧ ((∃ t, step { presenting 0xFF000000 with ERR := true } = .next t)
      ∧ Raises { presenting 0xFF000000 with ERR := true } .opcode)
    ∧ ((∃ t, step State.reset = .next t) ∧ ¬ Resets State.reset ∧ ¬ TakesEffect State.reset .clrerr
      ∧ ∀ e, ¬ Raises State.reset e) := by
  have ha : ∀ w, ¬ Accepts State.reset w := fun w h => Bool.noConfusion h.2.1
  refine ⟨⟨⟨_, rfl⟩, rfl⟩, ⟨⟨_, rfl⟩, .inl ⟨_, ⟨rfl, rfl, rfl, rfl⟩, by decide, by decide⟩⟩,
    ⟨⟨_, rfl⟩, ⟨_, ⟨rfl, rfl, rfl, rfl⟩, .inl (by decide)⟩, rfl⟩,
    ⟨⟨_, rfl⟩, ⟨_, ⟨rfl, rfl, rfl, rfl⟩, .inl (by decide)⟩⟩, ⟨_, rfl⟩, ?_, ?_, ?_⟩
  · exact Bool.noConfusion
  · rintro (⟨w, h, -⟩ | ⟨h, -⟩)
    · exact ha w h
    · cases h
  · rintro e ⟨w, h, -⟩; exact ha w h

/-- A block with EVAL_CYCLES = 3. -/
def slow (s : State) : State := { s with config := { s.config with evalCycles := 3 } }

theorem witness_StepRunsDecodedInstruction :
    ((presenting 0x04000000).pins = ⟨false, true, 0x04000000⟩ :: [] ∧ (presenting 0x04000000).evalLeft = 0
      ∧ decode 0x04000000 = .ok .eval ∧ (presenting 0x04000000).config.evalCycles = 1)
    ∧ ((slow (presenting 0x04000000)).pins = ⟨false, true, 0x04000000⟩ :: [] ∧ (slow (presenting 0x04000000)).evalLeft = 0
      ∧ 1 < ((slow (presenting 0x04000000)).config.evalCycles : ℕ))
    ∧ decode 0x07000000 = .error .opcode := by decide

theorem witness_EvalTakesEvalCycles :
    (Accepts (presenting 0x04000000) 0x04000000 ∧ decode 0x04000000 = .ok .eval
      ∧ ((presenting 0x04000000).config.evalCycles : ℕ) = 0 + 1
      ∧ ∀ p ∈ (presenting 0x04000000).pins.take 1, p.rst = false)
    ∧ (Accepts (slow (presenting 0x04000000)) 0x04000000
      ∧ ((slow (presenting 0x04000000)).config.evalCycles : ℕ) = 2 + 1
      ∧ (∀ p ∈ (slow (presenting 0x04000000)).pins.take 3, p.rst = false) ∧ 0 < 2 ∧ 2 ≤ 2) :=
  ⟨⟨⟨rfl, rfl, rfl, rfl⟩, by decide, by decide, by decide⟩, ⟨rfl, rfl, rfl, rfl⟩, by decide, by decide, by decide⟩

theorem witness_IdleHoldsState : State.reset.evalLeft = 0
    ∧ ∀ p ∈ ({ State.reset with pins := [Pins.idle] } : State).pins, p.rst = false ∧ p.cmdValid = false := by decide

theorem witness_OneResponsePerCommand : ∃ t r, step (presenting 0x03000000) = .next t ∧ t.rsp = some r :=
  ⟨_, _, rfl, rfl⟩

theorem witness_KeystreamRegistersWrittenOnlyBy :
    (∃ t, step (presenting 0x01000000) = .next t ∧ t.KEY ≠ (presenting 0x01000000).KEY)
    ∧ ∃ t, step (presenting 0x03000000) = .next t ∧ ¬ SameKeystream (presenting 0x03000000) t :=
  ⟨⟨_, rfl, by decide⟩, _, rfl, fun h => absurd h.2.1 (by decide)⟩

theorem witness_TestRegistersWrittenOnlyBy :
    (∃ t, step (presenting 0x03000000) = .next t ∧ ¬ SameTest (presenting 0x03000000) t)
    ∧ ∃ t, step (presenting 0x04000000) = .next t ∧ ¬ SameResults (presenting 0x04000000) t :=
  ⟨⟨_, rfl, fun h => absurd (congrArg Accumulators.N h.1) (by decide)⟩, _, rfl, fun h => absurd h.2.2 (by decide)⟩

/-- A reset edge, and an edge that is none. -/
theorem witness_ResetAcceptsNothingAndHoldsReady :
    ((∃ t, step resetting = .next t) ∧ Resets resetting)
    ∧ (∃ t, step State.reset = .next t) ∧ ¬ Resets State.reset :=
  ⟨⟨⟨_, rfl⟩, rfl⟩, ⟨_, rfl⟩, Bool.noConfusion⟩

/-- A state of the invariant with a count, a result and an EVAL in progress. -/
theorem witness_StepKeepsInvariant : ∃ s t : State, s.Inv ∧ step s = .next t ∧ s.evalLeft = 2 ∧ s.acc.N.toNat = 8 :=
  ⟨{ slow State.reset with acc := zeroBytes 8 1, evalLeft := 2, afterReset := false, RESVALID := true, VERDICT := 0x33333333 }, _,
    { acc := zeroBytes_inv _ _ (by norm_num) (by norm_num) (by simp [Config.univInit])
      idx := fun _ => by decide
      sat := fun h => Bool.noConfusion h
      errcode_zero := fun _ => rfl
      errcode_legal := fun h => Bool.noConfusion h
      no_result := fun h => Bool.noConfusion h
      result := fun _ => by decide
      stat_zero := by decide
      eval_left := by decide
      eval_silent := fun _ => rfl
      after_reset := fun h => Bool.noConfusion h }, rfl, rfl, by decide⟩

end Sys2Proof.Machine
end

section
/-!
SUPPORT. What the next edge does, in the terms of Safety.lean: a reset, an error, a command that takes effect, or nothing.
Then who may write which register (spec/10_state.md R20 to R39), and the error record (R27).
-/

namespace Sys2Proof.Machine

/-! ### What the next edge does -/

/-- The state that a command taking effect at the next edge works on: the edge's pins are taken, no EVAL is in progress. -/
def State.atEffect (s : State) : State := { s.popPins with evalLeft := 0 }

/-- An accepting edge finds no EVAL in progress. -/
theorem Accepts.atEffect {s : State} {w : Word} (h : Accepts s w) : s.popPins = s.atEffect := by
  rw [State.atEffect, ← h.ready.2]; rfl

theorem Raises.accepts {s : State} {e : CmdError} (h : Raises s e) : ∃ w, Accepts s w := by
  obtain ⟨w, ha, -⟩ := h; exact ⟨w, ha⟩

theorem TakesEffect.not_resets {s : State} {i : Instr} (h : TakesEffect s i) : ¬ Resets s := by
  obtain ⟨w, ha, -⟩ | ⟨-, hr, -⟩ := h
  · exact ha.ready.1
  · simp [Resets, hr]

/-- An RDREG of an unmapped address raises an error (R200). -/
theorem TakesEffect.raises_of_unmapped {s : State} {a : BitVec 12} (h : TakesEffect s (.rdreg a))
    (hn : regAt a.toNat = none) : Raises s .addr := by
  obtain ⟨w, ha, hd, -⟩ | ⟨he, -⟩ := h
  · exact ⟨w, ha, .inr ⟨rfl, a, hd, hn⟩⟩
  · cases he

theorem step_of_resets {s : State} (h : Resets s) : step s = .next s.popPins.resetEdge := by
  have hr : s.nextPins.rst = true := h
  simp [step, edge, hr]

theorem step_of_takesEffect {s : State} {i : Instr} (h : TakesEffect s i) : step s = exec i s.atEffect := by
  obtain ⟨w, ha, hd, hw⟩ | ⟨rfl, hr, hl⟩ := h
  · have hw' : waits i s.popPins = false := hw
    rw [step_of_accepts ha, ← ha.atEffect]
    simp [accept, hd, hw']
  · simp [step, edge, hr, hl, State.atEffect]

/-- What the next edge does, the seven cases of `StepCase` in four. -/
inductive EdgeEffect (s t : State) : Prop where
  /-- A reset edge. -/
  | reset (h : Resets s) (ht : t = s.popPins.resetEdge)
  /-- A word that does not decode raises an error. -/
  | error (e : CmdError) (h : Raises s e) (ht : t = s.atEffect.raise e)
  /-- A command takes effect. -/
  | effect (i : Instr) (h : TakesEffect s i) (ht : exec i s.atEffect = .next t)
  /-- Only the port moves: an EVAL starts or waits, or the host is idle. -/
  | quiet (n : Nat) (h : ¬ Resets s) (hn : n ≤ s.evalLeft ∨ n < (s.config.evalCycles : ℕ))
      (ht : t = { s.popPins with evalLeft := n, rsp := none })

/-- The next edge is one of the four. -/
theorem step_effect {s t : State} (h : step s = .next t) : EdgeEffect s t := by
  cases step_cases h with
  | reset hr ht => exact .reset hr ht
  | finish hr hl ht => exact .effect .eval (.inr ⟨rfl, by simpa [Resets] using hr, hl⟩) ht
  | wait hr _ ht => exact .quiet _ hr (.inl (Nat.sub_le _ _)) ht
  | idle hr _ _ ht => exact .quiet s.evalLeft hr (.inl le_rfl) ht
  | error w e ha hd ht => exact .error e ⟨w, ha, .inl hd⟩ (ha.atEffect ▸ ht)
  | start w ha _ hc ht => exact .quiet _ ha.ready.1 (.inr (Nat.sub_lt s.config.evalCycles.pos Nat.one_pos)) ht
  | run w i ha hd hw ht => exact .effect i (.inl ⟨w, ha, hd, hw⟩) (ha.atEffect ▸ ht)

/-! ### Who writes what -/

/-- The parameters stay, and each group of registers but the error record stays unless one of the commands `fires` is one
that may write it (R20 to R39). -/
structure WritesOnly (fires : Instr → Prop) (s t : State) : Prop where
  config : t.config = s.config
  key : t.KEY = s.KEY ∨ ∃ j v, fires (.keyw j v)
  keystream : SameKeystream s t ∨ fires .seed ∨ ∃ v, fires (.step v)
  test : SameTest s t ∨ fires .seed ∨ ∃ v, fires (.step v)
  results : SameResults s t ∨ fires .seed ∨ fires .eval

theorem WritesOnly.respond (fires : Instr → Prop) (s : State) (w : Word) : WritesOnly fires s (s.respond w) :=
  ⟨rfl, .inl rfl, .inl ⟨rfl, rfl, rfl, rfl⟩, .inl ⟨rfl, rfl⟩, .inl ⟨rfl, rfl, rfl⟩⟩

theorem WritesOnly.raise (fires : Instr → Prop) (s : State) (e : CmdError) : WritesOnly fires s (s.raise e) :=
  ⟨rfl, .inl rfl, .inl ⟨rfl, rfl, rfl, rfl⟩, .inl ⟨rfl, rfl⟩, .inl ⟨rfl, rfl, rfl⟩⟩

theorem WritesOnly.mono {f g : Instr → Prop} {s t : State} (h : WritesOnly f s t) (hfg : ∀ i, f i → g i) :
    WritesOnly g s t where
  config := h.config
  key := h.key.imp_right fun ⟨j, v, hf⟩ => ⟨j, v, hfg _ hf⟩
  keystream := h.keystream.imp_right (.imp (hfg _) fun ⟨v, hf⟩ => ⟨v, hfg _ hf⟩)
  test := h.test.imp_right (.imp (hfg _) fun ⟨v, hf⟩ => ⟨v, hfg _ hf⟩)
  results := h.results.imp_right (.imp (hfg _) (hfg _))

/-- Taking the edge's pins writes no register. -/
theorem WritesOnly.of_atEffect {fires : Instr → Prop} {s t : State} (h : WritesOnly fires s.atEffect t) :
    WritesOnly fires s t := { h with }

/-- A command writes only its own registers. -/
theorem exec_writesOnly {i : Instr} {s t : State} (h : exec i s = .next t) : WritesOnly (· = i) s t := by
  cases i with
  | nop => cases h; exact .respond _ s 0
  | rdreg a =>
    obtain ⟨r, -, hx⟩ | ⟨-, hx⟩ := execRdreg_cases a s
    · cases hx.symm.trans h; exact .respond _ s _
    · cases hx.symm.trans h; exact .raise _ s .addr
  | _ => cases h; constructor <;> simp [SameKeystream, SameTest, SameResults]

/-- An edge that is no reset edge writes only the registers of the commands that take effect at it. -/
theorem step_writesOnly {s t : State} (h : step s = .next t) (hr : ¬ Resets s) : WritesOnly (TakesEffect s) s t := by
  cases step_effect h with
  | reset h => exact absurd h hr
  | error e _ ht => subst ht; exact (WritesOnly.raise _ s.atEffect e).of_atEffect
  | effect i hi ht => exact (exec_writesOnly ht).of_atEffect.mono fun j hj => hj ▸ hi
  | quiet n _ _ ht =>
    subst ht
    exact ⟨rfl, .inl rfl, .inl ⟨rfl, rfl, rfl, rfl⟩, .inl ⟨rfl, rfl⟩, .inl ⟨rfl, rfl, rfl⟩⟩

/-- A command leaves the error record alone, but for CLRERR and an RDREG of an unmapped address (R27). -/
theorem exec_errors {i : Instr} {s t : State} (h : exec i s = .next t) :
    SameErrors s t ∨ i = .clrerr ∨ ∃ a, i = .rdreg a ∧ regAt a.toNat = none := by
  cases i with
  | clrerr => exact .inr (.inl rfl)
  | rdreg a =>
    obtain ⟨r, -, hx⟩ | ⟨hn, -⟩ := execRdreg_cases a s
    · cases hx.symm.trans h; exact .inl ⟨rfl, rfl⟩
    · exact .inr (.inr ⟨a, rfl, hn⟩)
  | _ => cases h; left; simp [SameErrors]

/-- Settles O46: at an edge that is no reset edge only the commands that take effect write. -/
theorem keystreamRegistersWrittenOnlyBy : Obligations.KeystreamRegistersWrittenOnlyBy := by
  intro s t h
  by_cases hr : Resets s
  · cases (step_of_resets hr).symm.trans h
    exact ⟨rfl, fun _ => .inl hr, fun _ => .inl hr⟩
  · have w := step_writesOnly h hr
    exact ⟨w.config, fun hk => .inr (w.key.resolve_left hk), fun hs => .inr (w.keystream.resolve_left hs)⟩

/-- Settles O47: at an edge that is no reset edge only the commands that take effect write. -/
theorem testRegistersWrittenOnlyBy : Obligations.TestRegistersWrittenOnlyBy := by
  intro s t h
  by_cases hr : Resets s
  · exact ⟨fun _ => .inl hr, fun _ => .inl hr⟩
  · have w := step_writesOnly h hr
    exact ⟨fun ht => .inr (w.test.resolve_left ht), fun hv => .inr (w.results.resolve_left hv)⟩

/-- Settles O39: a reset edge, CLRERR and a command error each have one next state; every other edge keeps the record. -/
theorem errorRecordChangesOnlyAsStated : Obligations.ErrorRecordChangesOnlyAsStated := by
  intro s t h
  refine ⟨fun hr => ?_, fun hc => ?_, fun e he h0 => ?_, fun e he h1 => ?_, fun hr hc he => ?_⟩
  · cases (step_of_resets hr).symm.trans h; exact ⟨rfl, rfl⟩
  · cases (step_of_takesEffect hc).symm.trans h; exact ⟨rfl, rfl⟩
  · cases (step_of_raises he).symm.trans h; simp [h0]
  · cases (step_of_raises he).symm.trans h; simp [h1]
  · cases step_effect h with
    | reset hr' => exact absurd hr' hr
    | error e he' => exact absurd he' (he e)
    | effect i hi ht =>
      obtain hs | rfl | ⟨a, rfl, hn⟩ := exec_errors ht
      · exact hs
      · exact absurd hi hc
      · exact absurd (hi.raises_of_unmapped hn) (he _)
    | quiet n _ _ ht => subst ht; exact ⟨rfl, rfl⟩

/-! ### The invariant -/

theorem State.resetWith_inv (c : Config) : (State.resetWith c).Inv where
  acc := clear_inv
  idx _ := by simp [State.resetWith, Accumulators.clear]
  sat h := Bool.noConfusion h
  errcode_zero _ := rfl
  errcode_legal h := Bool.noConfusion h
  no_result _ := rfl
  result h := Bool.noConfusion h
  stat_zero t _ _ := by simp [State.resetWith]
  eval_left := c.evalCycles.pos
  eval_silent h := absurd rfl h
  after_reset _ := ⟨rfl, rfl⟩

/-- Settles O48: the state after reset has every register clear. -/
theorem invariantAtReset : Obligations.InvariantAtReset := State.resetWith_inv

/-- A reset edge sets every register the invariant speaks of as `resetWith` does (R221). -/
theorem State.resetEdge_inv (s : State) : s.resetEdge.Inv :=
  { State.resetWith_inv s.config with after_reset := fun _ => ⟨rfl, rfl⟩ }

/-- STEP's counter after one more byte is the negated count of bytes again (R105, R114). -/
theorem idx_of_next_count (n : BitVec 24) : -(n.setWidth 3) + 7 = -((BitVec.ofNat 24 (n.toNat + 1)).setWidth 3) := by
  bv_omega

/-- A recorded code is one of R197. -/
theorem cmdError_code_legal (e : CmdError) : 1 ≤ e.code.toNat ∧ e.code.toNat ≤ 3 := by cases e <;> decide

namespace State.Inv

variable {s : State} (h : s.Inv)
include h

theorem atEffect (hr : ¬ Resets s) : s.atEffect.Inv :=
  { h with
    eval_left := s.config.evalCycles.pos
    eval_silent := fun hl => absurd rfl hl
    after_reset := fun ha => absurd ha hr }

/-- An EVAL that starts or goes on waiting ends in time (R227). -/
theorem quiet (hr : ¬ Resets s) {n : Nat} (hn : n ≤ s.evalLeft ∨ n < (s.config.evalCycles : ℕ)) :
    ({ s.popPins with evalLeft := n, rsp := none } : State).Inv :=
  { h with
    eval_left := hn.elim (fun hle => hle.trans_lt h.eval_left) id
    eval_silent := fun _ => rfl
    after_reset := fun ha => absurd ha hr }

theorem writeKey (j : BitVec 3) (v : Byte) : (s.writeKey j v).Inv := { h with }

/-- SEED clears what reset clears, but for the error record (R44, R101). -/
theorem reseed : s.reseed.Inv :=
  { State.resetWith_inv s.config with
    errcode_zero := h.errcode_zero
    errcode_legal := h.errcode_legal
    eval_left := h.eval_left
    eval_silent := h.eval_silent
    after_reset := h.after_reset }

theorem clearError : s.clearError.Inv :=
  { h with errcode_zero := fun _ => rfl, errcode_legal := fun he => Bool.noConfusion he }

/-- The codes and readouts an EVAL latches are legal (R160, R162). -/
theorem latchResults : ({ s with
    VERDICT := packVerdict fun t => (s.slots[t]).1
    STAT := Vector.ofFn fun t : Fin 8 => (s.slots[t]).2
    RESVALID := true
    draws := s.draws + 1 } : State).Inv :=
  { h with
    no_result := fun hv => Bool.noConfusion hv
    result := fun _ k => by
      obtain ⟨h1, h4, -⟩ := slots_codes s k
      simp only [verdictSlot_packVerdict]
      exact ⟨h1, h4⟩
    stat_zero := fun k => by
      obtain ⟨-, -, hz⟩ := slots_codes s k
      simpa [verdictSlot_packVerdict] using hz }

/-- The engines of a STEP: the counter moves, and the accumulators take a byte or SAT is set (R105, R120, R121). -/
theorem steAccumulate (S : Vector Byte 8) (out obs x : Byte) :
    (({ s with S := S, IDX := s.IDX + 7, LASTOUT := out, LASTOBS := obs } : State).steAccumulate x).Inv := by
  unfold State.steAccumulate
  split
  case isTrue hN => exact { h with idx := fun hs => Bool.noConfusion hs, sat := fun _ => hN }
  case isFalse hN =>
    have hlt : s.acc.N.toNat < Config.obsMax := lt_of_le_of_ne (Nat.le_sub_one_of_lt s.acc.N.isLt) hN
    exact { h with
      acc := accumulate_inv h.acc hlt x
      idx := fun hs => by rw [accumulate_N, ← idx_of_next_count, ← h.idx hs]
      sat := fun hs => absurd (h.sat hs) hN }

variable (hl : s.evalLeft = 0) (ha : s.afterReset = false)
include hl ha

theorem respond (w : Word) : (s.respond w).Inv :=
  { h with
    eval_silent := fun hne => absurd hl hne
    after_reset := fun hr => absurd (ha.symm.trans hr) Bool.false_ne_true }

/-- The first error records a legal code, a later one keeps what was recorded (R27, R196). -/
theorem raise (e : CmdError) : (s.raise e).Inv :=
  { h with
    errcode_zero := fun he => Bool.noConfusion he
    errcode_legal := fun _ => by
      rw [State.raise_ERRCODE]
      split
      case isTrue he => exact h.errcode_legal he
      case isFalse => exact cmdError_code_legal e
    eval_silent := fun hne => absurd hl hne
    after_reset := fun hr => absurd (ha.symm.trans hr) Bool.false_ne_true }

/-- Every command that takes effect keeps the invariant. -/
theorem of_exec {i : Instr} {t : State} (ht : exec i s = .next t) : t.Inv := by
  cases i with
  | nop => cases ht; exact h.respond hl ha 0
  | keyw j v => cases ht; exact (h.writeKey j v).respond hl ha 0
  | seed => cases ht; exact h.reseed.respond hl ha 0
  | step v =>
    cases ht
    exact (h.steAccumulate _ _ _ _).respond (by simpa using hl) (by simpa using ha) _
  | eval => cases ht; exact h.latchResults.respond hl ha _
  | rdreg a =>
    obtain ⟨r, -, hx⟩ | ⟨-, hx⟩ := execRdreg_cases a s
    · cases hx.symm.trans ht; exact h.respond hl ha _
    · cases hx.symm.trans ht; exact h.raise hl ha _
  | clrerr => cases ht; exact h.clearError.respond hl ha 0

end State.Inv

/-- Settles O49: a reset edge clears, and every other edge starts an error, a command or nothing from a state that keeps
the invariant. -/
theorem stepKeepsInvariant : Obligations.StepKeepsInvariant := by
  intro s t h hst
  have idle : ¬ Resets s → s.atEffect.afterReset = false := fun hr => Bool.eq_false_iff.2 hr
  cases step_effect hst with
  | reset _ ht => subst ht; exact State.resetEdge_inv _
  | error e he ht =>
    obtain ⟨w, hw⟩ := he.accepts
    have hr := hw.ready.1
    subst ht; exact (h.atEffect hr).raise rfl (idle hr) e
  | effect i hi ht =>
    have hr := hi.not_resets
    exact (h.atEffect hr).of_exec rfl (idle hr) ht
  | quiet n hr hn ht => subst ht; exact h.quiet hr hn

end Sys2Proof.Machine
end

section
/-!
SUPPORT. RDREG (spec/20_memory.md R60 to R70): the word of each shape of register as a number, then the whole read map,
and the addresses it leaves out.
-/

namespace Sys2Proof.Machine

variable {s : State} {n : Nat} {x : BitVec n}

/-- A register of at most 32 bits is read as its unsigned pattern (R64). -/
theorem reads_narrow (r : RegName) (h : readReg r s = x.zeroExtend 32) (hn : n ≤ 32 := by decide) :
    Reads s r.addr x.toNat :=
  reads_addr r s _ (by rw [h]; exact BitVec.toNat_setWidth_of_le hn)

/-- The low word of a split register (R65). -/
theorem reads_low (r : RegName) (h : readReg r s = x.extractLsb' 0 32) : Reads s r.addr (x.toNat % 2 ^ 32) :=
  reads_addr r s _ (by rw [h, BitVec.extractLsb'_toNat, Nat.shiftRight_zero])

/-- The high word of a split register, which has `n` bits above its low word, zero-extended (R65). -/
theorem reads_high (r : RegName) {x : BitVec (32 + n)} (h : readReg r s = (x.extractLsb' 32 n).zeroExtend 32)
    (hn : n ≤ 32 := by decide) : Reads s r.addr (x.toNat / 2 ^ 32) := by
  have hlt : x.toNat / 2 ^ 32 < 2 ^ n := Nat.div_lt_of_lt_mul (Nat.pow_add 2 32 n ▸ x.isLt)
  refine reads_addr r s _ ?_
  rw [h, BitVec.toNat_setWidth_of_le hn, BitVec.extractLsb'_toNat, Nat.shiftRight_eq_div_pow, Nat.mod_eq_of_lt hlt]

/-- STATUS is read with its fields at the bits of R26. -/
theorem reads_status (s : State) :
    Reads s RegName.status.addr ((if s.ERR then 1 else 0) + 2 * s.ERRCODE.toNat + (if s.SAT then 16 else 0)
      + if s.RESVALID then 32 else 0) :=
  reads_addr .status s _ (statusWord_fields_toNat s.ERR s.SAT s.RESVALID s.ERRCODE)

/-- Settles O34, row by row of R62: each register is narrow, split, or STATUS. -/
theorem registerReadMap : Obligations.RegisterReadMap := fun s =>
  ⟨fun i => reads_narrow (.s i) rfl,
    reads_narrow .idx rfl, reads_narrow .lastOut rfl, reads_narrow .lastObs rfl,
    reads_status s,
    reads_narrow .n rfl, reads_narrow .ones rfl,
    reads_low .sqsumLo rfl, reads_high (n := 16) .sqsumHi rfl,
    fun j => reads_narrow (.key j) rfl,
    reads_narrow .run1 rfl, reads_narrow .run0 rfl,
    fun i => ⟨reads_narrow (.brun i) rfl, reads_narrow (.grun i) rfl⟩,
    fun l => reads_narrow (.acp l) rfl,
    fun j => reads_narrow (.hist j) rfl,
    reads_narrow .verdict (BitVec.setWidth_eq _).symm,
    fun k => ⟨reads_low (.statLo k) rfl, reads_high (n := 32) (.statHi k) (BitVec.setWidth_eq _).symm⟩,
    fun v => ⟨reads_narrow (.occ v) rfl, reads_narrow (.utab v) rfl⟩⟩

/-- RDREG's word is its opcode above the address (R91). -/
theorem encode_rdreg_toNat (a : BitVec 12) : (encode (.rdreg a)).toNat = 0x05000000 + a.toNat := by
  have hor : 0x05000000 + a.toNat = 0x05000000 ||| a.toNat := Nat.shiftLeft_add_eq_or_of_lt a.isLt 0x5000
  rw [hor, encode, BitVec.toNat_or, BitVec.zeroExtend, BitVec.toNat_setWidth_of_le (by decide)]
  rfl

/-- Settles O35: an address is unmapped exactly when it names no register, and a response changes no register. -/
theorem rdregAnswersOrRaises : Obligations.RdregAnswersOrRaises := by
  intro a s
  have hmap : regAt a.toNat = none ↔ unmapped a.toNat := regAt_eq_none a.toNat a.isLt
  refine ⟨fun hu => ?_, fun hm => ?_, encode_rdreg_toNat a, fun w hop hres => ?_⟩
  · obtain ⟨r, hr, -⟩ | ⟨-, hx⟩ := execRdreg_cases a s
    · cases hr.symm.trans (hmap.2 hu)
    · exact hx
  · obtain ⟨r, -, hx⟩ | ⟨hn, -⟩ := execRdreg_cases a s
    · exact ⟨_, _, hx, rfl, rfl, by simp [SameRegisters, SameKeystream, SameTest, SameResults, SameErrors],
        by simp [SamePort], rfl⟩
    · exact absurd (hmap.1 hn) hm
  · obtain ⟨-, -, -, hrsvd⟩ := decode_rsvd w
    exact accept_error w s .rsvd
      (hrsvd (opField_of_shift hop) (and_ne_zero_of_field w 12 12 rsvdR (by decide) hres))

end Sys2Proof.Machine
end

section
/-!
SUPPORT. Command words (spec/30_encoding.md R80 to R90): decode and encode are inverse to each other, the match and mask
rows of the opcode map, and words written out.
-/

namespace Sys2Proof

/-- The decoder reads off a command's word what the encoder put there (R81). -/
theorem decode_encode (i : Instr) : decode (encode i) = .ok i := by
  obtain ⟨hnop, hkeyw, hseed, hstep, heval, hrdreg, hclrerr, -⟩ := decode_ok_iff (encode i)
  cases i with
  | nop => obtain ⟨hop, hres, -⟩ := Laws.Fields.nop; exact hnop.2 ⟨hop, hres⟩
  | keyw j v =>
    obtain ⟨hop, hres, hj, hv⟩ := Laws.Fields.keyw j v
    exact (hkeyw j v).2 ⟨hop, hres, hj.symm, hv.symm⟩
  | seed => obtain ⟨hop, hres, -⟩ := Laws.Fields.seed; exact hseed.2 ⟨hop, hres⟩
  | step v => obtain ⟨hop, hres, hv⟩ := Laws.Fields.step v; exact (hstep v).2 ⟨hop, hres, hv.symm⟩
  | eval => obtain ⟨hop, hres, -⟩ := Laws.Fields.eval; exact heval.2 ⟨hop, hres⟩
  | rdreg a => obtain ⟨hop, hres, ha⟩ := Laws.Fields.rdreg a; exact (hrdreg a).2 ⟨hop, hres, ha.symm⟩
  | clrerr => obtain ⟨hop, hres, -⟩ := Laws.Fields.clrerr; exact hclrerr.2 ⟨hop, hres⟩

/-- Settles O1: every command is well formed, and its word has its opcode, its operands and no reserved bit. -/
theorem decodeOfEncode : Obligations.DecodeOfEncode := fun i _ => decode_encode i

/-- Two words of one opcode and equal low `n` bits are equal when neither has a bit of the reserved mask set and the mask
covers bits 23 down to `n` (R81). -/
theorem word_eq_of_fields {w w' m : Word} (n : Nat) (hm : ∀ k < 24, n ≤ k → m.getLsbD k = true)
    (hop : opField w = opField w') (hw : w &&& m = 0) (hw' : w' &&& m = 0)
    (hlow : w.extractLsb' 0 n = w'.extractLsb' 0 n) : w = w' := by
  have reserved_clear : ∀ {x : Word}, x &&& m = 0 → ∀ k < 24, n ≤ k → x.getLsbD k = false := by
    intro x hx k hk hn
    simpa [hm k hk hn] using congrArg (BitVec.getLsbD · k) hx
  apply BitVec.eq_of_getLsbD_eq
  intro k hk
  obtain hn | ⟨hn, h24⟩ | h24 : k < n ∨ (n ≤ k ∧ k < 24) ∨ 24 ≤ k := by omega
  · simpa [hn] using congrArg (BitVec.getLsbD · k) hlow
  · rw [reserved_clear hw k h24 hn, reserved_clear hw' k h24 hn]
  · have h8 : k - 24 < 8 := by omega
    simpa [opField, h8, Nat.add_sub_cancel' h24] using congrArg (BitVec.getLsbD · (k - 24)) hop

/-- `j` above `v` is the operand field of format K (R83). -/
theorem operandK_eq (w : Word) : w.extractLsb' 0 11 = jField w ++ vField w :=
  (BitVec.extractLsb'_append_extractLsb'_eq_extractLsb' (start₁ := 0) (len₁ := 8) (start₂ := 8) (len₂ := 3) rfl).symm

/-- No two words are one command (R90). -/
theorem decode_injective {w w' : Word} {i : Instr} (h : decode w = .ok i) (h' : decode w' = .ok i) : w = w' := by
  obtain ⟨hnop, hkeyw, hseed, hstep, heval, hrdreg, hclrerr, -⟩ := decode_ok_iff w
  obtain ⟨hnop', hkeyw', hseed', hstep', heval', hrdreg', hclrerr', -⟩ := decode_ok_iff w'
  have no_operand : ∀ {op : BitVec 8}, opField w = op ∧ w &&& rsvdN = 0 → opField w' = op ∧ w' &&& rsvdN = 0 → w = w' :=
    fun ⟨hop, hres⟩ ⟨hop', hres'⟩ =>
      word_eq_of_fields 0 (by decide) (hop.trans hop'.symm) hres hres' (BitVec.eq_of_zero_length rfl)
  cases i with
  | nop => exact no_operand (hnop.1 h) (hnop'.1 h')
  | keyw j v =>
    obtain ⟨hop, hres, hj, hv⟩ := (hkeyw j v).1 h
    obtain ⟨hop', hres', hj', hv'⟩ := (hkeyw' j v).1 h'
    exact word_eq_of_fields 11 (by decide) (hop.trans hop'.symm) hres hres'
      (by rw [operandK_eq, operandK_eq, ← hj, ← hv, ← hj', ← hv'])
  | seed => exact no_operand (hseed.1 h) (hseed'.1 h')
  | step v =>
    obtain ⟨hop, hres, hv⟩ := (hstep v).1 h
    obtain ⟨hop', hres', hv'⟩ := (hstep' v).1 h'
    exact word_eq_of_fields 8 (by decide) (hop.trans hop'.symm) hres hres' (hv.symm.trans hv')
  | eval => exact no_operand (heval.1 h) (heval'.1 h')
  | rdreg a =>
    obtain ⟨hop, hres, ha⟩ := (hrdreg a).1 h
    obtain ⟨hop', hres', ha'⟩ := (hrdreg' a).1 h'
    exact word_eq_of_fields 12 (by decide) (hop.trans hop'.symm) hres hres' (ha.symm.trans ha')
  | clrerr => exact no_operand (hclrerr.1 h) (hclrerr'.1 h')

/-- Settles O2: a command's own word decodes to it, and no other word does. -/
theorem encodeOfDecode : Obligations.EncodeOfDecode := fun _ i h => decode_injective (decode_encode i) h

/-- Settles O3: each row's match and mask is its opcode and its format's reserved mask. -/
theorem commandOfRowExactlyWhenMatch : Obligations.CommandOfRowExactlyWhenMatch := by
  intro w
  obtain ⟨hnop, hkeyw, hseed, hstep, heval, hrdreg, hclrerr, hopcode⟩ := decode_ok_iff w
  have row (k : BitVec 8) (m : Word) (hm : m &&& 0xFF000000#32 = 0) :
      opField w = k ∧ w &&& m = 0 ↔ w &&& (0xFF000000#32 ||| m) = k ++ 0#24 := mask_iff w _ m _ k rfl hm rfl
  refine ⟨hnop.trans (row 0 rsvdN rfl), fun j v => (hkeyw j v).trans ?_, hseed.trans (row 2 rsvdN rfl),
    fun v => (hstep v).trans ?_, heval.trans (row 4 rsvdN rfl), fun a => (hrdreg a).trans ?_,
    hclrerr.trans (row 6 rsvdN rfl), ?_⟩
  · rw [← and_assoc]; exact and_congr_left' (row 1 rsvdK rfl)
  · rw [← and_assoc]; exact and_congr_left' (row 3 rsvdB rfl)
  · rw [← and_assoc]; exact and_congr_left' (row 5 rsvdR rfl)
  · rw [shift_eq_opField]; exact hopcode

/-- Settles O5, by the decoder's tests of the same words. -/
theorem sampleWordsDecode : Obligations.SampleWordsDecode :=
  ⟨Machine.test_decode_nop, Machine.test_decode_keyw, Machine.test_decode_seed, Machine.test_decode_step,
    Machine.test_decode_eval, Machine.test_decode_rdreg, Machine.test_decode_clrerr,
    Machine.test_decode_reserved_before_address, Machine.test_decode_opcode_7⟩

end Sys2Proof
end

section
/-!
SUPPORT. The pseudo-commands (spec/30_encoding.md R92): what each expands to, and what LDKEY's commands leave.
-/

namespace Sys2Proof.Machine

/-- A run of commands that reaches `t` goes on from `t`. -/
theorem execAll_append {is : List Instr} (js : List Instr) {s t : State} (h : execAll is s = .next t) :
    execAll (is ++ js) s = execAll js t := by
  induction is generalizing s with
  | nil => cases h; rfl
  | cons i is ih =>
    obtain ⟨u, hu⟩ := exec_next i s
    simp only [List.cons_append, execAll, hu] at h ⊢
    exact ih h

/-- The KEYWs that write a key's bytes to the slots `js` (R92). -/
def keyWrites (key : Vector Byte 8) (js : List (Fin 8)) : List Instr :=
  js.map fun j : Fin 8 => .keyw (BitVec.ofNat 3 j) (key[j])

/-- A run of KEYWs leaves the key's bytes in their slots and every other slot as it was (R100). -/
theorem execAll_keyWrites (key : Vector Byte 8) (js : List (Fin 8)) (s : State) :
    ∃ t, execAll (keyWrites key js) s = .next t ∧ ∀ k : Fin 8, t.KEY[k] = if k ∈ js then key[k] else s.KEY[k] := by
  induction js generalizing s with
  | nil => exact ⟨s, rfl, fun k => by simp⟩
  | cons j js ih =>
    obtain ⟨t, ht, hkey⟩ := ih ((s.writeKey (BitVec.ofNat 3 j) (key[j])).respond 0)
    refine ⟨t, ht, fun k => ?_⟩
    have hslot : (slot (BitVec.ofNat 3 j) 0).val = j.val := by simp [Nat.mod_eq_of_lt j.isLt]
    have hset : ((s.writeKey (BitVec.ofNat 3 j) (key[j])).respond 0).KEY[k] = if k = j then key[k] else s.KEY[k] := by
      simp only [State.respond_KEY, State.writeKey_KEY, Fin.getElem_fin, Vector.getElem_set, hslot]
      by_cases hkj : k = j
      · simp [hkj]
      · simp [hkj, Fin.val_ne_of_ne (Ne.symm hkj)]
    rw [hkey, hset]
    by_cases hk : k ∈ js <;> simp [hk]

/-- All eight KEYWs and a SEED load the key register and start a fresh engine from it (R92, R101). -/
theorem execAll_loadKey (key : Vector Byte 8) (s : State) :
    ∃ t, execAll (keyWrites key (List.finRange 8) ++ [.seed]) s = .next t
      ∧ t.KEY = key ∧ t.S = key ∧ t.IDX = 0 ∧ t.acc.N = 0 := by
  obtain ⟨t, ht, hkey⟩ := execAll_keyWrites key (List.finRange 8) s
  have hk : t.KEY = key := Vector.ext fun k h => by simpa using hkey ⟨k, h⟩
  exact ⟨t.reseed.respond 0, execAll_append [.seed] ht, hk, hk, rfl, rfl⟩

/-- Bytes fit an assembler line's byte operands. -/
theorem toNat_bytes_lt (bytes : List Byte) : (bytes.map BitVec.toNat).all (fun b => decide (b < 256)) = true := by
  simp only [List.all_map, List.all_eq_true, Function.comp_apply, decide_eq_true_eq]
  exact fun b _ => b.isLt

/-- LDKEY is one KEYW per byte of the key, in order, and a SEED (R92). -/
theorem expand_ldkey (key : Vector Byte 8) :
    AsmLine.expand (.ldkey (key.toList.map BitVec.toNat)) = some (keyWrites key (List.finRange 8) ++ [.seed]) := by
  have hwf : (AsmLine.ldkey (key.toList.map BitVec.toNat)).wf = true := by
    rw [AsmLine.wf, toNat_bytes_lt]; simp
  rw [AsmLine.expand, if_pos hwf]
  refine congrArg (fun ks => some (ks ++ [Instr.seed])) (List.ext_getElem (by simp [keyWrites]) fun k _ _ => ?_)
  simp [keyWrites, -BitVec.ofNat_finVal]

/-- XFER is one STEP per byte, in order (R92). -/
theorem expand_xfer (bytes : List Byte) : AsmLine.expand (.xfer (bytes.map BitVec.toNat)) = some (bytes.map .step) := by
  rw [AsmLine.expand, if_pos (show (AsmLine.xfer _).wf = true from toNat_bytes_lt bytes)]
  simp

/-- RD64 STAT t reads the low and the high word of slot t (R92). -/
theorem expand_rd64Stat {t : Nat} (ht : t < 8) : AsmLine.expand (.rd64Stat t) =
    some [.rdreg (BitVec.ofNat 12 (0x090 + 2 * t)), .rdreg (BitVec.ofNat 12 (0x091 + 2 * t))] :=
  if_pos (show (AsmLine.rd64Stat t).wf = true from decide_eq_true ht)

/-- Settles O37: each pseudo-command by its expansion, and LDKEY by what its commands do. -/
theorem pseudoCommandsExpand : Obligations.PseudoCommandsExpand :=
  ⟨fun key _ his => his ▸ ⟨expand_ldkey key, execAll_loadKey key⟩, expand_xfer, rfl, fun _ => expand_rd64Stat⟩

end Sys2Proof.Machine
end

section
/-!
SUPPORT. A word on a ready command port (spec/70_reset_and_hazards.md R227): the edge is its acceptance.
-/

namespace Sys2Proof.Machine

/-- A word in front of what the host drives is accepted while no EVAL is in progress (R227). -/
theorem accepts_of_pins {s : State} {w : Word} {ps : List Pins} (hp : s.pins = ⟨false, true, w⟩ :: ps)
    (hl : s.evalLeft = 0) : Accepts s w := by
  simp [Accepts, State.nextPins, hp, hl]

/-- The edge takes the word off the port. -/
theorem popPins_of_pins {s : State} {w : Word} {ps : List Pins} (hp : s.pins = ⟨false, true, w⟩ :: ps) :
    s.popPins = { s with pins := ps, afterReset := false } := by
  simp [State.popPins, State.nextPins, hp]

/-- A command waits exactly when it is an EVAL of several cycles (R227). -/
theorem waits_iff (i : Instr) (s : State) : waits i s = true ↔ i = .eval ∧ 1 < (s.config.evalCycles : ℕ) := by
  simp [waits]

/-- A state whose host presents `w`, with no EVAL in progress, is the one that `withFetchWord` makes (log 10). -/
theorem withFetchWord_eq_self {s : State} {w : Word} {ps : List Pins} (hp : s.pins = ⟨false, true, w⟩ :: ps)
    (hl : s.evalLeft = 0) : State.withFetchWord { s with pins := ps } 32 w.toNat = s := by
  have hw : BitVec.ofNat 32 (w.toNat % 2 ^ 32) = w := by
    rw [Nat.mod_eq_of_lt w.isLt, BitVec.ofNat_toNat, BitVec.setWidth_eq]
  rw [State.withFetchWord, hw, ← hp, ← hl]

/-- Settles O41: the edge accepts the presented word, and the decoder's answer says what accepting it does. -/
theorem stepRunsDecodedInstruction : Obligations.StepRunsDecodedInstruction := by
  intro s w ps hp hl
  have hstep : step s = accept w { s with pins := ps, afterReset := false } := by
    rw [step_of_accepts (accepts_of_pins hp hl), popPins_of_pins hp]
  refine ⟨fun i hd hone => ?_, fun hd hc => ?_, fun e hd => ?_, by rw [withFetchWord_eq_self hp hl]⟩
  · have hw : ¬ waits i { s with pins := ps, afterReset := false } = true := by
      rw [waits_iff]; rintro ⟨rfl, hc⟩; simp [hone rfl] at hc
    rw [hstep]; simp [accept, hd, hw]
  · have hw : waits .eval { s with pins := ps, afterReset := false } = true := (waits_iff _ _).2 ⟨rfl, hc⟩
    rw [hstep]; simp [accept, hd, hw]
  · rw [hstep, accept_error _ _ _ hd]

end Sys2Proof.Machine
end

section
/-!
SUPPORT. The keystream engine's commands one at a time (spec/40_keystream.md R100 to R111, R115): what KEYW, SEED and STEP
leave in every register, the observation byte bit by bit, and the keystream byte by the exact and by the unsigned product.
-/

namespace Sys2Proof.Machine

/-! ### One slot written -/

/-- A write to the slot a counter names leaves every other slot as it was (R100, R106). -/
theorem getElem_set_slot (S : Vector Byte 8) (i : BitVec 3) (v : Byte) (k : Fin 8) :
    (S.set (slot i 0) v)[k] = if k.val = i.toNat then v else S[k] := by
  simp only [Fin.getElem_fin, Vector.getElem_set, slot_zero_val, eq_comm (a := i.toNat)]

/-- KEYW's word is its opcode, the slot and the byte side by side (R91). -/
theorem encode_keyw_toNat (j : BitVec 3) (v : Byte) :
    (encode (.keyw j v)).toNat = 0x01000000 + j.toNat * 2 ^ 8 + v.toNat := by
  have hor : 0x10000 + j.toNat = 0x10000 ||| j.toNat := Nat.shiftLeft_add_eq_or_of_lt j.isLt 0x2000
  have hlt : j.toNat <<< 8 < 2 ^ 32 := by rw [Nat.shiftLeft_eq]; omega
  calc (encode (.keyw j v)).toNat
      = 0x01000000 ||| j.toNat <<< 8 ||| v.toNat := by
        rw [encode, BitVec.toNat_or, BitVec.toNat_or, BitVec.toNat_shiftLeft, BitVec.zeroExtend,
          BitVec.toNat_setWidth_of_le (by decide), BitVec.toNat_setWidth_of_le (by decide), Nat.mod_eq_of_lt hlt]
        rfl
    _ = (0x10000 ||| j.toNat) <<< 8 ||| v.toNat := by rw [Nat.shiftLeft_or_distrib]; rfl
    _ = (0x10000 + j.toNat) <<< 8 + v.toNat := by rw [hor, Nat.shiftLeft_add_eq_or_of_lt v.isLt]
    _ = 0x01000000 + j.toNat * 2 ^ 8 + v.toNat := by rw [Nat.shiftLeft_eq]; omega

/-- Settles O8: KEYW is one write to the key register and a response. -/
theorem keywWritesOneKeyByte : Obligations.KeywWritesOneKeyByte := by
  intro j v s
  refine ⟨encode_keyw_toNat j v, fun w hop hres => ?_, _, rfl, fun k => getElem_set_slot s.KEY j v k, rfl,
    ⟨rfl, rfl, rfl, rfl⟩, ⟨rfl, rfl⟩, ⟨rfl, rfl, rfl⟩, ⟨rfl, rfl⟩, ⟨rfl, rfl, rfl, rfl⟩, rfl⟩
  obtain ⟨-, hrsvd, -⟩ := decode_rsvd w
  exact accept_error w s .rsvd (hrsvd (opField_of_shift hop) (and_ne_zero_of_field w 11 13 rsvdK (by decide) hres))

/-! ### SEED -/

/-- Every accumulator is 0 after a SEED, USUM too as the logarithm of 1 (R44). -/
theorem Accumulators.clear_zero :
    clear.N = 0 ∧ clear.ONES = 0 ∧ (∀ v : Fin 256, clear.OCC[v] = 0) ∧ clear.SQSUM = 0
      ∧ clear.RUN1 = 0 ∧ clear.RUN0 = 0 ∧ (∀ i : Fin 8, clear.BRUN[i] = 0 ∧ clear.GRUN[i] = 0)
      ∧ (∀ j : Fin 26, clear.HIST[j] = 0) ∧ (∀ k : Fin 4, clear.ACP[k] = 0) ∧ (∀ v : Fin 256, clear.UTAB[v] = 0)
      ∧ clear.USUM = 0 := by
  simp [clear, USUM]

/-- Settles O9: SEED is `reseed` and a response, and `reseed` writes constants and KEY only. -/
theorem seedStartsFreshEngine : Obligations.SeedStartsFreshEngine := by
  intro s
  refine ⟨rfl, fun w hop hres => ?_, s.reseed.respond 0, rfl, fun _ => rfl, rfl, ?_⟩
  · obtain ⟨hrsvd, -⟩ := decode_rsvd w
    exact accept_error w s .rsvd
      (hrsvd (.inr (.inl (opField_of_shift hop))) (and_ne_zero_of_field w 0 24 rsvdN (by decide) hres))
  · obtain ⟨hN, hones, hocc, hsq, hr1, hr0, hbins, hhist, hacp, hutab, husum⟩ := Accumulators.clear_zero
    exact ⟨hN, hones, hocc, hsq, hr1, hr0, hbins, hhist, hacp, hutab, husum, rfl, rfl, rfl, rfl, rfl,
      fun k => by simp, rfl, rfl, ⟨rfl, rfl⟩, ⟨rfl, rfl, rfl, rfl⟩, rfl, rfl⟩

/-! ### What a STEP writes -/

/-- Settles O10: STEP writes S at its new counter only. -/
theorem stepMovesCounterAndWritesOneSlot : Obligations.StepMovesCounterAndWritesOneSlot := by
  intro v s
  obtain ⟨t, ht, hS, hI, hX, -⟩ := execStep_spec v s
  refine ⟨t, ht, by rw [hI, idx_step_toNat], fun k => ?_⟩
  rw [hS, hI, hX, getElem_set_slot]

/-- Settles O14, by the response word's fields. -/
theorem stepResponseFields : Obligations.StepResponseFields := by
  intro v s
  obtain ⟨t, ht, -, -, hX, hO, hr, -⟩ := execStep_spec v s
  obtain ⟨hout, hobs, hidx, hzero⟩ := stepResponse_fields t.IDX t.LASTOBS t.LASTOUT
  exact ⟨t, _, ht, hr, rfl, hX, hO, hout, hobs, hidx, hzero⟩

/-- Settles O15: of the test engine STEP writes the accumulators below OBS_MAX and SAT at it. -/
theorem stepFrame : Obligations.StepFrame := by
  intro v s t h
  obtain ⟨t', h', -, -, hX, -, -, hacc, hsat, hkey, herr, hcode, hver, hstat, hres, hconf, hleft, hafter, hpins, hdraws⟩ :=
    execStep_spec v s
  cases h.symm.trans h'
  refine ⟨hkey, ⟨herr, hcode⟩, ⟨hver, hstat, hres⟩, ⟨hconf, hleft, hafter, hpins⟩, hdraws, fun hN => ?_, fun hN => ?_⟩
  · rw [hacc, hsat, if_pos hN, if_pos hN]; exact ⟨rfl, rfl⟩
  · rw [hacc, hsat, if_neg hN, if_neg hN, hX]; exact ⟨rfl, rfl⟩

/-! ### The two feedback functions -/

/-- The mask on the c term keeps every bit that survives the truncation (R110). -/
theorem feedback1_eq_unmasked (a b c : Byte) :
    feedback1 a b c = (sext8 a ^^^ (sext8 b).sshiftRight 1 ^^^ (sext8 c <<< 1)).setWidth 8 := by
  have mask : ((sext8 c <<< 1) &&& 0xFF#32).setWidth 8 = (sext8 c <<< 1).setWidth 8 := by
    rw [BitVec.setWidth_and]; exact BitVec.and_allOnes
  rw [feedback1, BitVec.setWidth_xor, mask, ← BitVec.setWidth_xor]

/-- Every bit of a sign-extended byte from bit 7 up is its bit 7 (R10). -/
theorem sext8_getLsbD (v : Byte) {k : Nat} (hk : k < 32) : (sext8 v).getLsbD k = v.getLsbD (min k 7) := by
  rw [sext8, BitVec.getLsbD_signExtend, decide_eq_true hk, Bool.true_and]
  split
  · rw [min_eq_left (by omega)]
  · rw [min_eq_right (by omega)]; exact BitVec.msb_eq_getLsbD_last v

/-- The observation byte bit by bit: the arithmetic shift repeats the sign of b (R110). -/
theorem feedback1_getLsbD (a b c : Byte) {k : Nat} (hk : k < 8) :
    (feedback1 a b c).getLsbD k =
      (a.getLsbD k ^^ b.getLsbD (min (k + 1) 7) ^^ (decide (0 < k) && c.getLsbD (k - 1))) := by
  rw [feedback1_eq_unmasked]
  have ha : (sext8 a).getLsbD k = a.getLsbD k := by
    rw [sext8_getLsbD a (by omega), min_eq_left (by omega)]
  have hb : ((sext8 b).sshiftRight 1).getLsbD k = b.getLsbD (min (k + 1) 7) := by
    rw [BitVec.getLsbD_sshiftRight, if_pos (by omega), sext8_getLsbD b (by omega), decide_eq_false (by omega),
      Nat.add_comm, Bool.not_false, Bool.true_and]
  have hc : (sext8 c <<< 1).getLsbD k = (decide (0 < k) && c.getLsbD (k - 1)) := by
    rw [BitVec.getLsbD_shiftLeft, sext8_getLsbD c (by omega), min_eq_left (by omega), decide_eq_true (by omega)]
    simp [Nat.pos_iff_ne_zero]
  rw [BitVec.getLsbD_setWidth, BitVec.getLsbD_xor, BitVec.getLsbD_xor, ha, hb, hc, decide_eq_true hk, Bool.true_and]

/-- Settles O11: the mask is idle, and bit k of the observation byte is that of `feedback1`. -/
theorem observationByteBitForm : Obligations.ObservationByteBitForm := by
  refine ⟨fun a b c => (feedback1_eq_unmasked a b c).symm, fun v s => ?_⟩
  obtain ⟨t, ht, -, -, hX, -⟩ := execStep_spec v s
  exact ⟨t, ht, fun k hk => hX ▸ feedback1_getLsbD _ _ _ hk⟩

/-- The product of two signed 16-bit numbers (R108): the least is -2^15 times 2^15 - 1, the greatest the square of
-2^15. -/
theorem mul_toInt_bounds (A B : BitVec 16) :
    -2 ^ 30 + 2 ^ 15 ≤ A.toInt * B.toInt ∧ A.toInt * B.toInt ≤ 2 ^ 30 := by
  have range : ∀ C : BitVec 16, -2 ^ 15 ≤ C.toInt ∧ C.toInt ≤ 2 ^ 15 - 1 := fun C => by
    have := C.two_mul_toInt_lt
    have := C.le_two_mul_toInt
    omega
  obtain ⟨hA, hA'⟩ := range A
  obtain ⟨hB, hB'⟩ := range B
  refine ⟨?_, by nlinarith⟩
  obtain hneg | hpos := lt_or_ge A.toInt 0
  · nlinarith
  · nlinarith

/-- The keystream byte is the exact product divided by 256, rounded down, in 8 bits (R108). -/
theorem feedback2_eq_floor (A B : BitVec 16) : feedback2 A B = BitVec.ofInt 8 (A.toInt * B.toInt / 256) := by
  rw [feedback2_eq_extract]
  apply BitVec.eq_of_toNat_eq
  simp only [BitVec.extractLsb'_toNat, BitVec.toNat_ofInt, Nat.shiftRight_eq_div_pow]
  omega

/-- Settles O12, by the bounds of the product and the two forms of `feedback2`. -/
theorem keystreamByteOfExactProduct : Obligations.KeystreamByteOfExactProduct := fun A B =>
  ⟨(mul_toInt_bounds A B).1, (mul_toInt_bounds A B).2, feedback2_eq_floor A B, feedback2_eq_extract A B⟩

/-- The keystream byte is bits 15:8 of the unsigned product modulo 2^16 (R111). -/
theorem feedback2_eq_unsigned (A B : BitVec 16) :
    feedback2 A B = BitVec.ofNat 8 (A.toNat * B.toNat % 2 ^ 16 / 2 ^ 8) := by
  rw [feedback2_eq_extract, extract_product_unsigned]
  apply BitVec.eq_of_toNat_eq
  rw [BitVec.extractLsb'_toNat, BitVec.toNat_mul, BitVec.toNat_ofNat, Nat.shiftRight_eq_div_pow]

/-- Settles O13: the packed words are the ones `feedback2` takes. -/
theorem outputByteUnsignedForm : Obligations.OutputByteUnsignedForm := by
  intro v s
  obtain ⟨t, ht, -, -, -, hO, -⟩ := execStep_spec v s
  refine ⟨t, ht, fun A B hA hB => ?_⟩
  rw [← pack_toNat] at hA hB
  rw [hO, fb2_eq, ← BitVec.eq_of_toNat_eq hA, ← BitVec.eq_of_toNat_eq hB, feedback2_eq_unsigned]

/-! ### The all-zero state -/

/-- The observation byte of an all-zero S is 0 (R115). -/
theorem fb1_of_zero {s : State} (h : ∀ k : Fin 8, s.S[k] = 0) : s.fb1 = 0 := by
  rw [State.fb1, State.readS, State.readS, State.readS, h, h, h]; decide

/-- The keystream byte of an all-zero S is 0 (R115). -/
theorem fb2_of_zero {s : State} (h : ∀ k : Fin 8, s.S[k] = 0) : s.fb2 = 0 := by
  rw [fb2_eq, h, h, h, h]; decide

/-- Settles O18: an all-zero S is overwritten with a 0. -/
theorem zeroStateFixedPoint : Obligations.ZeroStateFixedPoint := by
  intro v s h
  obtain ⟨t, ht, hS, -, hX, hO, -⟩ := execStep_spec v s
  have hzero : ∀ k : Fin 8, t.S[k] = 0 := fun k => by
    rw [hS, getElem_set_slot, fb1_of_zero h, h, ite_self]
  refine ⟨t, ht, hzero, hX.trans (fb1_of_zero h), ?_, ?_, ?_⟩
  · rw [hO, fb2_of_zero hzero]; exact BitVec.xor_zero
  · rw [hzero, hzero]; decide
  · rw [hzero, hzero]; decide

end Sys2Proof.Machine
end

section
/-!
SUPPORT. Runs of STEPs (spec/40_keystream.md R112, R114): the keystream does not see the data, and which slot holds which
observation byte.
-/

namespace Sys2Proof.Machine

/-! ### The data and the keystream -/

/-- STEPs from states of one S and one IDX stay so, whatever their bytes, and give one observation byte and one keystream
byte, which is input XOR output (R112). -/
theorem execStep_congr (v v' : Byte) {s s' : State} (hS : s.S = s'.S) (hI : s.IDX = s'.IDX) :
    ∃ t t', exec (.step v) s = .next t ∧ exec (.step v') s' = .next t' ∧ t.S = t'.S ∧ t.IDX = t'.IDX
      ∧ t.LASTOBS = t'.LASTOBS ∧ v ^^^ t.LASTOUT = v' ^^^ t'.LASTOUT := by
  obtain ⟨t, ht, hSt, hIt, hX, hO, -⟩ := execStep_spec v s
  obtain ⟨t', ht', hSt', hIt', hX', hO', -⟩ := execStep_spec v' s'
  have hfb1 := fb1_congr hS hI
  have hSS : t.S = t'.S := by simp only [hSt, hSt', hS, hI, hfb1]
  have hII : t.IDX = t'.IDX := by rw [hIt, hIt', hI]
  refine ⟨t, t', ht, ht', hSS, hII, by rw [hX, hX', hfb1], ?_⟩
  rw [hO, hO', ← BitVec.xor_assoc, ← BitVec.xor_assoc, BitVec.xor_self, BitVec.xor_self, fb2_congr hSS hII]

/-- The registers and the keystream of a run of STEPs depend on the number of bytes alone (R112). -/
theorem xfer_congr (vs vs' : List Byte) {s s' : State} (hlen : vs.length = vs'.length) (hS : s.S = s'.S)
    (hI : s.IDX = s'.IDX) :
    ∃ t t', xfer vs s = .next t ∧ xfer vs' s' = .next t' ∧ t.S = t'.S ∧ t.IDX = t'.IDX
      ∧ observed vs s = observed vs' s'
      ∧ List.zipWith (· ^^^ ·) vs (outputs vs s) = List.zipWith (· ^^^ ·) vs' (outputs vs' s') := by
  induction vs generalizing vs' s s' with
  | nil =>
    cases List.length_eq_zero_iff.1 hlen.symm
    exact ⟨s, s', rfl, rfl, hS, hI, rfl, rfl⟩
  | cons v vs ih =>
    obtain ⟨v', vs', rfl⟩ := List.exists_cons_of_length_eq_add_one hlen.symm
    obtain ⟨t, t', ht, ht', hSt, hIt, hX, hO⟩ := execStep_congr v v' hS hI
    obtain ⟨u, u', hu, hu', hSu, hIu, hobs, hkey⟩ := ih vs' (Nat.succ.inj hlen) hSt hIt
    refine ⟨u, u', (xfer_cons v vs s t ht).trans hu, (xfer_cons v' vs' s' t' ht').trans hu', hSu, hIu, ?_, ?_⟩
    · rw [observed_cons v vs s t ht, observed_cons v' vs' s' t' ht', hX, hobs]
    · rw [outputs_cons v vs s t ht, outputs_cons v' vs' s' t' ht', List.zipWith_cons_cons, List.zipWith_cons_cons, hO,
        hkey]

/-- The outputs of a buffer, put through an engine of the same S and IDX, are the buffer (R112). -/
theorem outputs_outputs (bytes : List Byte) {s s' : State} (hS : s.S = s'.S) (hI : s.IDX = s'.IDX) :
    outputs (outputs bytes s) s' = bytes := by
  induction bytes generalizing s s' with
  | nil => rfl
  | cons v vs ih =>
    obtain ⟨t, ht⟩ := exec_next (.step v) s
    obtain ⟨t₁, t', ht₁, ht', hSt, hIt, -, hO⟩ := execStep_congr v t.LASTOUT hS hI
    cases ht₁.symm.trans ht
    have hback : t'.LASTOUT = v := by
      rw [BitVec.xor_comm v, BitVec.xor_right_inj] at hO; exact hO.symm
    rw [outputs_cons v vs s t ht, outputs_cons t.LASTOUT _ s' t' ht', hback, ih hSt hIt]

/-- Settles O16: the first half by induction on the buffers, the second from two fresh engines of one key. -/
theorem keystreamIndependentOfDataAndVernam : Obligations.KeystreamIndependentOfDataAndVernam :=
  ⟨fun vs vs' _ _ hlen hS hI => xfer_congr vs vs' hlen hS hI,
    fun bytes _ _ hK => ⟨_, _, rfl, rfl, outputs_outputs bytes hK rfl⟩⟩

/-! ### The step counter and the slots -/

/-- A run of STEPs that reaches `t` goes on from `t`. -/
theorem xfer_append {vs : List Byte} (ws : List Byte) {s t : State} (h : xfer vs s = .next t) :
    xfer (vs ++ ws) s = xfer ws t := by
  rw [xfer, List.map_append]; exact execAll_append _ h

/-- The observation bytes of a longer run are those of its two parts. -/
theorem observed_append {vs : List Byte} (ws : List Byte) {s t : State} (h : xfer vs s = .next t) :
    observed (vs ++ ws) s = observed vs s ++ observed ws t := by
  induction vs generalizing s with
  | nil => cases h; rfl
  | cons v vs ih =>
    obtain ⟨u, hu⟩ := exec_next (.step v) s
    rw [xfer_cons v vs s u hu] at h
    rw [List.cons_append, observed_cons v _ s u hu, observed_cons v vs s u hu, ih h, List.cons_append]

/-- A STEP gives one observation byte (R109). -/
theorem observed_length (vs : List Byte) (s : State) : (observed vs s).length = vs.length := by
  induction vs generalizing s with
  | nil => rfl
  | cons v vs ih =>
    obtain ⟨t, ht⟩ := exec_next (.step v) s
    rw [observed_cons v vs s t ht, List.length_cons, List.length_cons, ih]

/-- The counter after a run of STEPs (R105), and the slots its last eight STEPs wrote (R106): each holds the observation
byte of its STEP, since the STEPs after it write other slots. -/
theorem xfer_slots (vs : List Byte) (s : State) :
    ∃ u, xfer vs s = .next u ∧ u.IDX.toNat = (s.IDX.toNat + 7 * vs.length) % 8
      ∧ ∀ k < vs.length, vs.length ≤ k + 8 → (observed vs s)[k]? = some u.S[slot s.IDX (7 * (k + 1))] := by
  induction vs using List.reverseRecOn with
  | nil => exact ⟨s, rfl, (Nat.mod_eq_of_lt s.IDX.isLt).symm, fun k hk => absurd hk (Nat.not_lt_zero k)⟩
  | append_singleton vs v ih =>
    obtain ⟨t, ht, hIt, hslots⟩ := ih
    obtain ⟨u, hu, hIu, hSu⟩ := stepMovesCounterAndWritesOneSlot v t
    have hobs : observed (vs ++ [v]) s = observed vs s ++ [u.LASTOBS] := by
      rw [observed_append [v] ht, observed_cons v [] t u hu]; rfl
    have hlen : (vs ++ [v]).length = vs.length + 1 := by simp
    rw [hlen, hobs]
    refine ⟨u, by rw [xfer_append [v] ht, xfer_cons v [] t u hu]; rfl, by omega, fun k hk hk8 => ?_⟩
    rw [hSu, slot_val]
    obtain rfl | hlt := Nat.eq_or_lt_of_le (Nat.le_of_lt_succ hk)
    · rw [if_pos (by omega), List.getElem?_append_right (observed_length vs s).le, observed_length, Nat.sub_self]
      rfl
    · rw [if_neg (by omega), List.getElem?_append_left (by rwa [observed_length])]
      exact hslots k hlt (by omega)

/-- Counted down from any counter, the next eight slots are all the slots once each (R114). -/
theorem slot_countdown_bijective (i : BitVec 3) :
    Function.Bijective (fun k : Fin 8 => slot i (7 * (k.val + 1))) := by
  refine Finite.injective_iff_bijective.1 fun k l h => Fin.ext ?_
  have := (slot_eq_iff i _ _).1 h
  omega

/-- Settles O17: the counter and the slots of a run of STEPs, from the counter 0 and for eight STEPs. -/
theorem stepCounterCountsSteps : Obligations.StepCounterCountsSteps := by
  refine ⟨fun vs s t ht => ?_, fun vs s hlen => ⟨slot_countdown_bijective s.IDX, ?_⟩⟩
  · cases ht
    obtain ⟨u, hu, hI, hslots⟩ := xfer_slots vs (s.reseed.respond 0)
    have hI0 : u.IDX.toNat = 7 * vs.length % 8 := by simpa using hI
    refine ⟨u, hu, by omega, fun x hx => ?_⟩
    have hne : vs ≠ [] := by rintro rfl; cases hx
    have hpos : 0 < vs.length := List.length_pos_iff.2 hne
    have hslot : slot u.IDX 0 = slot 0 (7 * (vs.length - 1 + 1)) :=
      Fin.ext (by rw [slot_val, slot_val, hI0, Nat.sub_add_cancel hpos]; simp)
    rw [List.getLast?_eq_getElem?, observed_length, hslots (vs.length - 1) (by omega) (by omega)] at hx
    simp only [hslot]
    exact Option.some.inj hx
  · obtain ⟨u, hu, -, hslots⟩ := xfer_slots vs s
    exact ⟨u, hu, fun k => hslots k (by omega) (by omega)⟩

end Sys2Proof.Machine
end

section
/-!
SUPPORT. One byte through the test engine (spec/41_accumulators.md R121 to R130, R134): the bounds of the accumulators, what
a STEP adds to each, and that at OBS_MAX nothing but SAT changes.
-/

namespace Sys2Proof.Machine

/-! ### Bounds -/

section
variable {a : Accumulators} (h : a.Inv)
include h

/-- Runs of the two bits alternate, so at most half of the bits end a run in one bin (R35). -/
theorem Accumulators.Inv.bin_le (i : Fin 8) :
    (a.BRUN[i]).toNat ≤ 4 * a.N.toNat ∧ (a.GRUN[i]).toNat ≤ 4 * a.N.toNat := by
  have hb := bin_le_runCount a.BRUN i
  have hg := bin_le_runCount a.GRUN i
  have hbc := h.brun_count
  have hgc := h.grun_count
  omega

/-- A table entry is a position already passed, or 0 (R133). -/
theorem Accumulators.Inv.utab_lt_count (hN : 0 < a.N.toNat) (v : Fin 256) : (a.UTAB[v]).toNat < a.N.toNat := by
  obtain h0 | hlt := h.utab_lt v
  · rw [h0]; exact hN
  · exact hlt

end

/-- Settles O23, by the clauses of the invariant. -/
theorem accumulatorsFitTheirWidths : Obligations.AccumulatorsFitTheirWidths := fun _ h =>
  ⟨h.ones_le, fun l => (h.acp_le l).trans (Nat.mul_le_mul_left 8 (Nat.sub_le _ _)), occ_le h, sqsum_le h, h.bin_le,
    h.utab_lt_count⟩

/-! ### What a byte adds -/

/-- In the initialisation segment USUM stays (R129). -/
theorem accumulate_USUM_of_lt {a : Accumulators} (x : Byte) (hk : a.N.toNat < Config.univInit) :
    (a.accumulate x).USUM = a.USUM := by
  rw [Accumulators.USUM, accumulate_USUMEXP, if_pos hk]; rfl

/-- In the test segment USUM grows by the logarithm of the gap (R130). -/
theorem accumulate_USUM_of_le {a : Accumulators} (h : a.Inv) (x : Byte) (hk : Config.univInit ≤ a.N.toNat) :
    (a.accumulate x).USUM = a.USUM + Real.logb 2 (a.N.toNat - (a.UTAB[x.toFin]).toNat : ℕ) := by
  have hlt : (a.UTAB[x.toFin]).toNat < a.N.toNat := h.utab_lt_count (Nat.lt_of_lt_of_le (by decide) hk) _
  have hgap : ((a.N.toNat - (a.UTAB[x.toFin]).toNat : ℕ) : ℝ) ≠ 0 := by
    rw [Nat.cast_ne_zero]; omega
  have hexp : ((a.USUMEXP : ℕ) : ℝ) ≠ 0 := Nat.cast_ne_zero.2 a.USUMEXP.ne_zero
  rw [Accumulators.USUM, accumulate_USUMEXP, if_neg (Nat.not_lt.2 hk), PNat.mul_coe, univGap_toNat hlt, Nat.cast_mul,
    Real.logb_mul hexp hgap, Accumulators.USUM]

/-- Settles O22: below OBS_MAX a STEP is one `accumulate` of its observation byte. -/
theorem stepAccumulatesExactly : Obligations.StepAccumulatesExactly := by
  intro v s h hN
  obtain ⟨t, ht, -, -, hX, -, -, hacc, -⟩ := execStep_spec v s
  rw [if_neg hN.ne, ← hX] at hacc
  refine ⟨t, ht, ?_⟩
  rintro x rfl k rfl
  rw [hacc]
  have add := accumulate_spec h hN t.LASTOBS
  refine ⟨add.N, add.ONES, add.SQSUM, (accumulate_inv h hN _).sqsum_eq, add.OCC, accumulate_runs_exact h hN _, add.HIST,
    add.ACP, add.UTAB, accumulate_USUM_of_lt _, fun hk => ?_⟩
  have hlt := h.utab_lt_count (Nat.lt_of_lt_of_le (by decide) hk) t.LASTOBS.toFin
  exact ⟨hlt, by rw [accumulate_USUM_of_le h _ hk, Nat.cast_sub hlt.le]⟩

/-! ### Saturation -/

/-- A STEP never clears SAT (R121). -/
theorem execStep_keeps_SAT {v : Byte} {s t : State} (hs : s.SAT = true) (h : exec (.step v) s = .next t) :
    t.SAT = true := by
  obtain ⟨t', ht', -, -, -, -, -, -, hsat, -⟩ := execStep_spec v s
  cases h.symm.trans ht'
  rw [hsat, hs, ite_self]

/-- SAT outlasts every edge that neither resets nor takes a SEED (R121). -/
theorem step_keeps_SAT {s t : State} (hs : s.SAT = true) (h : step s = .next t) :
    Resets s ∨ TakesEffect s .seed ∨ t.SAT = true := by
  by_cases hr : Resets s
  · exact .inl hr
  obtain ⟨-, hsat⟩ | hseed | ⟨v, hv⟩ := (step_writesOnly h hr).test
  · exact .inr (.inr (hsat.trans hs))
  · exact .inr (.inl hseed)
  · exact .inr (.inr (execStep_keeps_SAT (s := s.atEffect) hs ((step_of_takesEffect hv).symm.trans h)))

/-- Settles O21: the keystream of a STEP does not see the test engine, and SAT alone makes every slot OVERFLOW. -/
theorem saturationChangesOnlySat : Obligations.SaturationChangesOnlySat := by
  refine ⟨fun v s s' hN hS hI => ?_, fun s t => step_keeps_SAT, fun s t hs ht k => ?_⟩
  · obtain ⟨t, ht, -, -, -, -, hr, hacc, hsat, -, -, -, hver, hstat, hres, -⟩ := execStep_spec v s
    obtain ⟨t₁, t', ht₁, ht', hSt, hIt, hX, hO⟩ := execStep_congr v v hS.symm hI.symm
    cases ht₁.symm.trans ht
    obtain ⟨t₂, ht₂, -, -, -, -, hr', -⟩ := execStep_spec v s'
    cases ht₂.symm.trans ht'
    rw [if_pos hN] at hacc hsat
    rw [BitVec.xor_right_inj] at hO
    exact ⟨t, t', ht, ht', hacc, ⟨hver, hstat, hres⟩, hsat, hSt, hIt, hO, hX, by rw [hr, hr', hIt, hX, hO]⟩
  · obtain ⟨t', ht', hslots, -⟩ := execEval_spec s
    cases ht.symm.trans ht'
    rw [hslots, slots_sat s hs]; rfl

end Sys2Proof.Machine
end

section
/-!
SUPPORT. The accumulators and the run registers as functions of the whole observation sequence (spec/41_accumulators.md
R131, R132), by induction on the sequence, one byte or one bit at its end.
-/

namespace Sys2Proof.Machine

/-! ### The sequence with one byte more -/

/-- The 1 bits of a longer sequence. -/
theorem onesOf_append (obs obs' : List Byte) : onesOf (obs ++ obs') = onesOf obs + onesOf obs' := by
  simp [onesOf]

/-- The bytes up to a lag before the end grow by the byte a lag back, once there is one (R128). -/
theorem onesOf_take_snoc (obs : List Byte) (x : Byte) (lag : Nat) :
    onesOf ((obs ++ [x]).take (obs.length + 1 - lag)) = onesOf (obs.take (obs.length - lag))
      + if lag ≤ obs.length then popcount ((obs ++ [x]).reverse.getD lag 0) else 0 := by
  by_cases hlag : lag ≤ obs.length
  · have hlen : obs.length - lag < (obs ++ [x]).length := by simp
    have hback : (obs ++ [x]).reverse.getD lag 0 = (obs ++ [x])[obs.length - lag] := by
      rw [List.getD_eq_getElem?_getD, List.getElem?_reverse (by simp; omega), List.getElem?_eq_getElem (by simp)]
      simp
    rw [if_pos hlag, hback, Nat.sub_add_comm hlag, List.take_succ_eq_append_getElem hlen, onesOf_append,
      List.take_append_of_le_length (Nat.sub_le _ _)]
    rfl
  · rw [if_neg hlag, Nat.sub_eq_zero_of_le (by omega), Nat.sub_eq_zero_of_le (by omega)]
    rfl

/-- The new byte is now the last one seen of its value, and of no other (R131). -/
theorem lastSeen_snoc (obs : List Byte) (x v : Byte) :
    lastSeen (obs ++ [x]) v (obs.length + 1) = if v = x then obs.length else lastSeen obs v obs.length := by
  rw [lastSeen, lastSeen_append obs x v _ le_rfl]
  simp [eq_comm]

/-- A byte at the end changes no gap before it, and its own gap goes back to the last byte of its value (R131). -/
theorem gapAt_snoc (obs : List Byte) (x : Byte) :
    (∀ k < obs.length, gapAt (obs ++ [x]) k = gapAt obs k)
      ∧ gapAt (obs ++ [x]) obs.length = obs.length - lastSeen obs x obs.length := by
  refine ⟨fun k hk => ?_, ?_⟩
  · rw [gapAt, gapAt, List.getD_append _ _ _ _ hk, lastSeen_append _ _ _ _ hk.le]
  · rw [gapAt, lastSeen_append _ _ _ _ le_rfl]; simp

/-- USUM of a sequence with one byte more in the initialisation segment (R129). -/
theorem usumOf_snoc_of_lt (obs : List Byte) (x : Byte) (hk : obs.length < Config.univInit) :
    usumOf (obs ++ [x]) = usumOf obs := by
  have hlen : obs.length + 1 - Config.univInit = 0 := by omega
  simp [usumOf, hlen, Nat.sub_eq_zero_of_le hk.le]

/-- USUM of a sequence with one byte more in the test segment (R130). -/
theorem usumOf_snoc_of_le (obs : List Byte) (x : Byte) (hk : Config.univInit ≤ obs.length) :
    usumOf (obs ++ [x]) = usumOf obs + Real.logb 2 (obs.length - lastSeen obs x obs.length : ℕ) := by
  obtain ⟨hold, hnew⟩ := gapAt_snoc obs x
  have hsame : (List.range' Config.univInit (obs.length - Config.univInit)).map
        (fun k => Real.logb 2 (gapAt (obs ++ [x]) k))
      = (List.range' Config.univInit (obs.length - Config.univInit)).map (fun k => Real.logb 2 (gapAt obs k)) :=
    List.map_congr_left fun k hmem => by
      rw [List.mem_range'_1] at hmem
      rw [hold k (by omega)]
  have hlast : Config.univInit + (obs.length - Config.univInit) = obs.length := by omega
  rw [usumOf, usumOf, List.length_append, List.length_singleton, Nat.sub_add_comm hk, List.range'_1_concat, List.map_append,
    List.sum_append, hsame, hlast, List.map_singleton, List.sum_singleton, hnew]

/-! ### The accumulators of a sequence -/

/-- The accumulators are the functions of R131 of the sequence, the square sum left to the invariant. -/
structure OfSequence (obs : List Byte) (a : Accumulators) : Prop where
  inv : a.Inv
  count : a.N.toNat = obs.length
  ones : a.ONES.toNat = onesOf obs
  occ : ∀ v : Fin 256, (a.OCC[v]).toNat = obs.count (BitVec.ofFin v)
  hist : ∀ j : Fin 26, a.HIST[j] = obs.reverse.getD j.val 0
  acp : ∀ k : Fin 4, (a.ACP[k]).toNat = onesOf (obs.take (obs.length - Config.tau k))
  utab : ∀ v : Fin 256, (a.UTAB[v]).toNat = lastSeen obs (BitVec.ofFin v) obs.length
  usum : a.USUM = usumOf obs

namespace OfSequence

/-- A fresh engine has seen the empty sequence (R44). -/
theorem clear : OfSequence [] Accumulators.clear where
  inv := clear_inv
  count := rfl
  ones := rfl
  occ v := by simp [Accumulators.clear]
  hist j := by simp [Accumulators.clear]
  acp k := by simp [Accumulators.clear, onesOf]
  utab v := by simp [Accumulators.clear, lastSeen]
  usum := by simp [Accumulators.clear, Accumulators.USUM, usumOf]

/-- The delay line after one byte more (R127). -/
theorem hist_snoc {obs : List Byte} {a : Accumulators} (h : OfSequence obs a) (x : Byte) (j : Fin 26) :
    (a.accumulate x).HIST[j] = (obs ++ [x]).reverse.getD j.val 0 := by
  rw [List.reverse_concat]
  obtain ⟨j, hj⟩ := j
  cases j with
  | zero => simp
  | succ j =>
    have := h.hist ⟨j, by omega⟩
    simpa using this

/-- One byte more, with room left (R131). -/
theorem snoc {obs : List Byte} {a : Accumulators} (h : OfSequence obs a) (hN : obs.length < Config.obsMax) (x : Byte) :
    OfSequence (obs ++ [x]) (a.accumulate x) := by
  have hNa : a.N.toNat < Config.obsMax := h.count ▸ hN
  have add := accumulate_spec h.inv hNa x
  have hsymbol : ∀ v : Fin 256, BitVec.ofFin v = x ↔ v = x.toFin := fun v =>
    ⟨fun e => by rw [← e], fun e => by rw [e]⟩
  constructor
  case inv => exact accumulate_inv h.inv hNa x
  case count => rw [add.N, h.count, List.length_append, List.length_singleton]
  case ones => rw [add.ONES, h.ones, onesOf_append]; rfl
  case occ =>
    intro v
    rw [add.OCC, h.occ, List.count_append, List.count_singleton]
    simp only [beq_iff_eq, eq_comm (a := x), hsymbol]
  case hist => exact h.hist_snoc x
  case acp =>
    intro k
    have htau : Config.tau k < 26 := by revert k; decide
    have hback : (a.accumulate x).HIST.toList.getD (Config.tau k) 0 = (obs ++ [x]).reverse.getD (Config.tau k) 0 := by
      rw [← h.hist_snoc x ⟨_, htau⟩]; simp [List.getD, htau]
    rw [add.ACP, hback, h.acp, h.count, List.length_append, List.length_singleton, onesOf_take_snoc]
  case utab =>
    intro v
    rw [add.UTAB, h.utab, h.count, List.length_append, List.length_singleton, lastSeen_snoc]
    simp only [hsymbol]
  case usum =>
    obtain hk | hk := lt_or_ge obs.length Config.univInit
    · rw [accumulate_USUM_of_lt x (h.count ▸ hk), usumOf_snoc_of_lt obs x hk, h.usum]
    · rw [accumulate_USUM_of_le h.inv x (h.count ▸ hk), usumOf_snoc_of_le obs x hk, h.usum, h.utab, h.count]

end OfSequence

/-- The accumulators after at most OBS_MAX bytes since a SEED (R131). -/
theorem ofSequence_accumulated (obs : List Byte) (hN : obs.length ≤ Config.obsMax) : OfSequence obs (accumulated obs) := by
  induction obs using List.reverseRecOn with
  | nil => exact .clear
  | append_singleton obs x ih =>
    rw [List.length_append, List.length_singleton] at hN
    rw [accumulated_snoc]
    exact (ih (by omega)).snoc hN x

/-- A run of STEPs since a SEED leaves the accumulators of its observation bytes, and SAT clear (R120). -/
theorem xfer_of_seed {vs : List Byte} {s t u : State} (ht : exec .seed s = .next t) (hu : xfer vs t = .next u)
    (hN : vs.length ≤ Config.obsMax) : u.acc = accumulated (observed vs t) ∧ u.SAT = false := by
  cases ht
  obtain ⟨-, hrun⟩ := xfer_accumulates vs _ u hu
  exact hrun (by simpa [Accumulators.clear] using hN)

/-- Settles O19, by induction on the observation sequence. -/
theorem accumulatorsEqualSequence : Obligations.AccumulatorsEqualSequence := by
  rintro vs s t u ht hu hN obs rfl
  obtain ⟨hacc, hsat⟩ := xfer_of_seed ht hu hN
  have hlen := observed_length vs t
  have h := ofSequence_accumulated (observed vs t) (hlen.trans_le hN)
  rw [← hacc] at h
  refine ⟨hsat, h.count, hlen, h.ones, h.occ, ?_, fun j => ?_, h.acp, h.utab, h.usum⟩
  · simp only [h.inv.sqsum_eq, h.occ]
  · rw [h.hist]
    split
    case isTrue hj => rw [List.getD_eq_getElem?_getD, List.getElem?_reverse hj, List.getD_eq_getElem?_getD]
    case isFalse hj => exact List.getD_eq_default _ _ (by simpa using hj)

/-! ### The runs of a bit stream -/

/-- The run registers are the functions of R132 of the bit stream. -/
structure OfBits (bits : List Bool) (r : Runs) : Prop where
  brun : ∀ i : Fin 8, r.brun[i] = closedRuns bits true (i.val + 1)
  grun : ∀ i : Fin 8, r.grun[i] = closedRuns bits false (i.val + 1)
  run1 : r.run1 = min (openRun bits true) 9
  run0 : r.run0 = min (openRun bits false) 9

/-- A bit ends the run of the other bit. A counter clamped at 9 tells the lengths up to 8 apart (R126). -/
theorem addRun_eq_closedRuns {bins : Vector Nat 8} {bits : List Bool} {b : Bool}
    (h : ∀ i : Fin 8, bins[i] = closedRuns bits b (i.val + 1)) (i : Fin 8) :
    (addRun bins (min (openRun bits b) 9))[i] = closedRuns (bits ++ [!b]) b (i.val + 1) := by
  have hclamp : min (openRun bits b) 9 = i.val + 1 ↔ openRun bits b = i.val + 1 := by omega
  have hi := h i
  rw [Fin.getElem_fin] at hi
  simp [addRun, hclamp, closedRuns_snoc, hi]

/-- A bit ends no run of its own (R126). -/
theorem closedRuns_snoc_self (bits : List Bool) (b : Bool) (i : Fin 8) :
    closedRuns (bits ++ [b]) b (i.val + 1) = closedRuns bits b (i.val + 1) := by
  simp [closedRuns_snoc]

/-- A bit lengthens its own run, clamped at 9 (R125). -/
theorem openRun_snoc_self (bits : List Bool) (b : Bool) :
    min (min (openRun bits b) 9 + 1) 9 = min (openRun (bits ++ [b]) b) 9 := by
  rw [openRun_snoc, if_pos rfl]; omega

/-- One bit through the FSM in numbers (R125). -/
theorem OfBits.snoc {bits : List Bool} {r : Runs} (h : OfBits bits r) (c : Bool) : OfBits (bits ++ [c]) (r.bit c) := by
  obtain ⟨hb, hg, h1, h0⟩ := h
  cases c with
  | true =>
    simp only [Runs.bit, if_true, h1, h0]
    exact ⟨fun i => (hb i).trans (closedRuns_snoc_self bits true i).symm, addRun_eq_closedRuns hg,
      openRun_snoc_self bits true, by simp [openRun_snoc]⟩
  | false =>
    simp only [Runs.bit, Bool.false_eq_true, if_false, h1, h0]
    exact ⟨addRun_eq_closedRuns hb, fun i => (hg i).trans (closedRuns_snoc_self bits false i).symm,
      by simp [openRun_snoc], openRun_snoc_self bits false⟩

/-- The FSM in numbers after a bit stream (R132). -/
theorem OfBits.foldl_bit (bits : List Bool) : OfBits bits (bits.foldl Runs.bit Accumulators.clear.runs) := by
  induction bits using List.reverseRecOn with
  | nil => constructor <;> simp [Accumulators.runs, Accumulators.clear, closedRuns, openRun]
  | append_singleton bits c ih => rw [List.foldl_concat]; exact ih.snoc c

/-- The run registers after at most OBS_MAX bytes are those of the FSM in numbers after their bits (R125). -/
theorem accumulated_runs (obs : List Byte) (hN : obs.length ≤ Config.obsMax) :
    (accumulated obs).runs = (bitStream obs).foldl Runs.bit Accumulators.clear.runs := by
  induction obs using List.reverseRecOn with
  | nil => rfl
  | append_singleton obs x ih =>
    rw [List.length_append, List.length_singleton] at hN
    have h := ofSequence_accumulated obs (by omega)
    rw [accumulated_snoc, accumulate_runs_exact h.inv (h.count ▸ hN), ih (by omega), bitStream_snoc, List.foldl_append]
    rfl

/-- Settles O20, by induction on the bytes for the FSM and on their bits for the runs. -/
theorem runCountersEqualMaximalRuns : Obligations.RunCountersEqualMaximalRuns := by
  rintro vs s t u ht hu hN bits rfl
  obtain ⟨hacc, -⟩ := xfer_of_seed ht hu hN
  have hruns := accumulated_runs (observed vs t) ((observed_length vs t).trans_le hN)
  have h := OfBits.foldl_bit (bitStream (observed vs t))
  rw [← hruns, ← hacc] at h
  refine ⟨fun i => ⟨?_, ?_⟩, h.run1, h.run0⟩
  · simpa [Accumulators.runs] using h.brun i
  · simpa [Accumulators.runs] using h.grun i

end Sys2Proof.Machine
end

section
/-!
SUPPORT. EVAL in every state (spec/42_evaluate.md R150 to R153, R159, R160): what it leaves unchanged, which code each
slot has, the universal verdict against the exact real statistic, and a second EVAL.
-/

namespace Sys2Proof.Machine

/-- Settles O24: EVAL is total, and every slot's code is one of 1 to 4. -/
theorem evalWritesOnlyResults : Obligations.EvalWritesOnlyResults := by
  intro s
  obtain ⟨t, ht, hcode, -, hres, hrsp, hkey, hS, hidx, hout, hobs, herr, herrcode, hsat, hacc, hconf, hleft, hafter,
    hpins, -⟩ := execEval_spec s
  refine ⟨t, ht, hres, hrsp, fun k => ?_, hkey, ⟨hS, hidx, hout, hobs⟩, ⟨hacc, hsat⟩, ⟨herr, herrcode⟩,
    ⟨hconf, hleft, hafter, hpins⟩⟩
  obtain ⟨hlo, hhi, -⟩ := slots_codes s k
  rw [hcode]
  exact ⟨hlo, hhi⟩

/-- What an EVAL that answers latches: VERDICT packs the slots' codes, STAT their readouts (R151, R161, R162). -/
theorem execEval_results {s t : State} (h : exec .eval s = .next t) :
    t.VERDICT = packVerdict (fun k => (s.slots[k]).1)
      ∧ (∀ k : Fin 8, verdictSlot t.VERDICT k = (s.slots[k]).1.code) ∧ ∀ k : Fin 8, t.STAT[k] = (s.slots[k]).2 := by
  obtain ⟨t', ht', hcode, hstat, -⟩ := execEval_spec s
  cases h.symm.trans ht'
  cases h
  exact ⟨rfl, hcode, hstat⟩

/-- Settles O25: after saturation every slot is OVERFLOW, and eight of its codes are 0x44444444. -/
theorem evalAfterSaturationOverflows : Obligations.EvalAfterSaturationOverflows := by
  intro s hs
  obtain ⟨t, ht, -⟩ := execEval_spec s
  obtain ⟨hver, -, hstat⟩ := execEval_results ht
  simp only [slots_sat s hs] at hver hstat
  exact ⟨t, ht, hver.trans (by decide), hstat⟩

/-! ### Each test with too few bytes and with enough -/

/-- The counter in its two spellings. -/
theorem Accumulators.N_eq_zero_iff (a : Accumulators) : a.N = 0 ↔ a.N.toNat = 0 := BitVec.toNat_inj.symm

section
variable {a : Accumulators}

theorem frequencyTest_short (h : a.N.toNat = 0) : frequencyTest a = .insufficient := if_pos (a.N_eq_zero_iff.2 h)
theorem serialTest_short (h : a.N.toNat = 0) : serialTest a = .insufficient := if_pos (a.N_eq_zero_iff.2 h)
theorem runsTest_short (h : a.N.toNat = 0) : runsTest a = .insufficient := if_pos (a.N_eq_zero_iff.2 h)
theorem autoTest_short {l : Fin 4} (h : a.N.toNat ≤ Config.tau l) : autoTest a l = .insufficient := if_pos h
theorem universalTest_short (b : Band) (n : Nat) (h : a.N.toNat ≤ 2000) : universalTest b a n = (.insufficient, 0) :=
  if_pos h

/-- Test 1 with enough bytes (R154). -/
theorem frequencyTest_eq (h : a.N.toNat ≠ 0) :
    frequencyTest a = .judged
      (decide (-Config.freqCrit ≤ balanceStat (8 * a.N.toNat) a.ONES.toNat)
        && decide (balanceStat (8 * a.N.toNat) a.ONES.toNat ≤ Config.freqCrit))
      (balanceStat (8 * a.N.toNat) a.ONES.toNat) :=
  if_neg (mt a.N_eq_zero_iff.1 h)

/-- Test 2 with enough bytes (R155). -/
theorem serialTest_eq (h : a.N.toNat ≠ 0) :
    serialTest a = .judged (decide (serialStat a.N.toNat a.SQSUM.toNat ≤ Config.serialCrit))
      (serialStat a.N.toNat a.SQSUM.toNat) :=
  if_neg (mt a.N_eq_zero_iff.1 h)

/-- Test 3 with enough bytes (R156). -/
theorem runsTest_eq (h : a.N.toNat ≠ 0) :
    runsTest a = .judged
      (decide (runsSum (8 * a.N.toNat) a.BRUN + runsSum (8 * a.N.toNat) a.GRUN ≤ Config.runsCrit))
      (runsSum (8 * a.N.toNat) a.BRUN + runsSum (8 * a.N.toNat) a.GRUN) :=
  if_neg (mt a.N_eq_zero_iff.1 h)

/-- Test 4 with enough bytes (R157). -/
theorem autoTest_eq {l : Fin 4} (h : Config.tau l < a.N.toNat) :
    autoTest a l = .judged
      (decide (-Config.autoCrit ≤ balanceStat (8 * (a.N.toNat - Config.tau l)) (a.ACP[l]).toNat)
        && decide (balanceStat (8 * (a.N.toNat - Config.tau l)) (a.ACP[l]).toNat ≤ Config.autoCrit))
      (balanceStat (8 * (a.N.toNat - Config.tau l)) (a.ACP[l]).toNat) :=
  if_neg (Nat.not_le.2 h)

/-- Test 5 with enough bytes (R158, R159, R162). -/
theorem universalTest_eq (b : Band) (n : Nat) (h : 2000 < a.N.toNat) :
    universalTest b a n =
      (univVerdict b a.USUMEXP (a.N.toNat - 2000) (Config.verdictDraw n),
        BitVec.ofInt 64 (univReadout a.USUMEXP (a.N.toNat - 2000) (Config.readoutDraw n))) :=
  if_neg (Nat.not_le.2 h)

end

/-! ### The code of each slot -/

/-- The bytes that are too few for each of the eight slots (R154 to R158). -/
theorem tooShort_iff (n : Nat) :
    (tooShort 0 n ↔ n = 0) ∧ (tooShort 1 n ↔ n = 0) ∧ (tooShort 2 n ↔ n = 0)
      ∧ (∀ l : Fin 4, tooShort ⟨l.val + 3, by omega⟩ n ↔ n ≤ Config.tau l) ∧ (tooShort 7 n ↔ n ≤ 2000) := by
  refine ⟨by simp [tooShort], by simp [tooShort], by simp [tooShort], fun l => ?_, by simp [tooShort]⟩
  fin_cases l <;> simp [tooShort, Config.tau]

/-- Without saturation a slot is INSUFFICIENT when there are too few bytes for its test, else judged (R160). -/
theorem slots_verdict {s : State} (hs : s.SAT = false) (k : Fin 8) :
    (tooShort k s.acc.N.toNat → (s.slots[k]).1 = .insufficient)
      ∧ (¬ tooShort k s.acc.N.toNat → ∃ inside, (s.slots[k]).1 = Verdict.judge inside) := by
  obtain ⟨h0, h1, h2, h3, h7⟩ := slots_eq s hs
  obtain ⟨s0, s1, s2, s3, s7⟩ := tooShort_iff s.acc.N.toNat
  revert k
  apply forall_slot
  · rw [h0, s0]
    exact ⟨fun h => by rw [frequencyTest_short h]; rfl, fun h => ⟨_, by rw [frequencyTest_eq h]; rfl⟩⟩
  · rw [h1, s1]
    exact ⟨fun h => by rw [serialTest_short h]; rfl, fun h => ⟨_, by rw [serialTest_eq h]; rfl⟩⟩
  · rw [h2, s2]
    exact ⟨fun h => by rw [runsTest_short h]; rfl, fun h => ⟨_, by rw [runsTest_eq h]; rfl⟩⟩
  · intro l
    rw [h3, s3]
    exact ⟨fun h => by rw [autoTest_short h]; rfl, fun h => ⟨_, by rw [autoTest_eq (Nat.not_le.1 h)]; rfl⟩⟩
  · rw [h7, s7]
    refine ⟨fun h => by rw [universalTest_short _ _ h], fun h => ?_⟩
    rw [universalTest_eq _ _ (Nat.not_le.1 h)]
    exact (univVerdict_cases _ _ _ _).elim (⟨true, ·⟩) (⟨false, ·⟩)

/-- Settles O26: saturated, too short and judged are three cases that exclude each other. -/
theorem insufficientExactlyWhenTooShort : Obligations.InsufficientExactlyWhenTooShort := by
  intro s t h k
  obtain ⟨-, hcode, -⟩ := execEval_results h
  rw [hcode]
  cases hs : s.SAT with
  | true => simp [slots_sat s hs, Verdict.code]
  | false =>
    obtain ⟨hshort, hlong⟩ := slots_verdict hs k
    by_cases hk : tooShort k s.acc.N.toNat
    · rw [hshort hk]; simp [hk, Verdict.code]
    · obtain ⟨inside, hv⟩ := hlong hk
      rw [hv]
      cases inside <;> simp [hk, Verdict.judge, Verdict.code]

/-! ### The universal verdict -/

/-- In the guard band the universal verdict is the evaluation's draw (R159). -/
theorem universalTest_inBand {b : Band} {a : Accumulators} (n : Nat) (hN : 2000 < a.N.toNat)
    (hb : InBand b (univReal a.USUM (a.N.toNat - 2000))) :
    (universalTest b a n).1 = Verdict.judge (Config.verdictDraw n) := by
  rw [universalTest_eq b n hN]
  exact (univVerdict_exact b a.USUMEXP _ (Nat.sub_pos_of_lt hN) rfl _).1 hb

/-- Outside the guard band the universal verdict is that of the exact real statistic, whatever the draw (R159). -/
theorem universalTest_not_inBand {b : Band} {a : Accumulators} (n : Nat) (hN : 2000 < a.N.toNat)
    (hb : ¬ InBand b (univReal a.USUM (a.N.toNat - 2000))) :
    (universalTest b a n).1 = if |univReal a.USUM (a.N.toNat - 2000)| ≤ 1.2816 then .pass else .fail := by
  rw [universalTest_eq b n hN]
  obtain ⟨hpass, hfail⟩ := (univVerdict_exact b a.USUMEXP _ (Nat.sub_pos_of_lt hN) rfl (Config.verdictDraw n)).2 hb
  split
  case isTrue hle => exact hpass hle
  case isFalse hgt => exact hfail (not_le.1 hgt)

/-- Settles O30: in the guard band slot 7 is a draw, outside it a comparison of |x|. -/
theorem universalVerdictIsExact : Obligations.UniversalVerdictIsExact := by
  rintro s t h hs hN x rfl
  obtain ⟨-, hcode, -⟩ := execEval_results h
  obtain ⟨-, -, -, -, h7⟩ := slots_eq s hs
  rw [hcode, h7]
  refine ⟨fun hb => ?_, fun hb => ?_⟩
  · rw [universalTest_inBand _ hN hb]
    cases Config.verdictDraw s.draws with
    | true => exact .inl rfl
    | false => exact .inr rfl
  · rw [universalTest_not_inBand _ hN hb, ← abs_le]
    split
    case isTrue hle => simp [Verdict.code, hle]
    case isFalse hgt => simp [Verdict.code, hgt]

/-! ### A second EVAL -/

/-- Slots 0 to 6 depend on the accumulators and SAT alone (R152). -/
theorem slots_congr {s t : State} (hacc : t.acc = s.acc) (hsat : t.SAT = s.SAT) (k : Fin 8) (hk : k ≠ 7) :
    t.slots[k] = s.slots[k] := by
  cases hs : s.SAT with
  | true => rw [slots_sat s hs, slots_sat t (hsat.trans hs)]
  | false =>
    obtain ⟨s0, s1, s2, s3, -⟩ := slots_eq s hs
    obtain ⟨t0, t1, t2, t3, -⟩ := slots_eq t (hsat.trans hs)
    revert k
    apply forall_slot
    · intro; rw [s0, t0, hacc]
    · intro; rw [s1, t1, hacc]
    · intro; rw [s2, t2, hacc]
    · intro l _; rw [s3, t3, hacc]
    · exact fun h => absurd rfl h

/-- Slot 7's code can differ only by a draw in the guard band (R159). -/
theorem slots_seven_congr {s t : State} (hacc : t.acc = s.acc) (hsat : t.SAT = s.SAT) (hconf : t.config = s.config)
    (hdraw : ¬ (s.SAT = false ∧ 2000 < s.acc.N.toNat
      ∧ InBand s.config.univBand (univReal s.acc.USUM (s.acc.N.toNat - 2000)))) :
    (t.slots[(7 : Fin 8)]).1 = (s.slots[(7 : Fin 8)]).1 := by
  cases hs : s.SAT with
  | true => rw [slots_sat s hs, slots_sat t (hsat.trans hs)]
  | false =>
    obtain ⟨-, -, -, -, s7⟩ := slots_eq s hs
    obtain ⟨-, -, -, -, t7⟩ := slots_eq t (hsat.trans hs)
    rw [s7, t7, hacc, hconf]
    by_cases hN : 2000 < s.acc.N.toNat
    · have hb := fun hb => hdraw ⟨hs, hN, hb⟩
      rw [universalTest_not_inBand _ hN hb, universalTest_not_inBand _ hN hb]
    · rw [universalTest_short _ _ (Nat.not_lt.1 hN), universalTest_short _ _ (Nat.not_lt.1 hN)]

/-- Settles O32: the first EVAL keeps all that the second evaluates, but for the draw counter. -/
theorem repeatedEvalAgrees : Obligations.RepeatedEvalAgrees := by
  intro s t u ht hu
  obtain ⟨hver, hcode, hstat⟩ := execEval_results ht
  obtain ⟨hver', hcode', hstat'⟩ := execEval_results hu
  obtain ⟨t', ht', -, -, -, -, -, -, -, -, -, -, -, hsat, hacc, hconf, -⟩ := execEval_spec s
  cases ht.symm.trans ht'
  have hslots := slots_congr hacc hsat
  refine ⟨fun k hk => ?_, or_iff_not_imp_right.2 fun hdraw => ?_⟩
  · rw [hcode', hcode, hstat', hstat, hslots k hk]; exact ⟨rfl, rfl⟩
  · rw [hver', hver]
    congr 1
    funext k
    by_cases hk : k = 7
    · subst hk; exact slots_seven_congr hacc hsat hconf hdraw
    · rw [hslots k hk]

end Sys2Proof.Machine
end

section
/-!
SUPPORT. Slots 0 to 6 in numbers (spec/42_evaluate.md R162 to R165): the verdicts as comparisons of integers, the ranges
of the statistics and their readouts.
-/

namespace Sys2Proof.Machine

/-! ### The statistics as integers -/

/-- The frequency and autocorrelation tests against a critical value num/den, as one comparison of integers (R163). -/
theorem balance_pass_int {bits : Nat} (ones : Nat) (hb : 0 < bits) {c : ℚ} {num den : ℤ} (hc : 0 ≤ c) (hden : 0 < den)
    (hnum : den * c = num) :
    (decide (-c ≤ balanceStat bits ones) && decide (balanceStat bits ones ≤ c)) = true ↔
      den * ((bits : ℤ) - 2 * ones) ^ 2 ≤ num * bits := by
  have hden' : (0 : ℚ) < den := Int.cast_pos.2 hden
  rw [balance_pass bits ones hb c hc, ← mul_le_mul_iff_of_pos_left hden', ← mul_assoc, hnum]
  norm_cast

/-- The serial test as a comparison of integers (R163). -/
theorem serial_pass_int {n : Nat} (sqsum : Nat) (hn : 0 < n) :
    serialStat n sqsum ≤ Config.serialCrit ↔ 10000 * (256 * (sqsum : ℤ) - n ^ 2) ≤ 2843359 * n := by
  have hn' : (0 : ℚ) < n := Nat.cast_pos.2 hn
  have hstat : serialStat n sqsum = (256 * sqsum - n ^ 2) / n := by rw [serialStat]; field_simp
  have hcrit : Config.serialCrit * n = 2843359 * n / 10000 := by rw [Config.serialCrit]; ring
  rw [hstat, div_le_iff₀ hn', hcrit, le_div_iff₀ (by norm_num), mul_comm _ (10000 : ℚ)]
  norm_cast

/-- The runs statistic of one bit value as a sum over the eight lengths (R156). -/
theorem runsSum_eq (n : Nat) (bins : Vector (BitVec 26) 8) :
    runsSum n bins =
      ∑ i : Fin 8, (((bins[i]).toNat : ℚ) - runsExpected n (i.val + 1)) ^ 2 / runsExpected n (i.val + 1) := by
  rw [runsSum, ← List.ofFn_eq_map, List.sum_ofFn]

/-- One term of the runs statistic with its denominators cleared (R163): the expected value is m/p. -/
theorem runs_term_scaled {D p m : ℤ} (b : ℤ) (hdvd : p * m ∣ D) (hp : p ≠ 0) (hm : m ≠ 0) :
    (D : ℚ) * ((b - (m / p : ℚ)) ^ 2 / (m / p)) = (((p * b - m) ^ 2 * (D / (p * m)) : ℤ) : ℚ) := by
  have hp' : (p : ℚ) ≠ 0 := Int.cast_ne_zero.2 hp
  have hm' : (m : ℚ) ≠ 0 := Int.cast_ne_zero.2 hm
  rw [Int.cast_mul, Int.cast_div hdvd (Int.cast_ne_zero.2 (mul_ne_zero hp hm))]
  push_cast
  field_simp

/-- The runs statistic with its denominators cleared: `m i / p i` is the expected value of length i + 1 (R163). -/
theorem runsSum_scaled {n : Nat} (hn : 8 ≤ n) {m p : Fin 8 → ℤ} {D : ℤ} (hm : ∀ i, m i = n - (i.val + 1) + 3)
    (hp : ∀ i, p i = 2 ^ (i.val + 3)) (hD : D = ∏ i, p i * m i) (bins : Vector (BitVec 26) 8) :
    (D : ℚ) * runsSum n bins = ((∑ i : Fin 8, (p i * (bins[i]).toNat - m i) ^ 2 * (D / (p i * m i)) : ℤ) : ℚ) := by
  rw [runsSum_eq, Finset.mul_sum, Int.cast_sum]
  refine Finset.sum_congr rfl fun i _ => ?_
  have hexp : runsExpected n (i.val + 1) = (m i : ℚ) / p i := by
    rw [runsExpected, hm, hp]; push_cast; rfl
  have hdvd : p i * m i ∣ D := hD ▸ Finset.dvd_prod_of_mem _ (Finset.mem_univ i)
  have hp0 : p i ≠ 0 := by rw [hp]; positivity
  have hm0 : m i ≠ 0 := by rw [hm]; omega
  rw [hexp]
  exact runs_term_scaled _ hdvd hp0 hm0

/-- The runs test as a comparison of integers (R163). -/
theorem runs_pass_int {n : Nat} (hn : 8 ≤ n) {m p : Fin 8 → ℤ} {D : ℤ} (hm : ∀ i, m i = n - (i.val + 1) + 3)
    (hp : ∀ i, p i = 2 ^ (i.val + 3)) (hD : D = ∏ i, p i * m i) (brun grun : Vector (BitVec 26) 8) :
    runsSum n brun + runsSum n grun ≤ Config.runsCrit ↔
      10000 * (∑ i : Fin 8, ((p i * (brun[i]).toNat - m i) ^ 2 + (p i * (grun[i]).toNat - m i) ^ 2) * (D / (p i * m i)))
        ≤ 210641 * D := by
  have hD0 : 0 < D := hD ▸ Finset.prod_pos fun i _ => mul_pos (by rw [hp]; positivity) (by rw [hm]; omega)
  have hscale : (0 : ℚ) < 10000 * D := mul_pos (by norm_num) (Int.cast_pos.2 hD0)
  have hcrit : 10000 * (D : ℚ) * Config.runsCrit = ((210641 * D : ℤ) : ℚ) := by
    rw [Config.runsCrit]; push_cast; ring
  rw [← mul_le_mul_iff_of_pos_left hscale, hcrit, mul_assoc, mul_add, runsSum_scaled hn hm hp hD,
    runsSum_scaled hn hm hp hD, ← Int.cast_add, ← Finset.sum_add_distrib]
  simp only [← add_mul]
  norm_cast

/-- Settles O27: a test of slots 0 to 6 passes when its statistic is within the critical value, and that is a comparison
of integers. -/
theorem slotsZeroToSixByIntegerComparison : Obligations.SlotsZeroToSixByIntegerComparison := by
  rintro s t h hs N rfl m p D hm hp hD
  obtain ⟨-, hcode, -⟩ := execEval_results h
  obtain ⟨h0, h1, h2, h3, -⟩ := slots_eq s hs
  refine ⟨fun hN => ?_, fun hN => ?_, fun hN => ?_, fun l hl => ?_⟩
  · have hpos : s.acc.N.toNat ≠ 0 := Int.ofNat_ne_zero.1 hN
    rw [hcode, h0, frequencyTest_eq hpos, judged_verdict, judge_code_pass,
      balance_pass_int (num := 27055) (den := 10000) _ (by omega) (by norm_num [Config.freqCrit]) (by norm_num)
        (by norm_num [Config.freqCrit])]
    push_cast
    rfl
  · have hpos : s.acc.N.toNat ≠ 0 := Int.ofNat_ne_zero.1 hN
    rw [hcode, h1, serialTest_eq hpos, judged_verdict, judge_code_pass, decide_eq_true_iff,
      serial_pass_int _ (Nat.pos_of_ne_zero hpos)]
  · have hpos : s.acc.N.toNat ≠ 0 := Int.ofNat_ne_zero.1 hN
    rw [hcode, h2, runsTest_eq hpos, judged_verdict, judge_code_pass, decide_eq_true_iff,
      runs_pass_int (by omega) (by simpa using hm) hp hD]
  · have hlt : Config.tau l < s.acc.N.toNat := Int.ofNat_lt.1 hl
    rw [hcode, h3, autoTest_eq hlt, judged_verdict, judge_code_pass,
      balance_pass_int (num := 3) (den := 1) _ (by omega) (by norm_num [Config.autoCrit]) (by norm_num)
        (by norm_num [Config.autoCrit]), one_mul]
    push_cast [hlt.le]
    rfl

/-! ### The ranges of the statistics -/

/-- The range of the runs statistic (R164). -/
theorem runs_range {a : Accumulators} (h : a.Inv) (hN : 0 < a.N.toNat) :
    0 ≤ runsSum (8 * a.N.toNat) a.BRUN + runsSum (8 * a.N.toNat) a.GRUN
      ∧ runsSum (8 * a.N.toNat) a.BRUN + runsSum (8 * a.N.toNat) a.GRUN < 2 ^ 35 := by
  have hbits := h.run_bits
  obtain ⟨hb0, hb⟩ := runs_bounds a.BRUN a.N.toNat hN (by omega)
  obtain ⟨hg0, hg⟩ := runs_bounds a.GRUN a.N.toNat hN (by omega)
  have hlt : (a.N.toNat : ℚ) < 2 ^ 24 := by exact_mod_cast a.N.isLt
  exact ⟨add_nonneg hb0 hg0, by linarith⟩

/-- The range of the frequency statistic (R164). -/
theorem frequency_range {a : Accumulators} (h : a.Inv) (hN : 0 < a.N.toNat) :
    0 ≤ balanceStat (8 * a.N.toNat) a.ONES.toNat ∧ balanceStat (8 * a.N.toNat) a.ONES.toNat ≤ 8 * a.N.toNat := by
  exact_mod_cast balance_bounds (8 * a.N.toNat) a.ONES.toNat (by omega) h.ones_le

/-- The range of an autocorrelation statistic (R164). -/
theorem auto_range {a : Accumulators} (h : a.Inv) {l : Fin 4} (hl : Config.tau l < a.N.toNat) :
    0 ≤ balanceStat (8 * (a.N.toNat - Config.tau l)) (a.ACP[l]).toNat
      ∧ balanceStat (8 * (a.N.toNat - Config.tau l)) (a.ACP[l]).toNat ≤ 8 * (a.N.toNat - Config.tau l : ℕ) := by
  exact_mod_cast balance_bounds (8 * (a.N.toNat - Config.tau l)) (a.ACP[l]).toNat (by omega) (h.acp_le l)

/-- Settles O29, one range per statistic. -/
theorem statisticRanges : Obligations.StatisticRanges := fun _ h hN =>
  ⟨frequency_range h hN, serial_bounds h hN, runs_range h hN, fun _ hl => auto_range h hl, univReal_bound h⟩

/-! ### The readouts -/

/-- A statistic at most linear in the count of bytes fits its readout (R162, R164). -/
theorem fixed_toInt_of_linear {q : ℚ} {n : Nat} (hn : n < 2 ^ 24) (h0 : 0 ≤ q) (h1 : q ≤ 255 * n) :
    (fixedPoint q).toInt = ⌊2 ^ 24 * q⌋ := by
  have hn' : (n : ℚ) < 2 ^ 24 := by exact_mod_cast hn
  exact fixed_toInt q h0 (by linarith)

/-- The universal readout fits 64 bits (R162, R164). -/
theorem univReadout_toInt {a : Accumulators} (h : a.Inv) (hN : 2000 < a.N.toNat) (draw : Bool) :
    (BitVec.ofInt 64 (univReadout a.USUMEXP (a.N.toNat - 2000) draw)).toInt
      = univReadout a.USUMEXP (a.N.toNat - 2000) draw := by
  obtain ⟨hlo, hhi⟩ := abs_lt.1 (univReal_bound h hN)
  obtain ⟨hdist, -⟩ := univReadout_spec a.USUMEXP _ (Nat.sub_pos_of_lt hN)
    (x := univReal a.USUM (a.N.toNat - 2000)) rfl draw
  obtain ⟨hdlo, hdhi⟩ := abs_lt.1 hdist
  apply toInt_ofInt64
  · rify; linarith
  · rify; linarith

/-- Settles O28: each statistic is in range, so that its readout does not wrap. -/
theorem readoutsAreFixedPoint : Obligations.ReadoutsAreFixedPoint := by
  intro s t hinv h
  obtain ⟨-, hcode, hstat⟩ := execEval_results h
  refine ⟨fun k => ?_, ?_⟩
  · obtain ⟨-, -, hzero⟩ := slots_codes s k
    rw [hcode, hstat]; exact hzero
  rintro N rfl hs hN
  have hpos : s.acc.N.toNat ≠ 0 := Nat.cast_ne_zero.1 hN
  have hN0 : 0 < s.acc.N.toNat := Nat.pos_of_ne_zero hpos
  have hnn : (0 : ℚ) ≤ s.acc.N.toNat := Nat.cast_nonneg _
  obtain ⟨h0, h1, h2, h3, h7⟩ := slots_eq s hs
  refine ⟨?_, ?_, fun e he => ?_, fun l bits ones hbits hones hl => ?_, fun hN7 x hx => ?_⟩
  · obtain ⟨hlo, hhi⟩ := frequency_range hinv hN0
    rw [hstat, h0, frequencyTest_eq hpos, judged_readout, fixed_toInt_of_linear s.acc.N.isLt hlo (by linarith),
      balanceStat]
    push_cast
    rfl
  · obtain ⟨hlo, hhi⟩ := serial_bounds hinv hN0
    rw [hstat, h1, serialTest_eq hpos, judged_readout, fixed_toInt_of_linear s.acc.N.isLt hlo hhi, serialStat]
  · obtain ⟨hlo, hhi⟩ := runs_range hinv hN0
    have hexp : ∀ i : Fin 8, runsExpected (8 * s.acc.N.toNat) (i.val + 1) = e i := fun i => by
      rw [he, runsExpected]; push_cast; rfl
    rw [hstat, h2, runsTest_eq hpos, judged_readout, fixed_toInt _ hlo (by linarith), runsSum_eq, runsSum_eq]
    simp only [hexp]
  · have hlt : Config.tau l < s.acc.N.toNat := Nat.cast_lt.1 hl
    obtain ⟨hlo, hhi⟩ := auto_range hinv hlt
    have hsub : ((s.acc.N.toNat - Config.tau l : ℕ) : ℚ) ≤ s.acc.N.toNat := Nat.cast_le.2 (Nat.sub_le _ _)
    rw [hstat, h3, autoTest_eq hlt, judged_readout, fixed_toInt_of_linear s.acc.N.isLt hlo (by linarith),
      balanceStat, hbits, hones]
    push_cast [hlt.le]
    rfl
  · have hlong : 2000 < s.acc.N.toNat := by exact_mod_cast hN7
    rw [hstat, h7, universalTest_eq _ _ hlong, univReadout_toInt hinv hlong, hx]
    exact univReadout_spec _ _ (Nat.sub_pos_of_lt hlong) rfl _

/-! ### A constant sequence -/

/-- With all bits 0 or all bits 1 the statistic is the number of bits (R165). -/
theorem balanceStat_constant {bits ones : Nat} (hb : 0 < bits) (h : ones = 0 ∨ ones = bits) :
    balanceStat bits ones = bits := by
  have hb' : (bits : ℚ) ≠ 0 := Nat.cast_ne_zero.2 hb.ne'
  rw [balanceStat, div_eq_iff hb']
  obtain rfl | rfl := h
  · push_cast; ring
  · ring

/-- The 1 bits of a sequence of one byte value. -/
theorem onesOf_constant {obs : List Byte} {b : Byte} (h : ∀ x ∈ obs, x = b) : onesOf obs = obs.length * popcount b := by
  rw [onesOf, List.eq_replicate_of_mem h]; simp

/-- Settles O31: the statistic is at least 8, and FREQ_CRIT is 2.7055. -/
theorem constantSequenceFailsFrequency : Obligations.ConstantSequenceFailsFrequency := by
  intro obs b hb hne hlen hall
  have h := ofSequence_accumulated obs hlen
  have hpos : 0 < obs.length := List.length_pos_iff.2 hne
  have hones : (accumulated obs).ONES.toNat = 0 ∨ (accumulated obs).ONES.toNat = 8 * obs.length := by
    have hzero : popcount 0x00 = 0 := by decide
    have hff : popcount 0xFF = 8 := by decide
    rw [h.ones, onesOf_constant hall]
    obtain rfl | rfl := hb
    · left; rw [hzero, Nat.mul_zero]
    · right; rw [hff, Nat.mul_comm]
  have hstat := balanceStat_constant (by omega) hones
  refine ⟨by rw [hstat]; push_cast; rfl, ?_⟩
  have hgt : ¬ ((8 * obs.length : ℕ) : ℚ) ≤ Config.freqCrit := by
    have h8 : (8 : ℚ) ≤ ((8 * obs.length : ℕ) : ℚ) := by exact_mod_cast (by omega : 8 ≤ 8 * obs.length)
    have hcrit : Config.freqCrit < 8 := by norm_num [Config.freqCrit]
    linarith
  rw [frequencyTest_eq (h.count.trans_ne hpos.ne'), judged_verdict, h.count, hstat, decide_eq_false hgt, Bool.and_false]
  rfl

end Sys2Proof.Machine
end

section
/-!
SUPPORT. NOP and CLRERR (spec/43_host_commands.md R190, R192): a reserved bit in a word of format N, and what the two
commands leave in every register.
-/

namespace Sys2Proof.Machine

/-- A word of a command without operands raises ERR_RSVD when a bit below its opcode is set (R82, R199). -/
theorem accept_formatN_rsvd {w : Word} (s : State)
    (hop : opField w = 0 ∨ opField w = 2 ∨ opField w = 4 ∨ opField w = 6) (hres : w.extractLsb' 0 24 ≠ 0) :
    accept w s = .next (s.raise .rsvd) := by
  obtain ⟨hrsvd, -⟩ := decode_rsvd w
  exact accept_error w s .rsvd (hrsvd hop (and_ne_zero_of_field w 0 24 rsvdN (by decide) hres))

/-- Settles O33: NOP is a response and nothing else. -/
theorem nopChangesNothing : Obligations.NopChangesNothing := by
  intro s
  refine ⟨rfl, fun w hop hres => accept_formatN_rsvd s (.inl (opField_of_shift hop)) hres, s.respond 0, rfl, ?_⟩
  simp [SameRegisters, SameKeystream, SameTest, SameResults, SameErrors, SamePort]

/-- Settles O36: CLRERR is `clearError` and a response; malformed, it raises as every command does. -/
theorem clrerrClearsErrorRecord : Obligations.ClrerrClearsErrorRecord := by
  intro s
  refine ⟨rfl, fun w hop hres => ⟨_, accept_formatN_rsvd s (.inr (.inr (.inr (opField_of_shift hop)))) hres, ?_⟩,
    s.clearError.respond 0, rfl, ?_⟩
  · exact s.raise_ERR .rsvd
  · simp [SameKeystream, SameTest, SameResults, SamePort]

end Sys2Proof.Machine
end

section
/-!
SUPPORT. Command errors (spec/60_exceptions.md R196 to R199): which words raise, what an edge that raises changes, and
what a command's effect owes to the error record.
-/

namespace Sys2Proof.Machine

/-! ### Which words raise -/

/-- Settles O4: each clause is the decoder's answer for its opcodes, and a word that does not decode raises. -/
theorem malformedWordRaises : Obligations.MalformedWordRaises := by
  intro w s
  obtain ⟨-, -, -, -, -, -, -, hopcode⟩ := decode_ok_iff w
  obtain ⟨hN, hK, hB, hR⟩ := decode_rsvd w
  refine ⟨fun hop => ?_, fun hop hres => ?_, fun hop hres => ?_, fun hop hres => ?_, fun hop hres => ?_⟩
  · rw [shift_eq_opField] at hop
    exact accept_error w s .opcode (hopcode.2 hop)
  · have hop' : opField w = 0 ∨ opField w = 2 ∨ opField w = 4 ∨ opField w = 6 := by
      simp only [List.mem_cons, List.not_mem_nil, or_false] at hop
      exact hop.imp opField_of_shift (.imp opField_of_shift (.imp opField_of_shift opField_of_shift))
    exact accept_error w s .rsvd (hN hop' hres)
  · exact accept_error w s .rsvd (hK (opField_of_shift hop) hres)
  · exact accept_error w s .rsvd (hB (opField_of_shift hop) hres)
  · exact accept_error w s .rsvd (hR (opField_of_shift hop) hres)

/-! ### What the error record can change -/

/-- The state with another error record (R27). -/
def State.withErrors (s : State) (err : Bool) (code : BitVec 3) : State := { s with ERR := err, ERRCODE := code }

/-- The test engine does not see the error record. -/
theorem State.steAccumulate_withErrors (s : State) (err : Bool) (code : BitVec 3) (x : Byte) :
    (s.withErrors err code).steAccumulate x = (s.steAccumulate x).withErrors err code := by
  rw [State.steAccumulate, State.steAccumulate, apply_ite (State.withErrors · err code)]
  rfl

/-- STATUS is the one word of the register read map that shows the error record (R26, R62). -/
theorem readReg_withErrors {r : RegName} (hr : r ≠ .status) (s : State) (err : Bool) (code : BitVec 3) :
    readReg r (s.withErrors err code) = readReg r s := by
  cases r with
  | status => exact absurd rfl hr
  | _ => rfl

/-- RDREG of a mapped address answers the register's word (R191). -/
theorem exec_rdreg_of_some {a : BitVec 12} {r : RegName} (h : regAt a.toNat = some r) (s : State) :
    exec (.rdreg a) s = .next (s.respond (readReg r s)) := by
  simp [exec, execRdreg, h]

/-- RDREG of an unmapped address raises ERR_ADDR (R200). -/
theorem exec_rdreg_of_none {a : BitVec 12} (h : regAt a.toNat = none) (s : State) :
    exec (.rdreg a) s = .next (s.raise .addr) := by
  simp [exec, execRdreg, h]

/-- Whatever the error record holds, a command leaves the same in every other register and at the port, and only RDREG of
STATUS can answer another word (R196). -/
theorem exec_withErrors {i : Instr} {s t : State} (h : exec i s = .next t) (err : Bool) (code : BitVec 3) :
    ∃ err' code' r, exec i (s.withErrors err code) = .next { t.withErrors err' code' with rsp := r }
      ∧ (i ≠ .rdreg 0x00B → r = t.rsp) := by
  cases i with
  | clrerr => cases h; exact ⟨false, 0, _, rfl, fun _ => rfl⟩
  | step v =>
    cases h
    have hacc := State.steAccumulate_withErrors { s.advance with LASTOUT := v ^^^ s.advance.fb2, LASTOBS := s.fb1 }
      err code s.fb1
    have hrsp := congrArg (State.respond · (stepResponse s.advance.IDX s.fb1 (v ^^^ s.advance.fb2))) hacc
    exact ⟨err, code, _, congrArg Host.Outcome.next hrsp, fun _ => rfl⟩
  | rdreg a =>
    cases hreg : regAt a.toNat with
    | some r =>
      cases (exec_rdreg_of_some hreg s).symm.trans h
      refine ⟨err, code, _, exec_rdreg_of_some hreg _, fun ha => ?_⟩
      have hstatus : r ≠ .status := by
        rintro rfl
        exact ha (congrArg Instr.rdreg (BitVec.eq_of_toNat_eq (regAt_some hreg)))
      rw [readReg_withErrors hstatus, State.respond_rsp]
    | none =>
      cases (exec_rdreg_of_none hreg s).symm.trans h
      exact ⟨true, _, _, exec_rdreg_of_none hreg _, fun _ => rfl⟩
  | _ => cases h; exact ⟨err, code, _, rfl, fun _ => rfl⟩

/-- Settles O38: the edge that raises is `raise` and nothing else, and no command but RDREG of STATUS reads the record. -/
theorem commandErrorIsPrecise : Obligations.CommandErrorIsPrecise := by
  refine ⟨fun s e he => ⟨_, step_of_raises he, ?_⟩, fun i s s' t hs h => ?_⟩
  · simp +contextual [SameKeystream, SameTest, SameResults]
  · obtain ⟨err, code, r, hx, hr⟩ := exec_withErrors h s'.ERR s'.ERRCODE
    rw [hs]
    exact ⟨_, hx, rfl, ⟨rfl, rfl, rfl, rfl⟩, ⟨rfl, rfl⟩, ⟨rfl, rfl, rfl⟩, ⟨rfl, rfl, rfl, rfl⟩, rfl, hr⟩

end Sys2Proof.Machine
end

section
/-!
SUPPORT. What every edge answers (spec/60_exceptions.md R204), and runs of edges at which the host presents nothing
(spec/70_reset_and_hazards.md R228, R231).
-/

namespace Sys2Proof.Machine

/-! ### Idle edges -/

/-- What the host drives at the next edge is lined up, or idle (R231). -/
theorem State.nextPins_mem_or_idle (s : State) : s.nextPins ∈ s.pins ∨ s.nextPins = Pins.idle := by
  cases h : s.pins with
  | nil => exact .inr (by simp [State.nextPins, h])
  | cons p ps => exact .inl (by simp [State.nextPins, h])

/-- An edge with neither a reset nor a command takes the pins and ends the response (R228, R231). -/
theorem step_of_idle {s : State} (hl : s.evalLeft = 0) (hp : ∀ p ∈ s.pins, p.rst = false ∧ p.cmdValid = false) :
    step s = .next { s with rsp := none, afterReset := false, pins := s.pins.tail } := by
  obtain ⟨hr, hv⟩ : s.nextPins.rst = false ∧ s.nextPins.cmdValid = false := by
    obtain hmem | hidle := s.nextPins_mem_or_idle
    · exact hp _ hmem
    · rw [hidle]; exact ⟨rfl, rfl⟩
  simp [step, edge, hr, hv, hl, State.popPins]

/-- A run of edges begins with a step. -/
theorem edges_succ {s t : State} (n : Nat) (h : step s = .next t) : edges (n + 1) s = edges n t := by
  simp [edges, h]

/-- Settles O43, by induction on the number of edges: each is idle and leaves a state that idles on. -/
theorem idleHoldsState : Obligations.IdleHoldsState := by
  intro s n hl hp
  induction n generalizing s with
  | zero => rw [edges_succ 0 (step_of_idle hl hp), List.drop_one]; rfl
  | succ n ih =>
    rw [edges_succ (n + 1) (step_of_idle hl hp), ih { s with rsp := none, afterReset := false, pins := s.pins.tail } hl
      fun p hmem => hp p (List.mem_of_mem_tail hmem), List.drop_tail]

/-! ### Every edge answers -/

/-- Accepting a word answers a next state: an error is one too (R88, R196). -/
theorem accept_next (w : Word) (s : State) : ∃ t, accept w s = .next t := by
  unfold accept
  split
  · exact ⟨_, rfl⟩
  · split
    · exact ⟨_, rfl⟩
    · exact exec_next _ s

/-- Every edge answers a next state, whatever the pins (R204). -/
theorem edge_next (p : Pins) (s : State) : ∃ t, edge p s = .next t := by
  unfold edge
  split
  · exact ⟨_, rfl⟩
  split
  · exact exec_next .eval _
  split
  · exact ⟨_, rfl⟩
  split
  · exact accept_next p.cmd s
  · exact ⟨_, rfl⟩

/-- Settles O45: a step is an edge. -/
theorem everyStepAnswersNext : Obligations.EveryStepAnswersNext := fun s => edge_next s.nextPins s.popPins

end Sys2Proof.Machine
end

section
/-!
SUPPORT. The ports from edge to edge (spec/70_reset_and_hazards.md R220 to R223, R227, R228): a reset edge, the response
and cmd_ready after an edge, and an EVAL of EVAL_CYCLES edges.
-/

namespace Sys2Proof.Machine

/-! ### A reset edge -/

/-- A reset edge leaves the reset state of the block's own parameters, but for what the host drives next and the draw
counter (R221, logs 7 and 10). -/
theorem resetEdge_eq_resetWith {s : State} (h : Resets s) :
    { s.popPins.resetEdge with pins := [], draws := 0 } = State.resetWith s.config := by
  have hr : s.nextPins.rst = true := h
  simp [State.popPins, hr, State.resetEdge, State.reseed, State.clearError, State.resetWith]

/-- Settles O6: the edge is `resetEdge`, whose registers are constants and KEY_RESET. -/
theorem resetEdgeSetsEveryRegister : Obligations.ResetEdgeSetsEveryRegister := by
  refine ⟨rfl, fun s hr => ⟨_, step_of_resets hr, rfl, rfl, rfl, rfl, rfl, rfl, rfl, rfl, rfl, rfl, fun k => by simp, ?_⟩⟩
  obtain ⟨hN, hones, hocc, hsq, hr1, hr0, hbins, hhist, hacp, hutab, husum⟩ := Accumulators.clear_zero
  exact ⟨hN, hones, hocc, hsq, hr1, hr0, hbins, hhist, hacp, hutab, husum, rfl, rfl, rfl, rfl⟩

/-- Settles O7: the reset state of the default parameters is `State.reset`. -/
theorem resetEdgeGivesResetState : Obligations.ResetEdgeGivesResetState := fun _ hr hc =>
  ⟨_, step_of_resets hr, (resetEdge_eq_resetWith hr).trans (congrArg State.resetWith hc)⟩

/-! ### The response and cmd_ready after an edge -/

/-- Every command responds, and only an RDREG of an unmapped address responds with an error (R12, R200). -/
theorem exec_responds {i : Instr} {s t : State} (h : exec i s = .next t) :
    ∃ r, t.rsp = some r ∧ (r.err = true → ∃ a, i = .rdreg a ∧ regAt a.toNat = none) := by
  cases i with
  | rdreg a =>
    obtain ⟨r, -, hx⟩ | ⟨hn, hx⟩ := execRdreg_cases a s
    · cases hx.symm.trans h; exact ⟨_, rfl, Bool.noConfusion⟩
    · cases hx.symm.trans h; exact ⟨_, rfl, fun _ => ⟨a, rfl, hn⟩⟩
  | _ => cases h; exact ⟨_, rfl, Bool.noConfusion⟩

/-- No command touches the port's own fields but the response. -/
theorem exec_samePort {i : Instr} {s t : State} (h : exec i s = .next t) : SamePort s t := by
  cases i with
  | rdreg a =>
    obtain ⟨r, -, hx⟩ | ⟨-, hx⟩ := execRdreg_cases a s
    · cases hx.symm.trans h; exact ⟨rfl, rfl, rfl, rfl⟩
    · cases hx.symm.trans h; exact ⟨rfl, rfl, rfl, rfl⟩
  | _ => cases h; simp [SamePort]

/-- Every edge records whether it was a reset edge (R220). -/
theorem step_afterReset {s t : State} (h : step s = .next t) : t.afterReset = s.nextPins.rst := by
  cases step_effect h with
  | reset _ ht => subst ht; rfl
  | error _ _ ht => subst ht; rfl
  | effect _ _ ht => obtain ⟨-, -, hafter, -⟩ := exec_samePort ht; exact hafter
  | quiet _ _ _ ht => subst ht; rfl

/-- Settles O40: a reset edge has one next state, and after every other edge nothing but an EVAL makes the port busy. -/
theorem resetAcceptsNothingAndHoldsReady : Obligations.ResetAcceptsNothingAndHoldsReady := by
  intro s t h
  have hafter := step_afterReset h
  refine ⟨fun hr => ?_, fun hr rst => ?_⟩
  · cases (step_of_resets hr).symm.trans h
    have hrst : s.nextPins.rst = true := hr
    refine ⟨fun w hw => hw.ready.1 hr, fun i hi => hi.not_resets hr, rfl, ?_, rfl⟩
    simp [State.cmdReady, hrst]
  · have hlow : t.afterReset = false := hafter.trans (Bool.eq_false_iff.2 hr)
    simp [hlow, State.evalBusy]

/-- Settles O44: a command that takes effect responds and an error responds with the error bit; every other edge leaves
no response. -/
theorem oneResponsePerCommand : Obligations.OneResponsePerCommand := by
  intro s t h
  have raised : (∃ e, Raises s e) → ∃ r, t.rsp = some r ∧ r.err = true := by
    rintro ⟨e, he⟩
    cases (step_of_raises he).symm.trans h
    exact ⟨_, rfl, rfl⟩
  refine ⟨⟨fun hs => ?_, ?_⟩, fun r hr => ⟨fun herr => ?_, fun he => ?_⟩⟩
  · cases step_effect h with
    | reset _ ht => subst ht; simp at hs
    | error e he _ => exact .inr ⟨e, he⟩
    | effect i hi _ => exact .inl ⟨i, hi⟩
    | quiet _ _ _ ht => subst ht; simp at hs
  · rintro (⟨i, hi⟩ | he)
    · obtain ⟨r, hr, -⟩ := exec_responds ((step_of_takesEffect hi).symm.trans h)
      simp [hr]
    · obtain ⟨r, hr, -⟩ := raised he
      simp [hr]
  · cases step_effect h with
    | reset _ ht => subst ht; simp at hr
    | error e he _ => exact ⟨e, he⟩
    | effect i hi ht =>
      obtain ⟨r', hr', hun⟩ := exec_responds ht
      cases hr'.symm.trans hr
      obtain ⟨a, rfl, hn⟩ := hun herr
      exact ⟨.addr, hi.raises_of_unmapped hn⟩
    | quiet _ _ _ ht => subst ht; simp at hr
  · obtain ⟨r', hr', herr⟩ := raised he
    cases hr'.symm.trans hr
    exact herr

/-! ### An EVAL of several cycles -/

/-- `s` after `k` edges of an EVAL in progress that waits `l` edges more: only the port has moved (R227). -/
def State.inEval (s : State) (k l : Nat) : State :=
  { s with pins := s.pins.drop k, afterReset := false, evalLeft := l, rsp := none }

/-- No reset among the next `m` edges: rst is 0 at each of them, idle edges included (R231). -/
theorem State.inEval_nextPins_rst {s : State} {m : Nat} (hp : ∀ p ∈ s.pins.take m, p.rst = false) {k : Nat} (hk : k < m)
    (l : Nat) : (s.inEval k l).nextPins.rst = false := by
  rw [State.nextPins, State.inEval, List.head?_drop]
  cases hs : s.pins[k]? with
  | none => rfl
  | some p => exact hp p (List.mem_of_getElem? ((List.getElem?_take_of_lt hk).trans hs))

/-- An edge without a reset takes its pins off what the host drives. -/
theorem State.inEval_popPins {s : State} {k l : Nat} (hr : (s.inEval k l).nextPins.rst = false) :
    (s.inEval k l).popPins = s.inEval (k + 1) l := by
  rw [State.popPins, hr]
  simp [State.inEval]

/-- An EVAL with more than one edge left waits, whatever the host presents (R227). -/
theorem State.step_inEval_wait {s : State} {k l : Nat} (hr : (s.inEval k (l + 2)).nextPins.rst = false) :
    step (s.inEval k (l + 2)) = .next (s.inEval (k + 1) (l + 1)) := by
  rw [step, State.inEval_popPins hr, edge, hr]
  simp [State.inEval]

/-- An EVAL with one edge left takes effect at it (R227). -/
theorem State.step_inEval_finish {s : State} {k : Nat} (hr : (s.inEval k 1).nextPins.rst = false) :
    step (s.inEval k 1) = exec .eval (s.inEval (k + 1) 0) := by
  rw [step_of_takesEffect (.inr ⟨rfl, hr, rfl⟩), State.atEffect, State.inEval_popPins hr]
  rfl

/-- The effect of an EVAL is the same at its last edge as at its acceptance, but for the pins gone by (R151, R227). -/
theorem exec_eval_inEval {s t : State} (hl : s.evalLeft = 0) (h : exec .eval s = .next t) (k : Nat) :
    exec .eval (s.inEval k 0) = .next { t with pins := s.pins.drop k, afterReset := false } := by
  rw [State.inEval, ← hl]
  cases h
  rfl

/-- Acceptance is an edge of the EVAL too: it does what the same edge does in an EVAL with EVAL_CYCLES edges left. -/
theorem step_of_accepts_eval {s : State} {w : Word} {n : Nat} (ha : Accepts s w) (hd : decode w = .ok .eval)
    (hc : (s.config.evalCycles : ℕ) = n + 1) : step s = step (s.inEval 0 (n + 1)) := by
  have hrst : s.nextPins.rst = false := Bool.eq_false_iff.2 ha.ready.1
  have hpop : s.atEffect = { s.inEval 1 0 with rsp := s.rsp } := by
    simp [State.atEffect, State.popPins, State.inEval, hrst]
  cases n with
  | zero =>
    have hw : waits .eval s = false := by simp [waits, hc]
    rw [State.step_inEval_finish (k := 0) hrst, step_of_takesEffect (.inl ⟨w, ha, hd, hw⟩), hpop]
    rfl
  | succ n =>
    rw [State.step_inEval_wait (k := 0) hrst, step_of_accepts ha, ha.atEffect, hpop]
    simp [accept, hd, waits, State.inEval, hc]

/-- A run of edges ends with a step. -/
theorem edges_snoc {n : Nat} {s t : State} (h : edges n s = .next t) : edges (n + 1) s = step t := by
  induction n generalizing s with
  | zero =>
    obtain ⟨u, hu⟩ := everyStepAnswersNext s
    cases h
    rw [edges_succ 0 hu, hu, edges]
  | succ n ih =>
    obtain ⟨u, hu⟩ := everyStepAnswersNext s
    rw [edges_succ n hu] at h
    rw [edges_succ (n + 1) hu, ih h]

/-- An EVAL waits one edge after the other (R227). -/
theorem edges_inEval {s : State} {m k : Nat} (hp : ∀ p ∈ s.pins.take m, p.rst = false) (l : Nat) (hk : k ≤ m) :
    edges k (s.inEval 0 (k + l + 1)) = .next (s.inEval k (l + 1)) := by
  induction k generalizing l with
  | zero => rw [Nat.zero_add]; rfl
  | succ k ih =>
    have hwait := ih (l + 1) (Nat.le_of_succ_le hk)
    rw [← Nat.add_assoc, Nat.add_right_comm k l 1] at hwait
    rw [edges_snoc hwait, State.step_inEval_wait (State.inEval_nextPins_rst hp hk _)]

/-- Settles O42: acceptance and waiting are edges of one EVAL in progress, and the last of them is its effect. -/
theorem evalTakesEvalCycles : Obligations.EvalTakesEvalCycles := by
  intro s w n ha hd hc hp
  have hedges (k : Nat) : edges (k + 1) s = edges (k + 1) (s.inEval 0 (n + 1)) := by
    simp only [edges, step_of_accepts_eval ha hd hc]
  refine ⟨fun k hpos hle => ?_, ?_⟩
  · obtain ⟨k, rfl⟩ := Nat.exists_eq_add_one.2 hpos
    obtain ⟨l, rfl⟩ := Nat.exists_eq_add_of_le hle
    refine ⟨s.inEval (k + 1) (l + 1), (hedges k).trans (edges_inEval hp l (by omega)), ?_, rfl,
      ⟨rfl, ⟨rfl, rfl, rfl, rfl⟩, ⟨rfl, rfl⟩, ⟨rfl, rfl, rfl⟩, rfl, rfl⟩, rfl⟩
    simp [State.cmdReady, State.evalBusy, State.inEval]
  · obtain ⟨t, ht⟩ := exec_next .eval s
    have hl : s.evalLeft = 0 := ha.ready.2
    have hlast : edges (n + 1) s = exec .eval (s.inEval (n + 1) 0) := by
      rw [hedges, edges_snoc (edges_inEval hp 0 (Nat.le_succ n)),
        State.step_inEval_finish (State.inEval_nextPins_rst hp (Nat.lt_succ_self n) _)]
    refine ⟨t, _, ht, hlast.trans ?_, rfl, ?_⟩
    · exact exec_eval_inEval hl ht (n + 1)
    · obtain ⟨-, hleft, -⟩ := exec_samePort ht
      simp [hleft, hl]

end Sys2Proof.Machine
end
